-- ==== Sys2Proof/Word.lean ====
section
/-! DEFINITION. The plainest data of the block: the 32-bit command word, the binary32 value, one complex sample, one raw
16-bit pair and the opaque handles. The arithmetic on binary32 values is in `Sys2Proof/Machine/Float.lean`. -/

namespace Sys2Proof

/-- A command or operand word, bit 31 most significant (30_encoding.md R101). -/
abbrev Word := BitVec 32

/-- An opaque handle: "opaque filter-configuration handle" and per-band filter of 10_state.md R29. Only its identity matters. -/
abbrev Handle := Nat

/-- An IEEE 754 binary32 value, one constructor per class of bit pattern (00_scope.md R11, R13; 30_encoding.md R102).
The three constructors together are in one-to-one correspondence with the 2^32 bit patterns
(`F32.ofBits`, `F32.toBits` of `Machine/Float.lean`).

* `fin s m`: sign `s` and the low 31 bits `m` (biased exponent and fraction), below the pattern of infinity
  (2139095040 is 255 * 2^23);
* `inf s`: an infinity;
* `nan s k`: a NaN whose 23-bit fraction is `k + 1`. -/
inductive F32 where
  | fin (s : Bool) (m : Fin 2139095040)
  | inf (s : Bool)
  | nan (s : Bool) (k : Fin 8388607)
  deriving DecidableEq, Repr, Inhabited

/-- One complex sample `I + j Q` of the SampleBlock (10_state.md R21; 42_frequency_translation.md R180). -/
structure Sample where
  i : F32
  q : F32
  deriving DecidableEq, Repr, Inhabited

/-- One pair of 16-bit two's-complement samples, the element of every queue (20_memory.md R77; 30_encoding.md R116). -/
structure RawPair where
  i : BitVec 16
  q : BitVec 16
  deriving DecidableEq, Repr, Inhabited

end Sys2Proof
end

