-- ==== Sys2Proof/Config.lean ====
section
/-! DEFINITION. What an implementation fixes and what the spec leaves free. The record `Par` is the static parameter record
`PAR` of 00_scope.md R9 as plain data (its function-valued fields as finite tables of points); the constants
without a body are the uninterpreted remainder: nothing constrains them (log entries 1, 2, 3, 4). -/

namespace Sys2Proof

/-- The functions of `PAR.NUM` (00_scope.md R11). -/
inductive NumFn where
  | pow10 | log10 | sin | cos | atan2a
  deriving DecidableEq, Repr, Inhabited

/-- The rounded operations of 00_scope.md R11 that can deliver a NaN. -/
inductive FloatOp where
  | add | sub | mul | div | sqrt
  deriving DecidableEq, Repr, Inhabited

/-- One entry of the BandProfile table as the block sees it: `IN.BAND[b]` (10_state.md R29). -/
structure BandEntry where
  rfGainDb : F32
  agcThresh : F32
  filter : Handle
  deriving DecidableEq, Repr, Inhabited

/-- AgcParams, the record of 10_state.md R41, field by field. `pmodeRoot` is `PMODE` (30_encoding.md R115: 0 is
`max(abs I, abs Q)`, 1 is the square root). -/
structure AgcParams where
  fixedGain : F32
  pmodeRoot : Bool
  attackLen : Nat
  ringSize : Nat
  attackMult : F32
  decayMult : F32
  fastDecayMult : F32
  hangDecayMult : F32
  fastBackmult : F32
  hangBackmult : F32
  popRatio : F32
  hangEnable : Bool
  hangLevel : F32
  hangtime : F32
  hangSamples : Nat
  minVolts : F32
  maxInput : F32
  target : F32
  slopeConstant : F32
  deriving DecidableEq, Repr, Inhabited

/-- The SAM loop constants `PAR.SAM` (10_state.md R51). -/
structure SamParams where
  g1 : F32
  g2 : F32
  omegaLim : F32
  mtauR : F32
  mtauI : F32
  fadeEn : Bool
  deriving DecidableEq, Repr, Inhabited

/-- `PAR.NR_SCALE(option)` for the options 1 to 3 (00_scope.md R9; 45_demod_dispatch_external.md R273). -/
structure NrScales where
  spectral : F32
  lms : F32
  kim : F32
  deriving DecidableEq, Repr, Inhabited

/-- One known point of a function of `PAR.NUM`: `fn(x, y) = r` (`y` is read by `ATAN2A` only, whose operands are
`ATAN2A(y, x)` in the spec's order: `x` here is its first operand). -/
structure NumPoint where
  fn : NumFn
  x : F32
  y : F32
  r : F32
  deriving DecidableEq, Repr, Inhabited

/-- One known point of `PAR.AGC_PROFILE(mode, fs, band)` (00_scope.md R9). -/
structure ProfilePoint where
  mode : Nat
  fs : Nat
  band : BandEntry
  p : AgcParams
  deriving DecidableEq, Repr, Inhabited

/-- The static parameter record `PAR` (00_scope.md R9), fixed for the life of the block. A field of function type is held as
the finite list of its points a run has been given; at every other argument the function is the uninterpreted constant of
this file (log entries 1, 2, 3). -/
structure Par where
  nNative : Nat
  fsNative : Nat
  dfList : List Nat
  txDfList : List Nat
  numBands : Nat
  agcModeMax : Nat
  agcProfiles : List ProfilePoint
  sam : SamParams
  samNReq : Nat
  samFsReq : Nat
  samPhaseDelay : Bool
  nrScale : NrScales
  queueCap : Nat
  num : List NumPoint
  deriving DecidableEq, Repr, Inhabited

/-- Free: the functions of `PAR.NUM` at every point no table gives, before the named properties are imposed
(00_scope.md R11; 93_implementation_defined.md U8, U9). -/
opaque Config.num : NumFn → F32 → F32 → F32

/-- Free: `PAR.AGC_PROFILE` at every argument no table gives, before the constraints of 10_state.md R42 are imposed
(93_implementation_defined.md U12). -/
opaque Config.agcProfile : Nat → Nat → BandEntry → AgcParams

/-- Free: the sign and the payload of the quiet NaN that a binary32 operation delivers, which IEEE 754 leaves open
(00_scope.md R11; 93_implementation_defined.md U18). -/
opaque Config.nanChoice : FloatOp → F32 → F32 → Bool × Fin 4194304

/-- Free: the values external collaborators return, one per draw, numbered by a counter of `State`
(00_scope.md R12; 45_demod_dispatch_external.md R277; 93_implementation_defined.md U7). -/
opaque Config.extWord : Nat → F32

end Sys2Proof
end

