-- ==== Sys2Proof/Machine/Float.lean ====
section
/-! DEFINITION. IEEE 754 binary32 arithmetic (00_scope.md R11): bit patterns, exact values, rounding to nearest ties to even
with subnormals kept, the five rounded operations, the sign operations, the comparisons, and the conversions the spec
uses. Every operation computes the exact result in integers and rounds it once. -/

namespace Sys2Proof

/-! ### Bit patterns (30_encoding.md R102) -/

/-- The value whose bit pattern is `w`: bit 31 sign, bits 30 to 23 exponent, bits 22 to 0 fraction. -/
def F32.ofBits (w : Word) : F32 :=
  let s : Bool := 2147483648 ≤ w.toNat
  let m := w.toNat % 2147483648
  if h : m < 2139095040 then .fin s ⟨m, h⟩
  else if h2 : m = 2139095040 then .inf s
  else .nan s ⟨m - 2139095041, by have := Nat.mod_lt w.toNat (show 2147483648 > 0 by decide); omega⟩

/-- The bit pattern of a value, as a natural below 2^32. -/
def F32.pattern : F32 → Nat
  | .fin s m => (if s then 2147483648 else 0) + m.val
  | .inf s => (if s then 2147483648 else 0) + 2139095040
  | .nan s k => (if s then 2147483648 else 0) + (2139095041 + k.val)

/-- The bit pattern of a value. -/
def F32.toBits (x : F32) : Word := BitVec.ofNat 32 x.pattern

/-! ### Constants (00_scope.md R15; 44_sam_demodulator.md R245; 40_orchestrator_framing.md R136, R148) -/

def F32.zero : F32 := F32.ofBits 0x00000000#32
def F32.one : F32 := F32.ofBits 0x3F800000#32
def F32.twenty : F32 := F32.ofBits 0x41A00000#32
/-- 32768.0 -/
def F32.scale16 : F32 := F32.ofBits 0x47000000#32
/-- 32767.0 -/
def F32.max16 : F32 := F32.ofBits 0x46FFFE00#32
/-- -32768.0 -/
def F32.min16 : F32 := F32.ofBits 0xC7000000#32
/-- `PI_F` -/
def F32.piF : F32 := F32.ofBits 0x40490FDB#32
/-- `TWO_PI_F` -/
def F32.twoPiF : F32 := F32.ofBits 0x40C90FDB#32
/-- `HALF_PI_F` -/
def F32.halfPiF : F32 := F32.ofBits 0x3FC90FDB#32
/-- The binary32 value nearest 0.95. -/
def F32.c095 : F32 := F32.ofBits 0x3F733333#32
/-- The binary32 value nearest 0.05. -/
def F32.c005 : F32 := F32.ofBits 0x3D4CCCCD#32

/-! ### Classes and exact values -/

def F32.isNaN : F32 → Bool
  | .nan _ _ => true
  | _ => false

def F32.isFinite : F32 → Bool
  | .fin _ _ => true
  | _ => false

/-- A zero of either sign. -/
def F32.isZero : F32 → Bool
  | .fin _ m => m.val == 0
  | _ => false

/-- The magnitude of a finite value in units of 2^-149, the least subnormal, given its low 31 bits. -/
def F32.units (m : Nat) : Nat :=
  let e := m / 8388608
  if e = 0 then m else (8388608 + m % 8388608) * 2 ^ (e - 1)

/-- Finite, with a magnitude below the natural number `n`, compared exactly: "finite, `abs < `" of 10_state.md R29 and
42_frequency_translation.md R186. -/
def F32.magnitudeBelow (x : F32) (n : Nat) : Bool :=
  match x with
  | .fin _ m => decide (F32.units m.val < n * 2 ^ 149)
  | _ => false

/-- The exact signed value of a finite sign and magnitude in units of 2^-149. -/
def F32.signed (s : Bool) (m : Nat) : Int :=
  if s then -(F32.units m : Int) else (F32.units m : Int)

/-- A zero with the given sign. -/
def F32.zeroOf (s : Bool) : F32 := .fin s ⟨0, by decide⟩

/-- A sign and low 31 bits; from the pattern of infinity on, the infinity (overflow rounds to infinity). -/
def F32.pack (s : Bool) (c : Nat) : F32 :=
  if h : c < 2139095040 then .fin s ⟨c, h⟩ else .inf s

/-- The significand and exponent step of the binary32 value nearest `num / den` units of 2^-149, ties to even, as the low
31 bits of its pattern (00_scope.md R11: "round to nearest ties to even", "gradual underflow"). -/
def F32.roundCode (num den : Nat) : Nat :=
  let t := num / den
  let ex := if t < 16777216 then 0 else t.log2 - 23
  let d := den * 2 ^ ex
  let n := num / d
  let r := num % d
  ex * 8388608 + (if d < 2 * r ∨ (2 * r = d ∧ n % 2 = 1) then n + 1 else n)

/-- The binary32 value nearest `(-1)^s * num / den` units of 2^-149. -/
def F32.round (s : Bool) (num den : Nat) : F32 := F32.pack s (F32.roundCode num den)

/-- The quiet NaN that an operation delivers; its sign and payload are free (log entry 4). -/
def F32.nanResult (op : FloatOp) (a b : F32) : F32 :=
  .nan (Config.nanChoice op a b).1 ⟨4194303 + (Config.nanChoice op a b).2.val,
    by have := (Config.nanChoice op a b).2.isLt; omega⟩

/-! ### Sign operations: they act on the sign bit alone, NaN included (42_frequency_translation.md R181) -/

def F32.neg : F32 → F32
  | .fin s m => .fin (!s) m
  | .inf s => .inf (!s)
  | .nan s k => .nan (!s) k

def F32.abs : F32 → F32
  | .fin _ m => .fin false m
  | .inf _ => .inf false
  | .nan _ k => .nan false k

/-! ### The rounded operations: `none` where the IEEE 754 result is a NaN -/

def F32.addCore : F32 → F32 → Option F32
  | .nan _ _, _ => none
  | _, .nan _ _ => none
  | .inf s, .inf t => if s = t then some (.inf s) else none
  | .inf s, .fin _ _ => some (.inf s)
  | .fin _ _, .inf t => some (.inf t)
  | .fin s m, .fin t n =>
    let z := F32.signed s m.val + F32.signed t n.val
    if z = 0 then some (F32.zeroOf (s && t)) else some (F32.round (decide (z < 0)) z.natAbs 1)

def F32.mulCore : F32 → F32 → Option F32
  | .nan _ _, _ => none
  | _, .nan _ _ => none
  | .inf s, .inf t => some (.inf (s ^^ t))
  | .inf s, .fin t n => if n.val = 0 then none else some (.inf (s ^^ t))
  | .fin s m, .inf t => if m.val = 0 then none else some (.inf (s ^^ t))
  | .fin s m, .fin t n => some (F32.round (s ^^ t) (F32.units m.val * F32.units n.val) (2 ^ 149))

def F32.divCore : F32 → F32 → Option F32
  | .nan _ _, _ => none
  | _, .nan _ _ => none
  | .inf _, .inf _ => none
  | .inf s, .fin t _ => some (.inf (s ^^ t))
  | .fin s _, .inf t => some (F32.zeroOf (s ^^ t))
  | .fin s m, .fin t n =>
    if n.val = 0 then (if m.val = 0 then none else some (.inf (s ^^ t)))
    else some (F32.round (s ^^ t) (F32.units m.val * 2 ^ 149) (F32.units n.val))

/-- The integer square root of `x`, found bit by bit from bit `k - 1` down, starting from the partial root `r`. -/
def F32.isqrt (x : Nat) : Nat → Nat → Nat
  | 0, r => r
  | k + 1, r => if (r + 2 ^ k) * (r + 2 ^ k) ≤ x then F32.isqrt x k (r + 2 ^ k) else F32.isqrt x k r

/-- The square root: the root of `u` units of 2^-149 is `sqrt(u * 2^149)` of the same units; the halved integer root with a
sticky bit rounds as the exact root does. -/
def F32.sqrtCore : F32 → Option F32
  | .nan _ _ => none
  | .inf s => if s then none else some (.inf false)
  | .fin s m =>
    if m.val = 0 then some (F32.zeroOf s)
    else if s then none
    else
      let x := F32.units m.val * 2 ^ 149
      let r := F32.isqrt x 214 0
      some (F32.round false (2 * r + (if r * r < x then 1 else 0)) 2)

/-- The result of an operation, a NaN where there is no number. -/
def F32.orNaN (op : FloatOp) (a b : F32) : Option F32 → F32
  | some r => r
  | none => F32.nanResult op a b

def F32.add (a b : F32) : F32 := F32.orNaN .add a b (F32.addCore a b)
def F32.sub (a b : F32) : F32 := F32.orNaN .sub a b (F32.addCore a b.neg)
def F32.mul (a b : F32) : F32 := F32.orNaN .mul a b (F32.mulCore a b)
def F32.div (a b : F32) : F32 := F32.orNaN .div a b (F32.divCore a b)
def F32.sqrt (a : F32) : F32 := F32.orNaN .sqrt a a (F32.sqrtCore a)

/-! ### Comparisons: false when an operand is a NaN; the two zeros are equal -/

/-- The place of a value in the order of the extended reals; none for a NaN. -/
def F32.rank : F32 → Option Int
  | .fin s m => some (if s then -(m.val : Int) else (m.val : Int))
  | .inf s => some (if s then -2139095040 else 2139095040)
  | .nan _ _ => none

def F32.lt (a b : F32) : Bool :=
  match a.rank, b.rank with
  | some x, some y => decide (x < y)
  | _, _ => false

def F32.le (a b : F32) : Bool :=
  match a.rank, b.rank with
  | some x, some y => decide (x ≤ y)
  | _, _ => false

def F32.gt (a b : F32) : Bool := b.lt a
def F32.ge (a b : F32) : Bool := b.le a

/-- `MAX(a, b)` of 00_scope.md R14: `if a > b then a else b`. -/
def F32.max (a b : F32) : F32 := if a.gt b then a else b

/-- `MIN(a, b)` of 00_scope.md R14: `if a < b then a else b`. -/
def F32.min (a b : F32) : F32 := if a.lt b then a else b

/-! ### Conversions -/

/-- `f32_of_nat(n)` of 00_scope.md R14, round to nearest even. -/
def F32.ofNat (n : Nat) : F32 := F32.round false (n * 2 ^ 149) 1

/-- `f32_of_i16(v)` of 40_orchestrator_framing.md R136, exact. -/
def F32.ofI16 (v : BitVec 16) : F32 :=
  if v.toInt < 0 then F32.round true (v.toInt.natAbs * 2 ^ 149) 1 else F32.round false (v.toInt.natAbs * 2 ^ 149) 1

/-- The integer part of a finite value, truncated toward zero (40_orchestrator_framing.md R148). -/
def F32.trunc : F32 → Int
  | .fin s m => if s then -((F32.units m.val / 2 ^ 149 : Nat) : Int) else ((F32.units m.val / 2 ^ 149 : Nat) : Int)
  | _ => 0

/-- `F2I16(x)` of 40_orchestrator_framing.md R148: NaN to 0, times 32768.0, saturated, truncated toward zero. -/
def F32.toI16 (x : F32) : BitVec 16 :=
  if x.isNaN then 0#16
  else
    let y := x.mul F32.scale16
    if y.ge F32.max16 then 32767#16
    else if y.le F32.min16 then 32768#16
    else BitVec.ofInt 16 y.trunc

/-- `floor(x * n)` in exact arithmetic for a finite `x >= 0` (10_state.md R41, R42: `HANG_SAMPLES`). -/
def F32.floorMul (x : F32) (n : Nat) : Nat :=
  match x with
  | .fin _ m => F32.units m.val * n / 2 ^ 149
  | _ => 0

end Sys2Proof
end

