-- ==== Sys2Proof/Machine/Params.lean ====
section
/-! DEFINITION. Well-formedness of the static parameters (00_scope.md R10; 10_state.md R42, R52), and the parameter record
and AGC profile the model starts from. -/

namespace Sys2Proof

/-- A finite value in `[0, 1]` (10_state.md R42, R52). -/
def F32.inUnit (x : F32) : Bool := x.isFinite && F32.zero.le x && x.le F32.one

/-- A finite value above zero (10_state.md R42). -/
def F32.isPositive (x : F32) : Bool := x.isFinite && x.gt F32.zero

/-- A finite value that is not below zero (10_state.md R42, R52). -/
def F32.isNonneg (x : F32) : Bool := x.isFinite && F32.zero.le x

/-- The factors are at least 2 and every running product of them divides `n` (00_scope.md R10). -/
def dividesThrough : List Nat → Nat → Bool
  | [], _ => true
  | d :: ds, n => decide (2 ≤ d) && decide (n % d = 0) && dividesThrough ds (n / d)

/-- The product of a list of factors: `DF`, `TX_DF` (00_scope.md R9). -/
def factorProduct : List Nat → Nat
  | [] => 1
  | d :: ds => d * factorProduct ds

/-- A well-formed `PAR.SAM` (10_state.md R52). -/
def SamParams.wf (p : SamParams) : Bool :=
  p.g1.isNonneg && p.g2.isNonneg && p.omegaLim.isNonneg && p.mtauR.inUnit && p.mtauI.inUnit &&
  ((p.g1.mul F32.piF).add p.omegaLim).lt F32.twoPiF

/-- A well-formed `PAR` (00_scope.md R9, R10; 10_state.md R52). The constraint on `AGC_PROFILE` is met call by call
(`AgcParams.wf`), those on `NUM` by construction (`Machine/Num.lean`). -/
def Par.wf (p : Par) : Bool :=
  decide (0 < p.nNative) && decide (0 < p.fsNative) && decide (0 < p.numBands) && decide (0 < p.samNReq) &&
  decide (0 < p.samFsReq) && decide (p.nNative ≤ p.queueCap) &&
  dividesThrough p.dfList p.nNative && dividesThrough p.dfList p.fsNative &&
  dividesThrough p.txDfList p.nNative && dividesThrough p.txDfList p.fsNative && p.sam.wf

/-- A profile that meets 10_state.md R42 for an active mode at the rate `fs`. -/
def AgcParams.wf (p : AgcParams) (fs : Nat) : Bool :=
  decide (1 ≤ p.attackLen) && decide (p.attackLen ≤ p.ringSize) &&
  p.minVolts.isPositive && p.maxInput.isPositive && p.target.isFinite &&
  p.attackMult.inUnit && p.decayMult.inUnit && p.fastDecayMult.inUnit && p.hangDecayMult.inUnit &&
  p.fastBackmult.inUnit && p.hangBackmult.inUnit &&
  p.popRatio.isNonneg && p.slopeConstant.isFinite && p.hangLevel.isFinite && p.hangtime.isNonneg &&
  decide (p.hangSamples = p.hangtime.floorMul fs) && decide (p.hangSamples < 2147483648)

/-- One profile that meets 10_state.md R42 at every rate. It stands in where the uninterpreted `Config.agcProfile` would
break R42, so that `PAR.AGC_PROFILE` is every function R42 admits and no other (log entry 2). -/
def AgcParams.fallback : AgcParams where
  fixedGain := F32.one
  pmodeRoot := false
  attackLen := 1
  ringSize := 1
  attackMult := F32.one
  decayMult := F32.one
  fastDecayMult := F32.one
  hangDecayMult := F32.one
  fastBackmult := F32.one
  hangBackmult := F32.one
  popRatio := F32.one
  hangEnable := false
  hangLevel := F32.zero
  hangtime := F32.zero
  hangSamples := 0
  minVolts := F32.one
  maxInput := F32.one
  target := F32.one
  slopeConstant := F32.zero

/-- `PAR.AGC_PROFILE(mode, fs, band)` (00_scope.md R9): a point of the table, else the uninterpreted function under the
constraint of 10_state.md R42. -/
def Par.agcProfile (par : Par) (mode fs : Nat) (band : BandEntry) : AgcParams :=
  match par.agcProfiles.find? (fun pt => decide (pt.mode = mode ∧ pt.fs = fs ∧ pt.band = band)) with
  | some pt => pt.p
  | none =>
    if mode = 0 ∨ (Config.agcProfile mode fs band).wf fs = true then Config.agcProfile mode fs band
    else AgcParams.fallback

/-- `PAR.NR_SCALE(option)` for the options 1 to 3 (45_demod_dispatch_external.md R273); 1.0 for option 0, which is never
scaled. -/
def Par.nrScaleOf (par : Par) (option : BitVec 2) : F32 :=
  if option = 1#2 then par.nrScale.spectral
  else if option = 2#2 then par.nrScale.lms
  else if option = 3#2 then par.nrScale.kim
  else F32.one

/-- The parameter record of the state after reset. `PAR` is OPEN in the spec (00_scope.md R9): these are the suggested
values of 93_implementation_defined.md part 4 where it has one, else values of the spec's own vectors, else chosen
(log entry 5). Every statement about all states holds for every `PAR`. -/
def Par.initial : Par where
  nNative := 2048
  fsNative := 192000
  dfList := [4, 2]
  txDfList := [8]
  numBands := 4
  agcModeMax := 4
  agcProfiles := []
  sam :=
    { g1 := F32.ofBits 0x3F000000#32, g2 := F32.ofBits 0x3E000000#32, omegaLim := F32.ofBits 0x3E800000#32
      mtauR := F32.ofBits 0x3F000000#32, mtauI := F32.ofBits 0x3F400000#32, fadeEn := false }
  samNReq := 256
  samFsReq := 24000
  samPhaseDelay := false
  nrScale := { spectral := F32.one, lms := F32.one, kim := F32.one }
  queueCap := 4096
  num := []

end Sys2Proof
end

