-- ==== Sys2Proof/Machine/Num.lean ====
section
/-! DEFINITION. The functions of `PAR.NUM` (00_scope.md R11; 44_sam_demodulator.md R239): each is a point of the parameter
table or a free value, under exactly the properties the spec names. Where a point would break a named property a value that keeps it
stands in, so that each function here is every function the spec admits and no other (log entry 1). -/

namespace Sys2Proof

/-- The unconstrained value of a function of `PAR.NUM` at a point. -/
def Par.numRaw (par : Par) (fn : NumFn) (x y : F32) : F32 :=
  match par.num.find? (fun pt => decide (pt.fn = fn ∧ pt.x = x ∧ pt.y = y)) with
  | some pt => pt.r
  | none => Config.num fn x y

/-- `r` if it lies in `[lo, hi]`, else `d`. -/
def F32.within (lo hi d r : F32) : F32 := if lo.le r && r.le hi then r else d

/-- `POW10(x)`: 1.0 at both zeros (`NUM.pow10_zero`), above zero for finite `x` (00_scope.md R11). -/
def Par.pow10 (par : Par) (x : F32) : F32 :=
  let r := par.numRaw .pow10 x F32.zero
  if x.isZero then F32.one
  else if x.isFinite && !r.gt F32.zero then F32.one
  else r

/-- `LOG10(x)`: `+0` at 1.0 (`NUM.log10_one`), not below zero for `x >= 1`, finite and below zero for `0 < x < 1`
(`NUM.log10_sign`, 00_scope.md R11). DESIGN CHOICE (log entry 27): the sign at `x >= 1` is imposed at `+infinity` too, where
93_implementation_defined.md U8 admits any value; unsafe. -/
def Par.log10 (par : Par) (x : F32) : F32 :=
  let r := par.numRaw .log10 x F32.zero
  if x = F32.one then F32.zero
  else if x.ge F32.one then (if r.ge F32.zero then r else F32.zero)
  else if x.gt F32.zero then (if r.isFinite && r.lt F32.zero then r else F32.one.neg)
  else r

/-- `SIN(x)`: `+0` at `+0` (`NUM.trig_zero`), in `[-1, 1]` for finite `x` (00_scope.md R11). -/
def Par.sin (par : Par) (x : F32) : F32 :=
  let r := par.numRaw .sin x F32.zero
  if x = F32.zero then F32.zero
  else if x.isFinite then F32.within F32.one.neg F32.one F32.zero r
  else r

/-- `COS(x)`: 1.0 at `+0` (`NUM.trig_zero`), in `[-1, 1]` for finite `x` (00_scope.md R11). -/
def Par.cos (par : Par) (x : F32) : F32 :=
  let r := par.numRaw .cos x F32.zero
  if x = F32.zero then F32.one
  else if x.isFinite then F32.within F32.one.neg F32.one F32.zero r
  else r

/-- `ATAN2A(y, x)` under properties (1) to (4) of 44_sam_demodulator.md R239 for finite operands; unconstrained for a NaN or
an infinity. -/
def Par.atan2a (par : Par) (y x : F32) : F32 :=
  let r := par.numRaw .atan2a y x
  if y.isFinite && x.isFinite then
    if x.isZero then
      (if y.isZero then F32.zero else if y.gt F32.zero then F32.halfPiF else F32.halfPiF.neg)
    else if y.isZero then
      (if x.gt F32.zero then (if r.isZero then r else F32.zero) else F32.within F32.piF.neg F32.piF F32.zero r)
    else if y.gt F32.zero then F32.within F32.zero F32.piF F32.zero r
    else F32.within F32.piF.neg F32.zero F32.zero r
  else r

end Sys2Proof
end

