-- ==== Sys2Proof/Machine/State.lean ====
section
/-! DEFINITION. The state of the block as plain data (10_state.md R20 to R58, 20_memory.md R70), the fields of the model's own
(parameters, host port, schedule of the outside agents, external answers, marks), the reasons a step can stop, and the
state after power-on reset (10_state.md R60). -/

namespace Sys2Proof.Machine

/-- The SampleBlock `BLK` (10_state.md R21): the sample sequence (`BLK.I[k]`, `BLK.Q[k]` are the two parts of element `k`),
`BLK.N`, `BLK.FS` in Hz and `BLK.VALID`. -/
structure SampleBlock where
  x : List Sample
  n : Nat
  fs : Nat
  valid : Bool
  deriving DecidableEq, Repr, Inhabited

/-- `SEQ.PASS` (10_state.md R25). -/
inductive Pass where
  | idle | rx | tx
  deriving DecidableEq, Repr, Inhabited

/-- The sequencer (10_state.md R25, R26): the stage pointer, the running pass, and the mode of the last receive pass that
pulled a block (`NONE` is `none`). -/
structure Seq where
  sp : Nat
  pass : Pass
  lastDemod : Option (BitVec 3)
  deriving DecidableEq, Repr, Inhabited

/-- The anomaly classes of 60_exceptions.md R300. -/
inductive Anomaly where
  | unavailable | precondViolation | nanScrubbed | configMisuse
  deriving DecidableEq, Repr, Inhabited

/-- One entry `(code, info)` of `DIAG.LOG` (10_state.md R28; 60_exceptions.md R304); the info is `(BLK.N, BLK.FS)`. -/
structure DiagEntry where
  code : Nat
  n : Nat
  fs : Nat
  deriving DecidableEq, Repr, Inhabited

/-- Every `IN` port except `IN.DISPATCH_SEL` (10_state.md R29); the same record is `LAT` (R31). -/
structure Ports where
  demodMode : BitVec 3
  cwActive : Bool
  notchEn : Bool
  specFullEn : Bool
  specZoomEn : Bool
  activeBand : Nat
  fineFreqHz : F32
  rfGainAllBandsDb : F32
  band : List BandEntry
  volPre : F32
  volPost : F32
  filtCfg : Handle
  deriving DecidableEq, Repr, Inhabited

/-- The input ports `IN` (10_state.md R29). -/
structure InPorts where
  dispatchSel : BitVec 2
  ports : Ports
  deriving DecidableEq, Repr, Inhabited

/-- `CFG.IQ_AMP[b]`, `CFG.IQ_PHASE[b]`, and whether `SET_IQC` has written them since power-on (10_state.md R32, R33). -/
structure IqEntry where
  amp : F32
  phase : F32
  written : Bool
  deriving DecidableEq, Repr, Inhabited

/-- The configuration registers `CFG` (10_state.md R32); a `written` bit is 0 while the register is unwritten (R33). -/
structure Cfg where
  iq : List IqEntry
  nrOption : BitVec 2
  nrWritten : Bool
  agcMode : Nat
  agcFs : Nat
  agcWritten : Bool
  deriving DecidableEq, Repr, Inhabited

/-- One slot of the AGC ring: `RING_I[j]`, `RING_Q[j]`, `RING_M[j]` (10_state.md R43; 20_memory.md R76). -/
structure RingSlot where
  i : F32
  q : F32
  m : F32
  deriving DecidableEq, Repr, Inhabited

/-- `AGC.state`, the five states of 30_encoding.md R113. -/
inductive AgcCtl where
  | attack | fastDecay | hang | normalDecay | hangDecay
  deriving DecidableEq, Repr, Inhabited

/-- AgcState (10_state.md R40 to R43): the parameter part `AGC.P` and the dynamic part. `decayHang` is `AGC.decay_type`
(0 normal, 1 hang). -/
structure AgcState where
  p : AgcParams
  ring : List RingSlot
  outIndex : Nat
  inIndex : Nat
  state : AgcCtl
  volts : F32
  fastBack : F32
  hangBack : F32
  ringMax : F32
  hangCounter : Nat
  saveVolts : F32
  decayHang : Bool
  agcAction : Bool
  deriving DecidableEq, Repr, Inhabited

/-- SamLoopState (10_state.md R50). -/
structure SamState where
  phase : F32
  omega : F32
  filPrev : F32
  dc : F32
  dcInsert : F32
  carrierHz : F32
  carrierSmooth : F32
  deriving DecidableEq, Repr, Inhabited

/-- The four queues (20_memory.md R70, R77), each oldest first. -/
structure Queues where
  capq : List RawPair
  playq : List RawPair
  txsrc : List RawPair
  txsink : List RawPair
  deriving DecidableEq, Repr, Inhabited

/-- A call of an external collaborator with its arguments (00_scope.md R12; the operands of 40_orchestrator_framing.md and
45_demod_dispatch_external.md). -/
inductive ExtCall where
  | decimate (cfg : Handle) (stage : Nat) (b : SampleBlock)
  | interpolate (cfg : Handle) (stage : Nat) (b : SampleBlock)
  | convolve (cfg : Handle) (filter : Handle) (b : SampleBlock)
  | equalize (cfg : Handle) (b : SampleBlock)
  | hilbert (cfg : Handle) (b : SampleBlock)
  | ssbSelect (b : SampleBlock)
  | nrSpectral (b : SampleBlock)
  | nrLms (b : SampleBlock)
  | nrKim (b : SampleBlock)
  | notch (b : SampleBlock)
  | cwFilter (b : SampleBlock)
  | cwDecode (b : SampleBlock)
  | spectrumFull (b : SampleBlock)
  | spectrumZoom (b : SampleBlock)
  | txDecimate (cfg : Handle) (stage : Nat) (b : SampleBlock)
  | txEqualize (cfg : Handle) (b : SampleBlock)
  | txInterpolate (cfg : Handle) (stage : Nat) (b : SampleBlock)
  deriving DecidableEq, Repr, Inhabited

/-- The model's interface to the external collaborators (45_demod_dispatch_external.md R277; log entry 3): `feed` holds
answer values not yet drawn, `count` numbers the free draws made once it is empty, `calls` is the record of the calls made,
oldest first. -/
structure ExtPort where
  feed : List F32
  count : Nat
  calls : List ExtCall
  deriving DecidableEq, Repr, Inhabited

/-- What a host operation returned (30_encoding.md R117). -/
inductive HostResult where
  /-- No operation has returned anything since power-on. -/
  | notYet
  /-- `None` of `RX_PASS`, `TX_PASS`. -/
  | passNone
  /-- `Some(&BLK)` of `RX_PASS`, `TX_PASS`: a reference to the one `BLK` (70_reset_and_hazards.md R353). -/
  | passSome
  /-- The bit `RD_AGCACT` returns. -/
  | bit (b : Bool)
  /-- The value `RD_SAMOFS` returns. -/
  | real (x : F32)
  /-- The pair `RD_IQC` returns. -/
  | pair (amp phase : F32)
  /-- `RD_IQC` of an invalid band returns nothing. -/
  | nothing
  deriving DecidableEq, Repr, Inhabited

/-- The host interface (log entries 6, 21): command words issued and not yet taken, oldest first, the most recent result, and whether
the host awaits the result of the pass under way: it does where `RX_PASS` or `TX_PASS` began it, and not where `TICK` did, which
returns nothing (30_encoding.md R117; 46_host_operations.md R290). -/
structure HostPort where
  cmd : List Word
  result : HostResult
  awaited : Bool
  deriving DecidableEq, Repr, Inhabited

/-- Whose move is next (20_memory.md R74, R81; log entry 7): the block's own step, a move of an agent outside it, or the
power-on reset input (10_state.md R60). -/
inductive Move where
  /-- The block takes one step. -/
  | run
  /-- The capture producer appends pairs to `CAPQ`. -/
  | capture (ps : List RawPair)
  /-- The transmit producer appends pairs to `TXSRC`. -/
  | txFeed (ps : List RawPair)
  /-- The playback consumer removes the oldest `n` pairs of `PLAYQ`. -/
  | playDrain (n : Nat)
  /-- The transmit consumer removes the oldest `n` pairs of `TXSINK`. -/
  | sinkDrain (n : Nat)
  /-- The outside drives the `IN` ports. -/
  | drive (v : InPorts)
  /-- The host issues command words. -/
  | issue (ws : List Word)
  /-- Power-on reset. -/
  | powerOn
  deriving DecidableEq, Repr, Inhabited

/-- A value that no operation had written was used (10_state.md R33: "the run is marked and gives no claim"; log entry 8). -/
inductive Mark where
  | agcUnwritten
  | nrUnwritten
  | iqcUnwritten (band : Nat)
  deriving DecidableEq, Repr, Inhabited

/-- The state of the machine: the groups of 10_state.md R20 and the queues of 20_memory.md R77, then the model's own fields
`par`, `ext`, `host`, `sched` and `marks`. -/
structure State where
  /-- `PAR`, read-only (00_scope.md R9; log entry 5). -/
  par : Par
  blk : SampleBlock
  seq : Seq
  /-- `DIAG.LOG`. -/
  diag : List DiagEntry
  /-- `IN`. -/
  inp : InPorts
  /-- `LAT`. -/
  lat : Ports
  cfg : Cfg
  agc : AgcState
  sam : SamState
  /-- `NCO.theta`. -/
  nco : F32
  queues : Queues
  ext : ExtPort
  host : HostPort
  sched : List Move
  marks : List Mark
  deriving DecidableEq, Repr, Inhabited

/-- Why the machine stops with no next state. -/
inductive Fault where
  /-- `WRAP2PI` never ends and the stage with it (44_sam_demodulator.md R243; 70_reset_and_hazards.md R347): raised by
  `FSHIFT` and by `DEMOD` in mode SAM. Safe: the block is stuck there. -/
  | wrapDoesNotEnd
  /-- `SEQ.SP` names no stage of the running pass: raised by the sequencer, in states no run reaches
  (10_state.md R25). Safe. -/
  | stagePointerOutOfList
  deriving DecidableEq, Repr, Inhabited

/-- Why the model gives a step no meaning. -/
inductive Refusal where
  /-- Raised by `exec` alone, for an operation without a meaning. Safe. -/
  | notModelled (mnemonic : String)
  /-- `PAR` is not well formed (00_scope.md R10; 10_state.md R52): raised by every step. Safe. -/
  | parIllFormed
  /-- `PAR.AGC_PROFILE` gave a profile that breaks 10_state.md R42: raised by `CFG_AGC` for an active mode. Safe. -/
  | agcProfileIllFormed
  /-- `LAT.DEMOD_MODE` is 3 to 7 (45_demod_dispatch_external.md R264): raised by `DEMOD`. Safe. -/
  | demodModeUnassigned
  /-- The active band is not below `PAR.NUM_BANDS` (10_state.md R29; 70_reset_and_hazards.md R332, R333): raised by `RFGAIN`,
  `IQCORR`, `CONVFILT` and `CFG_AGC`. Safe. -/
  | bandOutOfRange
  /-- A host operation while a pass runs (46_host_operations.md R280; 93_implementation_defined.md U11): raised by every host
  operation. Safe. -/
  | hostOpDuringPass
  /-- A producer's append above `PAR.QUEUE_CAP` (20_memory.md R77: "not a step of the model"): raised by the moves of the
  two producers. Safe. -/
  | queueOverCapacity
  deriving DecidableEq, Repr, Inhabited

/-- All `+0` (10_state.md R54). -/
def SamState.initial : SamState :=
  { phase := F32.zero, omega := F32.zero, filPrev := F32.zero, dc := F32.zero, dcInsert := F32.zero
    carrierHz := F32.zero, carrierSmooth := F32.zero }

/-- `IN` ports at zero: the ports are driven from outside and the spec gives no value at reset (log entry 9). -/
def Ports.initial : Ports :=
  { demodMode := 0#3, cwActive := false, notchEn := false, specFullEn := false, specZoomEn := false, activeBand := 0
    fineFreqHz := F32.zero, rfGainAllBandsDb := F32.zero, band := [], volPre := F32.zero, volPost := F32.zero
    filtCfg := 0 }

/-- `AGC.P` before the first accepted `CFG_AGC`: no value in the spec, zeros here (log entry 8). -/
def AgcParams.initial : AgcParams :=
  { fixedGain := F32.zero, pmodeRoot := false, attackLen := 0, ringSize := 0, attackMult := F32.zero
    decayMult := F32.zero, fastDecayMult := F32.zero, hangDecayMult := F32.zero, fastBackmult := F32.zero
    hangBackmult := F32.zero, popRatio := F32.zero, hangEnable := false, hangLevel := F32.zero, hangtime := F32.zero
    hangSamples := 0, minVolts := F32.zero, maxInput := F32.zero, target := F32.zero, slopeConstant := F32.zero }

/-- `AGC` before the first accepted `CFG_AGC`: no value in the spec, zeros here (log entry 8). -/
def AgcState.initial : AgcState :=
  { p := AgcParams.initial, ring := [], outIndex := 0, inIndex := 0, state := .attack, volts := F32.zero
    fastBack := F32.zero, hangBack := F32.zero, ringMax := F32.zero, hangCounter := 0, saveVolts := F32.zero
    decayHang := false, agcAction := false }

/-- `CFG` unwritten (10_state.md R33, R60); the values are the model's (log entry 8). -/
def Cfg.initial (bands : Nat) : Cfg :=
  { iq := List.replicate bands { amp := F32.zero, phase := F32.zero, written := false }
    nrOption := 0#2, nrWritten := false, agcMode := 0, agcFs := 0, agcWritten := false }

/-- The state that power-on reset gives a block whose parameters are `par` and whose ports are driven to `inp`
(10_state.md R60). -/
def State.powerOn (par : Par) (inp : InPorts) (ext : ExtPort) (cmd : List Word) (sched : List Move) : State :=
  { par := par
    blk := { x := [], n := 0, fs := 0, valid := false }
    seq := { sp := 0, pass := .idle, lastDemod := none }
    diag := []
    inp := inp
    lat := Ports.initial
    cfg := Cfg.initial par.numBands
    agc := AgcState.initial
    sam := SamState.initial
    nco := F32.zero
    queues := { capq := [], playq := [], txsrc := [], txsink := [] }
    ext := ext
    host := { cmd := cmd, result := .notYet, awaited := false }
    sched := sched
    marks := [] }

/-- The machine right after power-on reset (10_state.md R60), nothing issued and nothing scheduled. -/
def State.reset : State :=
  State.powerOn Par.initial { dispatchSel := 0#2, ports := Ports.initial } { feed := [], count := 0, calls := [] } [] []

end Sys2Proof.Machine
end

