-- ==== Sys2Proof/Machine/Ops.lean ====
section
/-! DEFINITION. The shared operations of the block: named updates of the state, banks of storage read and written by index,
the queue primitives (20_memory.md R78 to R80), the ring primitives (R76), the diagnostic primitive that takes the place of an
exception (60_exceptions.md R304), the external answers (00_scope.md R12), the wrap `WRAP2PI` (44_sam_demodulator.md R243)
and the two resets the block makes itself (10_state.md R47, R54). -/

namespace Sys2Proof.Machine

/-- The three outcomes of a step of this machine. -/
abbrev Result := Host.Outcome State Fault Refusal

/-! ### Named updates of the state -/

def State.setBlk (s : State) (v : SampleBlock) : State := { s with blk := v }
def State.setSeq (s : State) (v : Seq) : State := { s with seq := v }
def State.setDiag (s : State) (v : List DiagEntry) : State := { s with diag := v }
def State.setInp (s : State) (v : InPorts) : State := { s with inp := v }
def State.setLat (s : State) (v : Ports) : State := { s with lat := v }
def State.setCfg (s : State) (v : Cfg) : State := { s with cfg := v }
def State.setAgc (s : State) (v : AgcState) : State := { s with agc := v }
def State.setSam (s : State) (v : SamState) : State := { s with sam := v }
def State.setNco (s : State) (v : F32) : State := { s with nco := v }
def State.setQueues (s : State) (v : Queues) : State := { s with queues := v }
def State.setExt (s : State) (v : ExtPort) : State := { s with ext := v }
def State.setHost (s : State) (v : HostPort) : State := { s with host := v }
def State.setSched (s : State) (v : List Move) : State := { s with sched := v }
def State.setMarks (s : State) (v : List Mark) : State := { s with marks := v }

/-! ### The sequencer (10_state.md R25) -/

/-- `SP <- SP + 1` (40_orchestrator_framing.md R135). -/
def State.advance (s : State) : State := s.setSeq { s.seq with sp := s.seq.sp + 1 }

/-- `SEQ.PASS <- IDLE ; SP <- 0` (40_orchestrator_framing.md R148, R157). -/
def State.endPass (s : State) : State := s.setSeq { s.seq with pass := .idle, sp := 0 }

/-- A host operation has a step only while `SEQ.PASS = IDLE` (46_host_operations.md R280; 93_implementation_defined.md
U11). -/
def whenIdle (s : State) (r : Result) : Result :=
  if s.seq.pass = .idle then r else .refused .hostOpDuringPass

/-- The value a host operation returns (30_encoding.md R117). -/
def State.returns (s : State) (r : HostResult) : State := s.setHost { s.host with result := r }

/-! ### Banks: storage read and written by an index, an element never written reads as `d` -/

def bankRead {α : Type} (d : α) (l : List α) (j : Nat) : α := l.getD j d

def bankWrite {α : Type} (d : α) : List α → Nat → α → List α
  | [], 0, v => [v]
  | [], j + 1, v => d :: bankWrite d [] j v
  | _ :: xs, 0, v => v :: xs
  | x :: xs, j + 1, v => x :: bankWrite d xs j v

/-! ### Anomalies (60_exceptions.md) -/

/-- The code of an anomaly class (60_exceptions.md R300). -/
def Anomaly.code : Anomaly → Nat
  | .unavailable => 0
  | .precondViolation => 1
  | .nanScrubbed => 2
  | .configMisuse => 3

/-- `diag <Name>(info)` (60_exceptions.md R304): append to the log and nothing else. There is no trap entry and no return
(R309, R310). -/
def State.raise (s : State) (a : Anomaly) (n fs : Nat) : State :=
  s.setDiag (s.diag ++ [{ code := a.code, n := n, fs := fs }])

/-- The mark of a value that no operation had written (10_state.md R33; log entry 8). -/
def State.markIf (s : State) (c : Bool) (m : Mark) : State := if c then s.setMarks (s.marks ++ [m]) else s

/-! ### Queues (20_memory.md R78 to R80) -/

/-- `QueueAvail(q)` -/
def queueAvail (q : List RawPair) : Nat := q.length

/-- `QueueRead(q, n)`: `none` is failure; else the `n` oldest pairs and what is left. -/
def queueRead (q : List RawPair) (n : Nat) : Option (List RawPair × List RawPair) :=
  if queueAvail q < n then none else some (q.take n, q.drop n)

/-- `QueueWrite(q, block)` -/
def queueWrite (q block : List RawPair) : List RawPair := q ++ block

/-! ### The SampleBlock -/

/-- Replace the samples of the block, keeping `N`, `FS` and `VALID`. -/
def State.setSamples (s : State) (x : List Sample) : State := s.setBlk { s.blk with x := x }

/-- Do the same to every sample of the block (40_orchestrator_framing.md R159, samples independent of each other). -/
def State.mapSamples (s : State) (f : Sample → Sample) : State := s.setSamples (s.blk.x.map f)

/-- Both channels times one factor, the sample the first operand. -/
def Sample.scale (g : F32) (z : Sample) : Sample := { i := z.i.mul g, q := z.q.mul g }

/-- `f32_of_i16(v) / 32768.0` (40_orchestrator_framing.md R136). -/
def sampleOfI16 (v : BitVec 16) : F32 := (F32.ofI16 v).div F32.scale16

/-- One raw pair as a sample (40_orchestrator_framing.md R136). -/
def sampleOfRaw (p : RawPair) : Sample := { i := sampleOfI16 p.i, q := sampleOfI16 p.q }

/-- One sample as a raw pair (40_orchestrator_framing.md R148). -/
def rawOfSample (z : Sample) : RawPair := { i := z.i.toI16, q := z.q.toI16 }

/-- The block a pull creates from raw pairs (40_orchestrator_framing.md R136, R151). -/
def freshBlock (par : Par) (raw : List RawPair) : SampleBlock :=
  { x := raw.map sampleOfRaw, n := par.nNative, fs := par.fsNative, valid := true }

/-! ### The AGC ring (20_memory.md R76) -/

def RingSlot.zero : RingSlot := { i := F32.zero, q := F32.zero, m := F32.zero }

/-- `RingRead(j)` -/
def ringRead (ring : List RingSlot) (j : Nat) : RingSlot := bankRead RingSlot.zero ring j

/-- `RingWrite(j, i, q, m)` -/
def ringWrite (ring : List RingSlot) (j : Nat) (v : RingSlot) : List RingSlot := bankWrite RingSlot.zero ring j v

/-- `j <- (j + 1) mod ring_size` -/
def ringNext (size j : Nat) : Nat := (j + 1) % size

/-! ### External collaborators (00_scope.md R12; 45_demod_dispatch_external.md R277; log entry 3) -/

/-- One answer value: the next of `feed`, else a free value. -/
def ExtPort.draw (e : ExtPort) : F32 × ExtPort :=
  match e.feed with
  | v :: vs => (v, { e with feed := vs })
  | [] => (Config.extWord e.count, { e with count := e.count + 1 })

/-- The answer of a call: `n` samples, I before Q in each. -/
def ExtPort.drawSamples : Nat → ExtPort → List Sample × ExtPort
  | 0, e => ([], e)
  | n + 1, e =>
    let i := e.draw
    let q := i.2.draw
    let r := ExtPort.drawSamples n q.2
    ({ i := i.1, q := q.1 } :: r.1, r.2)

/-- Record a call. -/
def State.calls (s : State) (c : ExtCall) : State := s.setExt { s.ext with calls := s.ext.calls ++ [c] }

/-- Call a collaborator that returns new contents for the block, `n` samples long. -/
def State.ask (s : State) (c : ExtCall) (n : Nat) : State :=
  let r := ExtPort.drawSamples n (s.calls c).ext
  ((s.calls c).setExt r.2).setSamples r.1

/-! ### WRAP2PI (44_sam_demodulator.md R243) -/

/-- More steps than any wrap that ends takes: the largest argument that ends is 2^27, and every step removes at least 6
below it (log entry 10). -/
def wrapFuel : Nat := 33554432

/-- `while x >= TWO_PI_F: x <- x - TWO_PI_F`; `none` is a loop that never ends, found where a step leaves `x` as it is. -/
def wrapDown : Nat → F32 → Option F32
  | 0, _ => none
  | k + 1, x =>
    if x.ge F32.twoPiF then
      if x.sub F32.twoPiF = x then none else wrapDown k (x.sub F32.twoPiF)
    else some x

/-- `while x < 0.0: x <- x + TWO_PI_F`; `none` as in `wrapDown`. -/
def wrapUp : Nat → F32 → Option F32
  | 0, _ => none
  | k + 1, x =>
    if x.lt F32.zero then
      if x.add F32.twoPiF = x then none else wrapUp k (x.add F32.twoPiF)
    else some x

/-- `WRAP2PI(x)`; `none` where it does not end (70_reset_and_hazards.md R347). -/
def wrap2pi (x : F32) : Option F32 := (wrapDown wrapFuel x).bind (wrapUp wrapFuel)

/-! ### The partial resets -/

/-- The reset of SamLoopState (10_state.md R54). -/
def State.resetSam (s : State) : State := s.setSam SamState.initial

/-- `SamReentryCheck` (44_sam_demodulator.md R246): `prev` is `SEQ.LAST_DEMOD`, the mode is the latched one. -/
def State.samReentry (s : State) (prev : Option (BitVec 3)) : State :=
  if s.lat.demodMode = 2#3 ∧ prev ≠ some 2#3 then s.resetSam else s

/-- The reset of the dynamic part of AGC under a new profile (10_state.md R47). In mode 0 the ring and the two indices are
left without a value: the ring has no slot (log entry 11). -/
def agcReset (mode : Nat) (p : AgcParams) : AgcState :=
  { p := p
    ring := if mode = 0 then [] else List.replicate p.ringSize RingSlot.zero
    outIndex := if mode = 0 then 0 else p.ringSize - 1
    inIndex := if mode = 0 then 0 else (p.ringSize - 1 + p.attackLen) % p.ringSize
    state := .attack
    volts := p.minVolts
    fastBack := F32.zero
    hangBack := F32.zero
    ringMax := F32.zero
    hangCounter := 0
    saveVolts := F32.zero
    decayHang := false
    agcAction := false }

/-! ### Pulls: what `PULL`, `TXPULL` and the entry points share -/

/-- The effect of `PULL` when a block is available; `none` is `UNAVAILABLE` (40_orchestrator_framing.md R136, R137). -/
def pullRx (s : State) : Option State :=
  match queueRead s.queues.capq s.par.nNative with
  | none => none
  | some (raw, rest) =>
    let s1 := (s.setQueues { s.queues with capq := rest }).setLat s.inp.ports
    let s2 := s1.samReentry s.seq.lastDemod
    some ((s2.setBlk (freshBlock s.par raw)).setSeq
      { sp := 1, pass := .rx, lastDemod := some s.inp.ports.demodMode })

/-- The effect of `TXPULL` when a block is available; `none` is `UNAVAILABLE` (40_orchestrator_framing.md R151). -/
def pullTx (s : State) : Option State :=
  match queueRead s.queues.txsrc s.par.nNative with
  | none => none
  | some (raw, rest) =>
    let s1 := (s.setQueues { s.queues with txsrc := rest }).setLat s.inp.ports
    some ((s1.setBlk (freshBlock s.par raw)).setSeq { s.seq with sp := 1, pass := .tx })

/-- The first step of a pass from what its pull answered: where there was no block the pass is over at once. `awaited` says whether the
operation that began it returns a value: then `None` at once, or `Some(&BLK)` when the last stage ends the pass
(30_encoding.md R117; 46_host_operations.md R281, R282, R290). The sequencer runs the other stages (`Machine/Issue.lean`). -/
def beginPass (awaited : Bool) (s : State) : Option State → Result
  | none => .next (if awaited then s.returns .passNone else s)
  | some t => .next (t.setHost { t.host with awaited := awaited })

/-- The first step of a receive pass: execute `PULL` (46_host_operations.md R281). -/
def startRx (awaited : Bool) (s : State) : Result := beginPass awaited s (pullRx s)

/-- The first step of a transmit pass: execute `TXPULL` (46_host_operations.md R282). -/
def startTx (awaited : Bool) (s : State) : Result := beginPass awaited s (pullTx s)

end Sys2Proof.Machine
end

