-- ==== Sys2Proof/Machine/Agents.lean ====
section
/-! DEFINITION. The moves of the agents outside the block (20_memory.md R74, R77, R81; 10_state.md R29) and the power-on reset input
(10_state.md R60). Each is one indivisible step and can stand between any two steps of the block. -/

namespace Sys2Proof.Machine

/-- A producer's append within the capacity, else no step of the model (20_memory.md R77, R81). -/
def appendWithin (cap : Nat) (q ps : List RawPair) (f : List RawPair → State) : Result :=
  if q.length + ps.length ≤ cap then .next (f (q ++ ps)) else .refused .queueOverCapacity

/-- One move of an agent outside the block; `run` is no such move and changes nothing here. -/
def agentMove (m : Move) (s : State) : Result :=
  match m with
  | .run => .next s
  | .capture ps => appendWithin s.par.queueCap s.queues.capq ps fun q => s.setQueues { s.queues with capq := q }
  | .txFeed ps => appendWithin s.par.queueCap s.queues.txsrc ps fun q => s.setQueues { s.queues with txsrc := q }
  | .playDrain n => .next (s.setQueues { s.queues with playq := s.queues.playq.drop n })
  | .sinkDrain n => .next (s.setQueues { s.queues with txsink := s.queues.txsink.drop n })
  | .drive v => .next (s.setInp v)
  | .issue ws => .next (s.setHost { s.host with cmd := s.host.cmd ++ ws })
  | .powerOn => .next (State.powerOn s.par s.inp s.ext s.host.cmd s.sched)

end Sys2Proof.Machine
end

