-- ==== Sys2Proof/Syntax.lean ====
section
/-! DEFINITION. The operations of the block: one constructor per row of spec/opcode_table.json (30_encoding.md R104).
"Instruction" is "operation" (00_scope.md R2): nineteen receive stages, seven transmit stages, ten host operations. -/

namespace Sys2Proof

/-- An operation of 30_encoding.md R104. Stage operations take no operand from the encoding (R102); the operands of the
host operations are the naturals and binary32 values R102 assembles from `arg`, `d0` and `d1`. -/
inductive Instr where
  /-- `PULL` (40_orchestrator_framing.md R136, R137). -/
  | pull
  /-- `RFGAIN` (41_gain_iq_correction.md R171). -/
  | rfgain
  /-- `IQCORR` (41_gain_iq_correction.md R173). -/
  | iqcorr
  /-- `SPECFULL` (40_orchestrator_framing.md R138). -/
  | specfull
  /-- `QSHIFT` (42_frequency_translation.md R181). -/
  | qshift
  /-- `SPECZOOM` (40_orchestrator_framing.md R139). -/
  | speczoom
  /-- `FSHIFT` (42_frequency_translation.md R184). -/
  | fshift
  /-- `DECIM` (40_orchestrator_framing.md R141). -/
  | decim
  /-- `VOLPRE` (40_orchestrator_framing.md R143). -/
  | volpre
  /-- `CONVFILT` (45_demod_dispatch_external.md R270). -/
  | convfilt
  /-- `AGC` (43_agc.md R200). -/
  | agc
  /-- `DEMOD` (45_demod_dispatch_external.md R260). -/
  | demod
  /-- `EQ` (45_demod_dispatch_external.md R271). -/
  | equalizer
  /-- `NR` (45_demod_dispatch_external.md R272). -/
  | nr
  /-- `NOTCH` (45_demod_dispatch_external.md R274). -/
  | notch
  /-- `CWPROC` (45_demod_dispatch_external.md R275). -/
  | cwproc
  /-- `INTERP` (40_orchestrator_framing.md R145). -/
  | interp
  /-- `VOLPOST` (40_orchestrator_framing.md R147). -/
  | volpost
  /-- `PUSH` (40_orchestrator_framing.md R148). -/
  | push
  /-- `TXPULL` (40_orchestrator_framing.md R151). -/
  | txpull
  /-- `TXDECIM` (40_orchestrator_framing.md R152). -/
  | txdecim
  /-- `TXEQ` (40_orchestrator_framing.md R153). -/
  | txeq
  /-- `TXHILB` (40_orchestrator_framing.md R154). -/
  | txhilb
  /-- `TXSSB` (40_orchestrator_framing.md R155). -/
  | txssb
  /-- `TXINTERP` (40_orchestrator_framing.md R156). -/
  | txinterp
  /-- `TXPUSH` (40_orchestrator_framing.md R157). -/
  | txpush
  /-- `TICK` (40_orchestrator_framing.md R130). -/
  | tick
  /-- `RX_PASS` (46_host_operations.md R281). -/
  | rxPass
  /-- `TX_PASS` (46_host_operations.md R282). -/
  | txPass
  /-- `CFG_AGC mode, fs` (46_host_operations.md R283): `mode` is `arg`, `fs` is `d0` in Hz. -/
  | cfgAgc (mode fs : Nat)
  /-- `CFG_NR option` (46_host_operations.md R284). -/
  | cfgNr (option : Nat)
  /-- `SET_IQC band, amp, phase` (46_host_operations.md R285): `amp` is `d0`, `phase` is `d1`. -/
  | setIqc (band : Nat) (amp phase : F32)
  /-- `RD_AGCACT` (46_host_operations.md R286). -/
  | rdAgcact
  /-- `RD_SAMOFS` (46_host_operations.md R287). -/
  | rdSamofs
  /-- `RD_IQC band` (46_host_operations.md R288). -/
  | rdIqc (band : Nat)
  /-- `BULK_CLEAR mask` (46_host_operations.md R289). -/
  | bulkClear (mask : Nat)
  deriving DecidableEq, Repr

end Sys2Proof
end

