-- ==== Sys2Proof/WellFormed.lean ====
section
/-! DEFINITION. Which operations the encoding can hold: `arg` is an 8-bit field and `d0` of `CFG_AGC` a 32-bit natural
(30_encoding.md R101, R102). An operand the encoding holds but the operation does not accept is well formed: it is a no-op
of the operation (R107). -/

namespace Sys2Proof

/-- A natural that the 8-bit field `arg` holds (30_encoding.md R102: "range 0 to 255"). -/
def argFits (a : Nat) : Bool := a < 2 ^ 8

/-- A natural that an operand word holds (30_encoding.md R102: "the unsigned 32-bit value of the word"). -/
def wordFits (n : Nat) : Bool := n < 2 ^ 32

/-- The operation's operands fit the fields of the encoding (30_encoding.md R101, R102). -/
def Instr.wf : Instr → Bool
  | .cfgAgc mode fs => argFits mode && wordFits fs
  | .cfgNr option => argFits option
  | .setIqc band _ _ => argFits band
  | .rdIqc band => argFits band
  | .bulkClear mask => argFits mask
  | .pull | .rfgain | .iqcorr | .specfull | .qshift | .speczoom | .fshift | .decim | .volpre | .convfilt | .agc
  | .demod | .equalizer | .nr | .notch | .cwproc | .interp | .volpost | .push | .txpull | .txdecim | .txeq | .txhilb
  | .txssb | .txinterp | .txpush | .tick | .rxPass | .txPass | .rdAgcact | .rdSamofs => true

end Sys2Proof
end

