-- ==== Sys2Proof/Decode.lean ====
section
/-! DEFINITION. The decoder of 30_encoding.md R101 to R106, total on any list of words, and after it the encoder of the same
tables. A reserved word is answered by its reason (R106, `NOP_RESERVED`). -/

namespace Sys2Proof

/-- Why a command word is `NOP_RESERVED` (30_encoding.md R106). -/
inductive Reserved where
  /-- An `op` that R104 does not assign. -/
  | unassignedOp
  /-- A non-zero `zero` field. -/
  | zeroField
  /-- A non-zero `arg` where the row's mask covers `arg`. -/
  | argField
  deriving DecidableEq, Repr

/-- What stands at the front of a list of words. -/
inductive Decoded where
  /-- The operation `i`, `words` words long (30_encoding.md R103). -/
  | op (i : Instr) (words : Nat)
  /-- `NOP_RESERVED`, one word long (30_encoding.md R106). -/
  | reserved (why : Reserved)
  /-- No command word, or its operand words have not all arrived. -/
  | needMore
  deriving DecidableEq, Repr

/-! ### Fields of the command word (30_encoding.md R101) -/

/-- `w[31:24]` -/
def wordOp (w : Word) : Nat := w.toNat / 16777216

/-- `w[23:16]` -/
def wordArg (w : Word) : Nat := w.toNat / 65536 % 256

/-- `w[15:0]` -/
def wordZero (w : Word) : Nat := w.toNat % 65536

/-- The operations of 30_encoding.md R104 whose mask is 0xFFFFFFFF, by their `op`. -/
def plainOp : Nat → Option Instr
  | 0x01 => some .pull
  | 0x02 => some .rfgain
  | 0x03 => some .iqcorr
  | 0x04 => some .specfull
  | 0x05 => some .qshift
  | 0x06 => some .speczoom
  | 0x07 => some .fshift
  | 0x08 => some .decim
  | 0x09 => some .volpre
  | 0x0A => some .convfilt
  | 0x0B => some .agc
  | 0x0C => some .demod
  | 0x0D => some .equalizer
  | 0x0E => some .nr
  | 0x0F => some .notch
  | 0x10 => some .cwproc
  | 0x11 => some .interp
  | 0x12 => some .volpost
  | 0x13 => some .push
  | 0x21 => some .txpull
  | 0x22 => some .txdecim
  | 0x23 => some .txeq
  | 0x24 => some .txhilb
  | 0x25 => some .txssb
  | 0x26 => some .txinterp
  | 0x27 => some .txpush
  | 0x40 => some .tick
  | 0x41 => some .rxPass
  | 0x42 => some .txPass
  | 0x50 => some .rdAgcact
  | 0x51 => some .rdSamofs
  | _ => none

/-- The operation an `op`, an `arg` and the words behind the command word stand for (30_encoding.md R102 to R106). -/
def decodeOp (op arg : Nat) (rest : List Word) : Decoded :=
  if op = 0x48 then
    match rest with
    | d0 :: _ => .op (.cfgAgc arg d0.toNat) 2
    | [] => .needMore
  else if op = 0x49 then .op (.cfgNr arg) 1
  else if op = 0x4A then
    match rest with
    | d0 :: d1 :: _ => .op (.setIqc arg (F32.ofBits d0) (F32.ofBits d1)) 3
    | _ => .needMore
  else if op = 0x52 then .op (.rdIqc arg) 1
  else if op = 0x60 then .op (.bulkClear arg) 1
  else
    match plainOp op with
    | none => .reserved .unassignedOp
    | some i => if arg = 0 then .op i 1 else .reserved .argField

/-- The decoder (30_encoding.md R101 to R106). -/
def decode : List Word → Decoded
  | [] => .needMore
  | w :: rest => if wordZero w = 0 then decodeOp (wordOp w) (wordArg w) rest else .reserved .zeroField

/-! ### Bytes, for a harness that needs them (20_memory.md R71: little-endian, not observable by any rule) -/

/-- The word whose bytes, lowest address first, are the arguments. -/
def wordOfBytes (b0 b1 b2 b3 : BitVec 8) : Word :=
  BitVec.ofNat 32 (b0.toNat + b1.toNat * 256 + b2.toNat * 65536 + b3.toNat * 16777216)

/-- Four bytes a word; a last incomplete word is left out. -/
def wordsOfBytes : List (BitVec 8) → List Word
  | b0 :: b1 :: b2 :: b3 :: rest => wordOfBytes b0 b1 b2 b3 :: wordsOfBytes rest
  | _ => []

/-- The decoder on bytes. -/
def decodeBytes (bs : List (BitVec 8)) : Decoded := decode (wordsOfBytes bs)

/-! ### The words of a table row -/

/-- The three words (the longest operation has three, 30_encoding.md R103) of an instruction whose bits are `w`, the first
word in bits 31 to 0; every bit from `nbits` on is 0. -/
def tableWords (nbits w : Nat) : List Word :=
  let v := w % 2 ^ nbits
  [BitVec.ofNat 32 v, BitVec.ofNat 32 (v / 4294967296), BitVec.ofNat 32 (v / 18446744073709551616)]

/-- The operation the decoder reads from an instruction whose bits are `w`, numbered as spec/opcode_table.json numbers
them. -/
def decodeTableWord (nbits w : Nat) : Option Instr :=
  match decode (tableWords nbits w) with
  | .op i _ => some i
  | .reserved _ => none
  | .needMore => none

/-! ### The encoder -/

/-- The `op` of an operation (30_encoding.md R104). -/
def Instr.opNumber : Instr → Nat
  | .pull => 0x01
  | .rfgain => 0x02
  | .iqcorr => 0x03
  | .specfull => 0x04
  | .qshift => 0x05
  | .speczoom => 0x06
  | .fshift => 0x07
  | .decim => 0x08
  | .volpre => 0x09
  | .convfilt => 0x0A
  | .agc => 0x0B
  | .demod => 0x0C
  | .equalizer => 0x0D
  | .nr => 0x0E
  | .notch => 0x0F
  | .cwproc => 0x10
  | .interp => 0x11
  | .volpost => 0x12
  | .push => 0x13
  | .txpull => 0x21
  | .txdecim => 0x22
  | .txeq => 0x23
  | .txhilb => 0x24
  | .txssb => 0x25
  | .txinterp => 0x26
  | .txpush => 0x27
  | .tick => 0x40
  | .rxPass => 0x41
  | .txPass => 0x42
  | .cfgAgc _ _ => 0x48
  | .cfgNr _ => 0x49
  | .setIqc _ _ _ => 0x4A
  | .rdAgcact => 0x50
  | .rdSamofs => 0x51
  | .rdIqc _ => 0x52
  | .bulkClear _ => 0x60

/-- The `arg` of an operation: mode, option, band or mask, zero where it has none (30_encoding.md R101). -/
def Instr.argField : Instr → Nat
  | .cfgAgc mode _ => mode
  | .cfgNr option => option
  | .setIqc band _ _ => band
  | .rdIqc band => band
  | .bulkClear mask => mask
  | _ => 0

/-- The operand words `d0`, `d1` of an operation (30_encoding.md R101, R102). -/
def Instr.operandWords : Instr → List Word
  | .cfgAgc _ fs => [BitVec.ofNat 32 fs]
  | .setIqc _ amp phase => [amp.toBits, phase.toBits]
  | _ => []

/-- The command word with the given `op` and `arg` and a zero `zero` field (30_encoding.md R101). -/
def commandWord (op arg : Nat) : Word := BitVec.ofNat 32 (op * 16777216 + arg * 65536)

/-- The words of an operation, the command word first. -/
def encode (i : Instr) : List Word := commandWord i.opNumber i.argField :: i.operandWords

end Sys2Proof
end

