-- ==== Sys2Proof/Machine/Operands.lean ====
section
/-! DEFINITION. Where a stage operation's operands come from: the latched ports `LAT` (10_state.md R31), the entry of the active band
(R29; 41_gain_iq_correction.md R170), and the configuration registers `CFG` with the mark of an unwritten one (R33). -/

namespace Sys2Proof.Machine

/-- A BandProfile entry the ports do not list. -/
def BandEntry.zero : BandEntry := { rfGainDb := F32.zero, agcThresh := F32.zero, filter := 0 }

/-- `BAND[ACTIVE_BAND]` of a set of ports. -/
def Ports.activeEntry (p : Ports) : BandEntry := bankRead BandEntry.zero p.band p.activeBand

/-- The active band of the ports is one of the block's `PAR.NUM_BANDS` (10_state.md R29). -/
def Ports.bandInRange (p : Ports) (par : Par) : Bool := decide (p.activeBand < par.numBands)

/-- Go on if the active band exists; the stage that needs it has no meaning otherwise (70_reset_and_hazards.md R332,
R333). -/
def whenBand (ok : Bool) (r : Result) : Result := if ok then r else .refused .bandOutOfRange

/-- A correction pair that `SET_IQC` has not written (log entry 8). -/
def IqEntry.unwritten : IqEntry := { amp := F32.zero, phase := F32.zero, written := false }

/-- `CFG.IQ_AMP[b]`, `CFG.IQ_PHASE[b]` -/
def Cfg.iqPair (c : Cfg) (b : Nat) : IqEntry := bankRead IqEntry.unwritten c.iq b

/-- `CFG.IQ_AMP[b] <- amp ; CFG.IQ_PHASE[b] <- phase` -/
def Cfg.setIqPair (c : Cfg) (b : Nat) (amp phase : F32) : Cfg :=
  { c with iq := bankWrite IqEntry.unwritten c.iq b { amp := amp, phase := phase, written := true } }

/-- Read `CFG.IQ_AMP[b]`, `CFG.IQ_PHASE[b]`: the mark if they are unwritten. -/
def State.markIqc (s : State) (b : Nat) : State := s.markIf (!(s.cfg.iqPair b).written) (.iqcUnwritten b)

/-- Read `CFG.AGC_MODE` or `AGC`: the mark if no `CFG_AGC` was accepted. -/
def State.markAgc (s : State) : State := s.markIf (!s.cfg.agcWritten) .agcUnwritten

/-- Read `CFG.NR_OPTION`: the mark if it is unwritten. -/
def State.markNr (s : State) : State := s.markIf (!s.cfg.nrWritten) .nrUnwritten

end Sys2Proof.Machine
end

