-- ==== Sys2Proof/Machine/Adapter.lean ====
section
/-! DEFINITION. The sample source and sink adapter: `PULL`, `PUSH`, `TXPULL`, `TXPUSH` (40_orchestrator_framing.md R136, R137,
R148, R149, R151, R157). -/

namespace Sys2Proof.Machine

/-- `PULL`: one block from `CAPQ`, or nothing at all where it is unavailable (40_orchestrator_framing.md R136, R137). -/
def execPull (s : State) : Result :=
  match pullRx s with
  | none => .next s
  | some t => .next t

/-- `TXPULL`: one block from `TXSRC`, or nothing at all (40_orchestrator_framing.md R151). -/
def execTxpull (s : State) : Result :=
  match pullTx s with
  | none => .next s
  | some t => .next t

/-- `PUSH`: the block as 16-bit pairs to `PLAYQ`, then the pass is over (40_orchestrator_framing.md R148). -/
def execPush (s : State) : Result :=
  .next (s.setQueues { s.queues with playq := queueWrite s.queues.playq (s.blk.x.map rawOfSample) }).endPass

/-- `TXPUSH`: as `PUSH`, to `TXSINK` (40_orchestrator_framing.md R157). -/
def execTxpush (s : State) : Result :=
  .next (s.setQueues { s.queues with txsink := queueWrite s.queues.txsink (s.blk.x.map rawOfSample) }).endPass

end Sys2Proof.Machine
end

