-- ==== Sys2Proof/Machine/Flags.lean ====
section
/-! DEFINITION. The block's one status flag, `AGC.agc_action` (10_state.md R27), and the clamp that computes it
(43_agc.md R213). There are no condition codes. -/

namespace Sys2Proof.Machine

/-- The flag after the clamp step: 0 exactly where the clamp is applied (43_agc.md R213). -/
def actionFlag (volts minVolts : F32) : Bool := !volts.lt minVolts

/-- The envelope after the clamp step (43_agc.md R213). -/
def clampVolts (volts minVolts : F32) : F32 := if volts.lt minVolts then minVolts else volts

end Sys2Proof.Machine
end

