-- ==== Sys2Proof/Machine/Agc.lean ====
section
/-! DEFINITION. The AGC engine: `AGC` (43_agc.md R190 to R222). The nine steps S1 to S9 of R202 are one function each. -/

namespace Sys2Proof.Machine

/-- The code of a controller state (30_encoding.md R113). -/
def AgcCtl.code : AgcCtl → BitVec 3
  | .attack => 0#3
  | .fastDecay => 1#3
  | .hang => 2#3
  | .normalDecay => 3#3
  | .hangDecay => 4#3

/-- `toward(v, p, m) = v + ((p - v) * m)` (43_agc.md R192). -/
def toward (v p m : F32) : F32 := v.add ((p.sub v).mul m)

/-- The magnitude of the arriving sample (43_agc.md R204). -/
def magnitude (p : AgcParams) (z : Sample) : F32 :=
  if p.pmodeRoot then F32.sqrt ((z.i.mul z.i).add (z.q.mul z.q)) else F32.max z.i.abs z.q.abs

/-- A one-pole back-average (43_agc.md R205). -/
def backAverage (mult m avg : F32) : F32 := (mult.mul m).add ((F32.one.sub mult).mul avg)

/-- The larger of a running maximum and a magnitude, by the comparison of 43_agc.md R206. -/
def raisePeak (peak m : F32) : F32 := if m.gt peak then m else peak

/-- The magnitudes of the attack window: the `len` slots after `out` (43_agc.md R206). -/
def windowMags (ring : List RingSlot) (size out len : Nat) : List F32 :=
  (List.range len).map fun d => (ringRead ring ((out + (d + 1)) % size)).m

/-- S1 (43_agc.md R203). -/
def agcAdvance (a : AgcState) : AgcState :=
  { a with outIndex := ringNext a.p.ringSize a.outIndex, inIndex := ringNext a.p.ringSize a.inIndex }

/-- The leaving sample of S2, read before the arriving one is written (43_agc.md R204). -/
def agcLeaving (a : AgcState) : RingSlot := ringRead a.ring a.outIndex

/-- The write of S2 (43_agc.md R204). -/
def agcArrive (a : AgcState) (z : Sample) : AgcState :=
  { a with ring := ringWrite a.ring a.inIndex { i := z.i, q := z.q, m := magnitude a.p z } }

/-- S3 (43_agc.md R205). -/
def agcAverages (a : AgcState) (mOut : F32) : AgcState :=
  { a with
    fastBack := backAverage a.p.fastBackmult mOut a.fastBack
    hangBack := backAverage a.p.hangBackmult mOut a.hangBack }

/-- S4 (43_agc.md R206). -/
def agcPeak (a : AgcState) (mOut mIn : F32) : AgcState :=
  let peak :=
    if mOut.ge a.ringMax then (windowMags a.ring a.p.ringSize a.outIndex a.p.attackLen).foldl raisePeak F32.zero
    else a.ringMax
  { a with ringMax := raisePeak peak mIn }

/-- S5 (43_agc.md R207); at zero the counter stays zero. -/
def agcCount (a : AgcState) : AgcState := { a with hangCounter := a.hangCounter - 1 }

/-- The envelope moved toward the peak by `m` (43_agc.md R192). -/
def AgcState.moved (a : AgcState) (m : F32) : AgcState := { a with volts := toward a.volts a.ringMax m }

/-- Return to state 0 with the envelope saved first (43_agc.md R210 to R212). -/
def agcRegrow (a : AgcState) : AgcState :=
  { a with state := .attack, saveVolts := a.volts, volts := toward a.volts a.ringMax a.p.attackMult }

/-- S6: the transition rule of the current state (43_agc.md R208 to R212, R219). -/
def agcTransition (a : AgcState) : AgcState :=
  match a.state with
  | .attack =>
    if a.ringMax.ge a.volts then a.moved a.p.attackMult
    else if a.volts.gt (a.p.popRatio.mul a.fastBack) then { a.moved a.p.fastDecayMult with state := .fastDecay }
    else if a.p.hangEnable && a.hangBack.gt a.p.hangLevel then
      { a with state := .hang, hangCounter := a.p.hangSamples, decayHang := true }
    else { a.moved a.p.decayMult with state := .normalDecay, decayHang := false }
  | .fastDecay =>
    if a.ringMax.ge a.volts then { a.moved a.p.attackMult with state := .attack }
    else if a.volts.gt a.saveVolts then a.moved a.p.fastDecayMult
    else if 0 < a.hangCounter then { a with state := .hang }
    else if a.decayHang then { a.moved a.p.hangDecayMult with state := .hangDecay }
    else { a.moved a.p.decayMult with state := .normalDecay }
  | .hang =>
    if a.ringMax.ge a.volts then agcRegrow a
    else if a.hangCounter = 0 then { a.moved a.p.hangDecayMult with state := .hangDecay }
    else a
  | .normalDecay => if a.ringMax.ge a.volts then agcRegrow a else a.moved a.p.decayMult
  | .hangDecay => if a.ringMax.ge a.volts then agcRegrow a else a.moved a.p.hangDecayMult

/-- S7 (43_agc.md R213). -/
def agcClamp (a : AgcState) : AgcState :=
  { a with volts := clampVolts a.volts a.p.minVolts, agcAction := actionFlag a.volts a.p.minVolts }

/-- S8 (43_agc.md R214). -/
def agcMultiplier (par : Par) (p : AgcParams) (volts : F32) : F32 :=
  (p.target.sub (p.slopeConstant.mul (F32.min F32.zero (par.log10 (volts.div p.maxInput))))).div volts

/-- One sample through S1 to S9 in the order of 43_agc.md R202: the new state and the output sample (S9, R215). -/
def agcSample (par : Par) (a : AgcState) (z : Sample) : AgcState × Sample :=
  let a1 := agcAdvance a
  let out := agcLeaving a1
  let a2 := agcArrive a1 z
  let a3 := agcAverages a2 out.m
  let a4 := agcPeak a3 out.m (magnitude a.p z)
  let a5 := agcCount a4
  let a6 := agcTransition a5
  let a7 := agcClamp a6
  (a7, Sample.scale (agcMultiplier par a7.p a7.volts) { i := out.i, q := out.q })

/-- `AgcActive` over the samples, state carried from sample to sample (43_agc.md R202). -/
def agcLoop (par : Par) : AgcState → List Sample → AgcState × List Sample
  | a, [] => (a, [])
  | a, z :: zs =>
    let r := agcSample par a z
    let t := agcLoop par r.1 zs
    (t.1, r.2 :: t.2)

/-- `AgcOff` on one sample (43_agc.md R201). -/
def agcOff (gain : F32) (z : Sample) : Sample := { i := gain.mul z.i, q := gain.mul z.q }

/-- `AGC` (43_agc.md R200 to R202). -/
def execAgc (s : State) : Result :=
  let s1 := s.markAgc
  if s.cfg.agcMode = 0 then .next (s1.mapSamples (agcOff s.agc.p.fixedGain)).advance
  else
    let r := agcLoop s.par s.agc s.blk.x
    .next ((s1.setSamples r.2).setAgc r.1).advance

end Sys2Proof.Machine
end

