-- ==== Sys2Proof/Machine/Sam.lean ====
section
/-! DEFINITION. The SAM demodulator, a digital phase-locked loop (44_sam_demodulator.md R230 to R252). -/

namespace Sys2Proof.Machine

/-- The four products of P1 (44_sam_demodulator.md R233). -/
structure SamProducts where
  ai : F32
  bi : F32
  aq : F32
  bq : F32
  deriving DecidableEq, Repr

/-- P1 (44_sam_demodulator.md R233). -/
def samRotate (par : Par) (phase : F32) (z : Sample) : SamProducts :=
  { ai := (par.cos phase).mul z.i, bi := (par.sin phase).mul z.i
    aq := (par.cos phase).mul z.q, bq := (par.sin phase).mul z.q }

/-- P2, `corr0` (44_sam_demodulator.md R234). -/
def SamProducts.corr0 (r : SamProducts) : F32 := r.ai.add r.bq

/-- P2, `corr1` (44_sam_demodulator.md R234). -/
def SamProducts.corr1 (r : SamProducts) : F32 := r.aq.sub r.bi

/-- P3 (44_sam_demodulator.md R235). -/
def SamProducts.audio (r : SamProducts) : F32 := (r.ai.sub r.bi).add (r.aq.add r.bq)

/-- A one-pole tracker (44_sam_demodulator.md R236). -/
def tracker (tau t x : F32) : F32 := (tau.mul t).add ((F32.one.sub tau).mul x)

/-- P4, the trackers (44_sam_demodulator.md R236). -/
def samFade (p : SamParams) (m : SamState) (audio corr0 : F32) : SamState :=
  if p.fadeEn then { m with dc := tracker p.mtauR m.dc audio, dcInsert := tracker p.mtauI m.dcInsert corr0 } else m

/-- P4, the audio, after the trackers are updated (44_sam_demodulator.md R236). -/
def samLevelled (p : SamParams) (m : SamState) (audio : F32) : F32 :=
  if p.fadeEn then (audio.sub m.dc).add m.dcInsert else audio

/-- The two clamps of P7 in their order (44_sam_demodulator.md R240). -/
def clampOmega (lim omega : F32) : F32 :=
  let w := if omega.lt lim.neg then lim.neg else omega
  if w.gt lim then lim else w

/-- One sample through P1 to P9 (44_sam_demodulator.md R232 to R242): the new loop state and the audio, or `none` where the
wrap of the phase does not end. -/
def samSample (par : Par) (m : SamState) (z : Sample) : Option (SamState × F32) :=
  let r := samRotate par m.phase z
  let m1 := samFade par.sam m r.audio r.corr0
  let audio := samLevelled par.sam m1 r.audio
  let det := par.atan2a r.corr1 r.corr0
  let omega := clampOmega par.sam.omegaLim (m.omega.add (par.sam.g2.mul det))
  let fil := (par.sam.g1.mul det).add omega
  let inc := if par.samPhaseDelay then m.filPrev else fil
  match wrap2pi (m.phase.add inc) with
  | none => none
  | some phase => some ({ m1 with omega := omega, filPrev := fil, phase := phase }, audio)

/-- The loop of `DEMOD.SAM`; the audio goes to both channels (44_sam_demodulator.md R231, R237). -/
def samLoop (par : Par) : SamState → List Sample → Option (SamState × List Sample)
  | m, [] => some (m, [])
  | m, z :: zs =>
    match samSample par m z with
    | none => none
    | some (m', audio) =>
      match samLoop par m' zs with
      | none => none
      | some (last, ys) => some (last, { i := audio, q := audio } :: ys)

/-- `SamCarrierUpdate` (44_sam_demodulator.md R244, R245). -/
def samCarrier (fs : Nat) (m : SamState) : SamState :=
  let hz := (m.omega.mul (F32.ofNat fs)).div F32.twoPiF
  { m with
    carrierHz := hz
    carrierSmooth := (F32.c095.mul m.carrierSmooth).add (F32.c005.mul hz) }

/-- `SamPrecondCheck`: a wrong block size or rate is logged, once per block, and processing goes on
(44_sam_demodulator.md R247; 60_exceptions.md R305). -/
def samPrecond (s : State) : State :=
  if s.blk.n ≠ s.par.samNReq ∨ s.blk.fs ≠ s.par.samFsReq then s.raise .precondViolation s.blk.n s.blk.fs else s

/-- `DEMOD.SAM` (44_sam_demodulator.md R231). -/
def demodSam (s : State) : Result :=
  match samLoop s.par s.sam s.blk.x with
  | none => .fault .wrapDoesNotEnd
  | some (m, x) => .next (((samPrecond s).setSamples x).setSam (samCarrier s.blk.fs m)).advance

end Sys2Proof.Machine
end

