-- ==== Sys2Proof/Machine/Demod.lean ====
section
/-! DEFINITION. The demodulator dispatch and the modes USB and AM: `DEMOD` (45_demod_dispatch_external.md R260 to R266). -/

namespace Sys2Proof.Machine

/-- `DEMOD.USB` on one sample: Q becomes a copy of I (45_demod_dispatch_external.md R261). -/
def usbSample (z : Sample) : Sample := { i := z.i, q := z.i }

/-- The envelope with a NaN replaced by `+0` (45_demod_dispatch_external.md R263; 60_exceptions.md R302). -/
def amEnvelope (z : Sample) : F32 :=
  let e := F32.sqrt ((z.i.mul z.i).add (z.q.mul z.q))
  if e.isNaN then F32.zero else e

/-- `DEMOD.AM` on one sample (45_demod_dispatch_external.md R263). -/
def amSample (z : Sample) : Sample := { i := amEnvelope z, q := amEnvelope z }

/-- `DEMOD`: dispatch on the latched mode (45_demod_dispatch_external.md R260, R264). -/
def execDemod (s : State) : Result :=
  if s.lat.demodMode = 0#3 then .next (s.mapSamples usbSample).advance
  else if s.lat.demodMode = 1#3 then .next (s.mapSamples amSample).advance
  else if s.lat.demodMode = 2#3 then demodSam s
  else .refused .demodModeUnassigned

end Sys2Proof.Machine
end

