-- ==== Sys2Proof/Machine/External.lean ====
section
/-! DEFINITION. The stages whose values an external collaborator computes: `CONVFILT`, `EQ`, `NR`, `NOTCH`, `CWPROC`
(45_demod_dispatch_external.md R270 to R277) and `TXEQ`, `TXHILB`, `TXSSB` (40_orchestrator_framing.md R153 to R155). -/

namespace Sys2Proof.Machine

/-- Call a collaborator that keeps the length of the block. -/
def State.filter (s : State) (c : ExtCall) : State := s.ask c s.blk.n

/-- `CONVFILT` (45_demod_dispatch_external.md R270). -/
def execConvfilt (s : State) : Result :=
  whenBand (s.lat.bandInRange s.par)
    (.next (s.filter (.convolve s.lat.filtCfg s.lat.activeEntry.filter s.blk)).advance)

/-- `EQ` (45_demod_dispatch_external.md R271). -/
def execEqualizer (s : State) : Result := .next (s.filter (.equalize s.lat.filtCfg s.blk)).advance

/-- The routing of `NR` and the fixed scale of the chosen option (45_demod_dispatch_external.md R272, R273). -/
def nrRoute (s : State) : State :=
  if s.cfg.nrOption = 0#2 then s
  else
    let c : ExtCall :=
      if s.cfg.nrOption = 1#2 then .nrSpectral s.blk
      else if s.cfg.nrOption = 2#2 then .nrLms s.blk
      else .nrKim s.blk
    (s.filter c).mapSamples (Sample.scale (s.par.nrScaleOf s.cfg.nrOption))

/-- `NR` (45_demod_dispatch_external.md R272). -/
def execNr (s : State) : Result := .next (nrRoute s.markNr).advance

/-- `NOTCH` (45_demod_dispatch_external.md R274). -/
def execNotch (s : State) : Result :=
  .next (if s.lat.notchEn then s.filter (.notch s.blk) else s).advance

/-- The narrow-band filter, then the decoder on what it returned (45_demod_dispatch_external.md R275). -/
def cwChain (s : State) : State :=
  let t := s.filter (.cwFilter s.blk)
  t.calls (.cwDecode t.blk)

/-- `CWPROC` (45_demod_dispatch_external.md R275). -/
def execCwproc (s : State) : Result := .next (if s.lat.cwActive then cwChain s else s).advance

/-- `TXEQ` (40_orchestrator_framing.md R153). -/
def execTxeq (s : State) : Result := .next (s.filter (.txEqualize s.lat.filtCfg s.blk)).advance

/-- `TXHILB` (40_orchestrator_framing.md R154). -/
def execTxhilb (s : State) : Result := .next (s.filter (.hilbert s.lat.filtCfg s.blk)).advance

/-- `TXSSB` (40_orchestrator_framing.md R155). -/
def execTxssb (s : State) : Result := .next (s.filter (.ssbSelect s.blk)).advance

end Sys2Proof.Machine
end

