-- ==== Sys2Proof/Machine/Framing.lean ====
section
/-! DEFINITION. Multirate framing, the two volume stages and the analysis hooks: `DECIM`, `INTERP`, `TXDECIM`, `TXINTERP`,
`VOLPRE`, `VOLPOST`, `SPECFULL`, `SPECZOOM` (40_orchestrator_framing.md R138 to R147, R152, R156). -/

namespace Sys2Proof.Machine

/-- Set `BLK.N` and `BLK.FS` together (10_state.md R24). -/
def State.setRate (s : State) (n fs : Nat) : State := s.setBlk { s.blk with n := n, fs := fs }

/-- One decimation stage by `d`: new samples, `N / d` of them, and both fields divided (40_orchestrator_framing.md R141). In a pass the
division leaves no remainder (20_memory.md R90); DESIGN CHOICE (log entry 28): in a stage issued alone, on a block that `d` does not divide, a
remainder is dropped. -/
def State.decimate (s : State) (c : ExtCall) (d : Nat) : State :=
  (s.ask c (s.blk.n / d)).setRate (s.blk.n / d) (s.blk.fs / d)

/-- One interpolation stage by `d` (40_orchestrator_framing.md R145). In a pass the result is within the capacity `PAR.N_NATIVE` of the arrays
(10_state.md R21; 40_orchestrator_framing.md R146); DESIGN CHOICE (log entry 28): a stage issued alone (30_encoding.md R105) may go above it,
and the list of samples grows with it. -/
def State.interpolate (s : State) (c : ExtCall) (d : Nat) : State :=
  (s.ask c (s.blk.n * d)).setRate (s.blk.n * d) (s.blk.fs * d)

/-- Decimation by each factor in order; `j` is the index of the stage (40_orchestrator_framing.md R141, R152). -/
def decimStages (call : Nat → SampleBlock → ExtCall) : Nat → List Nat → State → State
  | _, [], s => s
  | j, d :: ds, s => decimStages call (j + 1) ds (s.decimate (call j s.blk) d)

/-- Interpolation by each factor in reverse order (40_orchestrator_framing.md R145, R156). -/
def interpStages (call : Nat → SampleBlock → ExtCall) : Nat → List Nat → State → State
  | _, [], s => s
  | j, d :: ds, s =>
    let t := interpStages call (j + 1) ds s
    t.interpolate (call j t.blk) d

/-- `DECIM` (40_orchestrator_framing.md R141). -/
def execDecim (s : State) : Result := .next (decimStages (.decimate s.lat.filtCfg) 0 s.par.dfList s).advance

/-- `INTERP` (40_orchestrator_framing.md R145). -/
def execInterp (s : State) : Result := .next (interpStages (.interpolate s.lat.filtCfg) 0 s.par.dfList s).advance

/-- `TXDECIM` (40_orchestrator_framing.md R152). -/
def execTxdecim (s : State) : Result := .next (decimStages (.txDecimate s.lat.filtCfg) 0 s.par.txDfList s).advance

/-- `TXINTERP` (40_orchestrator_framing.md R156). -/
def execTxinterp (s : State) : Result := .next (interpStages (.txInterpolate s.lat.filtCfg) 0 s.par.txDfList s).advance

/-- `VOLPRE` (40_orchestrator_framing.md R143). -/
def execVolpre (s : State) : Result := .next (s.mapSamples (Sample.scale s.lat.volPre)).advance

/-- `VOLPOST` (40_orchestrator_framing.md R147). -/
def execVolpost (s : State) : Result := .next (s.mapSamples (Sample.scale s.lat.volPost)).advance

/-- `SPECFULL`: the hook looks at the block where it is enabled (40_orchestrator_framing.md R138). -/
def execSpecfull (s : State) : Result :=
  .next (if s.lat.specFullEn then s.calls (.spectrumFull s.blk) else s).advance

/-- `SPECZOOM` (40_orchestrator_framing.md R139). -/
def execSpeczoom (s : State) : Result :=
  .next (if s.lat.specZoomEn then s.calls (.spectrumZoom s.blk) else s).advance

end Sys2Proof.Machine
end

