-- ==== Sys2Proof/Machine/GainIq.lean ====
section
/-! DEFINITION. RF gain and IQ correction: `RFGAIN`, `IQCORR` (41_gain_iq_correction.md R170 to R176). -/

namespace Sys2Proof.Machine

/-- The combined linear gain of two dB operands: two conversions and one product (41_gain_iq_correction.md R171). -/
def combinedGain (par : Par) (allBandsDb bandDb : F32) : F32 :=
  (par.pow10 (allBandsDb.div F32.twenty)).mul (par.pow10 (bandDb.div F32.twenty))

/-- `RFGAIN` (41_gain_iq_correction.md R171). -/
def execRfgain (s : State) : Result :=
  whenBand (s.lat.bandInRange s.par)
    (.next (s.mapSamples (Sample.scale (combinedGain s.par s.lat.rfGainAllBandsDb s.lat.activeEntry.rfGainDb))).advance)

/-- The correction of one sample: I is scaled first; then I, as scaled, is mixed into Q where the phase factor is below zero, Q
into I otherwise (41_gain_iq_correction.md R173, R175). -/
def iqCorrect (amp phase : F32) (z : Sample) : Sample :=
  let i := z.i.mul amp
  if phase.lt F32.zero then { i := i, q := z.q.add (phase.mul i) }
  else { i := i.add (phase.mul z.q), q := z.q }

/-- `IQCORR` (41_gain_iq_correction.md R173, R176). -/
def execIqcorr (s : State) : Result :=
  whenBand (s.lat.bandInRange s.par)
    (.next ((s.markIqc s.lat.activeBand).mapSamples
      (iqCorrect (s.cfg.iqPair s.lat.activeBand).amp (s.cfg.iqPair s.lat.activeBand).phase)).advance)

end Sys2Proof.Machine
end

