-- ==== Sys2Proof/Machine/HostOps.lean ====
section
/-! DEFINITION. The host operations: `TICK` (40_orchestrator_framing.md R130), `RX_PASS`, `TX_PASS`, the setters, the read accessors
and `BULK_CLEAR` (46_host_operations.md R280 to R291). An invalid operand makes a setter a no-op, never a fault
(60_exceptions.md R303). -/

namespace Sys2Proof.Machine

/-- `TICK`: the three-way dispatch, the value 3 read as no-op; it returns nothing, nor does the pass it begins
(40_orchestrator_framing.md R130; 30_encoding.md R110, R117; 46_host_operations.md R290). -/
def execTick (s : State) : Result :=
  whenIdle s
    (if s.inp.dispatchSel = 1#2 then startRx false s
     else if s.inp.dispatchSel = 2#2 then startTx false s
     else .next s)

/-- `RX_PASS` (46_host_operations.md R281). -/
def execRxPass (s : State) : Result := whenIdle s (startRx true s)

/-- `TX_PASS` (46_host_operations.md R282). -/
def execTxPass (s : State) : Result := whenIdle s (startTx true s)

/-- The profile `CFG_AGC` loads: the band entry is read from `IN` at the time of the call (46_host_operations.md R283). -/
def loadedProfile (s : State) (mode fs : Nat) : AgcParams := s.par.agcProfile mode fs s.inp.ports.activeEntry

/-- The effect of an accepted `CFG_AGC` (46_host_operations.md R283; 10_state.md R47). -/
def acceptAgc (s : State) (mode fs : Nat) : State :=
  (s.setCfg { s.cfg with agcMode := mode, agcFs := fs, agcWritten := true }).setAgc
    (agcReset mode (loadedProfile s mode fs))

/-- `CFG_AGC mode, fs` (46_host_operations.md R283); a profile of an active mode that breaks 10_state.md R42 is refused. -/
def execCfgAgc (mode fs : Nat) (s : State) : Result :=
  whenIdle s
    (if s.par.agcModeMax < mode ∨ fs = 0 then .next s
     else whenBand (s.inp.ports.bandInRange s.par)
       (if mode = 0 ∨ (loadedProfile s mode fs).wf fs = true then .next (acceptAgc s mode fs)
        else .refused .agcProfileIllFormed))

/-- `CFG_NR option` (46_host_operations.md R284). -/
def execCfgNr (option : Nat) (s : State) : Result :=
  whenIdle s
    (if 3 < option then .next s
     else .next (s.setCfg { s.cfg with nrOption := BitVec.ofNat 2 option, nrWritten := true }))

/-- `SET_IQC band, amp, phase` (46_host_operations.md R285). -/
def execSetIqc (band : Nat) (amp phase : F32) (s : State) : Result :=
  whenIdle s
    (if s.par.numBands ≤ band then .next s else .next (s.setCfg (s.cfg.setIqPair band amp phase)))

/-- `RD_AGCACT` (46_host_operations.md R286). -/
def execRdAgcact (s : State) : Result := whenIdle s (.next (s.markAgc.returns (.bit s.agc.agcAction)))

/-- `RD_SAMOFS` (46_host_operations.md R287). -/
def execRdSamofs (s : State) : Result := whenIdle s (.next (s.returns (.real s.sam.carrierSmooth)))

/-- `RD_IQC band` (46_host_operations.md R288). -/
def execRdIqc (band : Nat) (s : State) : Result :=
  whenIdle s
    (if s.par.numBands ≤ band then .next (s.returns .nothing)
     else .next ((s.markIqc band).returns (.pair (s.cfg.iqPair band).amp (s.cfg.iqPair band).phase)))

/-- `BULK_CLEAR mask`: bit 0 empties `CAPQ`, bit 1 `PLAYQ` (46_host_operations.md R289; 30_encoding.md R115). -/
def execBulkClear (mask : Nat) (s : State) : Result :=
  whenIdle s
    (if 3 < mask then .next s
     else .next (s.setQueues
       { s.queues with
         capq := if mask.testBit 0 then [] else s.queues.capq
         playq := if mask.testBit 1 then [] else s.queues.playq }))

end Sys2Proof.Machine
end

