-- ==== Sys2Proof/Machine/Translate.lean ====
section
/-! DEFINITION. Frequency translation: `QSHIFT`, `FSHIFT` (42_frequency_translation.md R180 to R186). -/

namespace Sys2Proof.Machine

/-- Sample `k` times `1`, `-j`, `-1`, `+j` for `k mod 4` = 0, 1, 2, 3 (42_frequency_translation.md R181; 90_conflicts.md
C2). -/
def quarterTurn (k : Nat) (z : Sample) : Sample :=
  match k % 4 with
  | 0 => z
  | 1 => { i := z.q, q := z.i.neg }
  | 2 => { i := z.i.neg, q := z.q.neg }
  | _ => { i := z.q.neg, q := z.i }

/-- `QSHIFT` (42_frequency_translation.md R181). -/
def execQshift (s : State) : Result := .next (s.setSamples (s.blk.x.mapIdx quarterTurn)).advance

/-- `dtheta` of 42_frequency_translation.md R184. -/
def phaseStep (f : F32) (fs : Nat) : F32 := (F32.twoPiF.mul f).div (F32.ofNat fs)

/-- One sample times `e^(+j theta)` (42_frequency_translation.md R184). -/
def rotate (par : Par) (theta : F32) (z : Sample) : Sample :=
  { i := (z.i.mul (par.cos theta)).sub (z.q.mul (par.sin theta))
    q := (z.i.mul (par.sin theta)).add (z.q.mul (par.cos theta)) }

/-- The loop of `FSHIFT` over the samples, carrying the oscillator phase; `none` where a wrap does not end
(42_frequency_translation.md R184, R186). -/
def fshiftLoop (par : Par) (dtheta : F32) : F32 → List Sample → Option (List Sample × F32)
  | theta, [] => some ([], theta)
  | theta, z :: zs =>
    match wrap2pi (theta.add dtheta) with
    | none => none
    | some theta' =>
      match fshiftLoop par dtheta theta' zs with
      | none => none
      | some (ys, last) => some (rotate par theta z :: ys, last)

/-- `FSHIFT` (42_frequency_translation.md R184; stuck where the wrap does not end, R186). -/
def execFshift (s : State) : Result :=
  match fshiftLoop s.par (phaseStep s.lat.fineFreqHz s.blk.fs) s.nco s.blk.x with
  | none => .fault .wrapDoesNotEnd
  | some (x, theta) => .next ((s.setSamples x).setNco theta).advance

end Sys2Proof.Machine
end

