-- ==== Sys2Proof/Machine/Dispatch.lean ====
section
/-! DEFINITION. Which meaning each operation has: one arm per constructor of `Instr`. -/

namespace Sys2Proof.Machine

def exec (i : Instr) (s : State) : Host.Outcome State Fault Refusal :=
  match i with
  | .pull => Sys2Proof.Machine.execPull s
  | .rfgain => Sys2Proof.Machine.execRfgain s
  | .iqcorr => Sys2Proof.Machine.execIqcorr s
  | .specfull => Sys2Proof.Machine.execSpecfull s
  | .qshift => Sys2Proof.Machine.execQshift s
  | .speczoom => Sys2Proof.Machine.execSpeczoom s
  | .fshift => Sys2Proof.Machine.execFshift s
  | .decim => Sys2Proof.Machine.execDecim s
  | .volpre => Sys2Proof.Machine.execVolpre s
  | .convfilt => Sys2Proof.Machine.execConvfilt s
  | .agc => Sys2Proof.Machine.execAgc s
  | .demod => Sys2Proof.Machine.execDemod s
  | .equalizer => Sys2Proof.Machine.execEqualizer s
  | .nr => Sys2Proof.Machine.execNr s
  | .notch => Sys2Proof.Machine.execNotch s
  | .cwproc => Sys2Proof.Machine.execCwproc s
  | .interp => Sys2Proof.Machine.execInterp s
  | .volpost => Sys2Proof.Machine.execVolpost s
  | .push => Sys2Proof.Machine.execPush s
  | .txpull => Sys2Proof.Machine.execTxpull s
  | .txdecim => Sys2Proof.Machine.execTxdecim s
  | .txeq => Sys2Proof.Machine.execTxeq s
  | .txhilb => Sys2Proof.Machine.execTxhilb s
  | .txssb => Sys2Proof.Machine.execTxssb s
  | .txinterp => Sys2Proof.Machine.execTxinterp s
  | .txpush => Sys2Proof.Machine.execTxpush s
  | .tick => Sys2Proof.Machine.execTick s
  | .rxPass => Sys2Proof.Machine.execRxPass s
  | .txPass => Sys2Proof.Machine.execTxPass s
  | .cfgAgc mode fs => Sys2Proof.Machine.execCfgAgc mode fs s
  | .cfgNr option => Sys2Proof.Machine.execCfgNr option s
  | .setIqc band amp phase => Sys2Proof.Machine.execSetIqc band amp phase s
  | .rdAgcact => Sys2Proof.Machine.execRdAgcact s
  | .rdSamofs => Sys2Proof.Machine.execRdSamofs s
  | .rdIqc band => Sys2Proof.Machine.execRdIqc band s
  | .bulkClear mask => Sys2Proof.Machine.execBulkClear mask s

end Sys2Proof.Machine
end

