-- ==== Sys2Proof/Machine/Issue.lean ====
section
/-! DEFINITION. How the block comes to its next operation: the sequencer walks the fixed stage lists (40_orchestrator_framing.md
R132 to R134, R150; 10_state.md R25); while it is idle the host's command words are taken in order (30_encoding.md R103, R105,
R106). -/

namespace Sys2Proof.Machine

/-- The receive stage order: the stage at index `SP` (40_orchestrator_framing.md R133). -/
def rxStages : List Instr :=
  [.pull, .rfgain, .iqcorr, .specfull, .qshift, .speczoom, .fshift, .decim, .volpre, .convfilt, .agc, .demod, .equalizer,
   .nr, .notch, .cwproc, .interp, .volpost, .push]

/-- The transmit stage order (40_orchestrator_framing.md R150). -/
def txStages : List Instr := [.txpull, .txdecim, .txeq, .txhilb, .txssb, .txinterp, .txpush]

/-- The stage a pass has at an index. -/
def stageAt : Pass → Nat → Option Instr
  | .idle, _ => none
  | .rx, k => rxStages[k]?
  | .tx, k => txStages[k]?

/-- Where a stage operation stands in its pass; `none` for a host operation (40_orchestrator_framing.md R133, R150). -/
def stagePosition : Instr → Option (Pass × Nat)
  | .pull => some (.rx, 0)
  | .rfgain => some (.rx, 1)
  | .iqcorr => some (.rx, 2)
  | .specfull => some (.rx, 3)
  | .qshift => some (.rx, 4)
  | .speczoom => some (.rx, 5)
  | .fshift => some (.rx, 6)
  | .decim => some (.rx, 7)
  | .volpre => some (.rx, 8)
  | .convfilt => some (.rx, 9)
  | .agc => some (.rx, 10)
  | .demod => some (.rx, 11)
  | .equalizer => some (.rx, 12)
  | .nr => some (.rx, 13)
  | .notch => some (.rx, 14)
  | .cwproc => some (.rx, 15)
  | .interp => some (.rx, 16)
  | .volpost => some (.rx, 17)
  | .push => some (.rx, 18)
  | .txpull => some (.tx, 0)
  | .txdecim => some (.tx, 1)
  | .txeq => some (.tx, 2)
  | .txhilb => some (.tx, 3)
  | .txssb => some (.tx, 4)
  | .txinterp => some (.tx, 5)
  | .txpush => some (.tx, 6)
  | .tick | .rxPass | .txPass | .cfgAgc _ _ | .cfgNr _ | .setIqc _ _ _ | .rdAgcact | .rdSamofs | .rdIqc _
  | .bulkClear _ => none

/-- Act on the next state, if there is one. -/
def onNext (f : State → State) : Result → Result
  | .next s => .next (f s)
  | .fault r => .fault r
  | .refused r => .refused r

/-- A pass that its last stage ended returns `Some(&BLK)` to the host that awaits it: where `RX_PASS` or `TX_PASS` began the pass
(46_host_operations.md R281, R282, R290; 30_encoding.md R117). -/
def State.passEnd (s : State) : State :=
  if s.seq.pass = .idle ∧ s.host.awaited = true then s.setHost { s.host with result := .passSome, awaited := false } else s

/-- Put the sequencer at a stage (30_encoding.md R105: the harness sets `SEQ.SP` to the index of the stage). -/
def State.atStage (s : State) (p : Pass) (k : Nat) : State := s.setSeq { s.seq with pass := p, sp := k }

/-- The sequencer's step: the stage operation at `SEQ.SP` of the running pass. -/
def seqStep (s : State) : Result :=
  match stageAt s.seq.pass s.seq.sp with
  | some i => onNext State.passEnd (exec i s)
  | none => .fault .stagePointerOutOfList

/-- Take `n` command words. -/
def State.consume (s : State) (n : Nat) : State := s.setHost { s.host with cmd := s.host.cmd.drop n }

/-- Run an issued operation. A host operation is its meaning. A stage operation is run by itself, as 30_encoding.md R105 has a
model do for testing: with the sequencer at that stage, and idle again afterwards (log entry 6). -/
def issue (i : Instr) (s : State) : Result :=
  match stagePosition i with
  | none => exec i s
  | some (p, k) => onNext State.endPass (exec i (s.atStage p k))

/-- The step of the idle block: the next command, a reserved word as a no-op one word long (30_encoding.md R106), or nothing
while no whole command has arrived (70_reset_and_hazards.md R331). -/
def hostStep (s : State) : Result :=
  match decode s.host.cmd with
  | .op i n => issue i (s.consume n)
  | .reserved _ => .next (s.consume 1)
  | .needMore => .next s

/-- One step of the block itself. -/
def coreStep (s : State) : Result := if s.seq.pass = .idle then hostStep s else seqStep s

/-- The state with the command words `ws` as all the host has issued and the block ready to take them. -/
def State.withCommand (s : State) (ws : List Word) : State :=
  ((s.setHost { s.host with cmd := ws }).setSched []).endPass

end Sys2Proof.Machine
end

