-- ==== Sys2Proof/Machine/Step.lean ====
section
/-! DEFINITION. One step of the machine: the next move of the schedule, the block's own where nothing is scheduled. A `PAR` that is not
well formed is refused (00_scope.md R10). -/

namespace Sys2Proof.Machine

/-- One step (20_memory.md R74, R81, R84; 00_scope.md R10). -/
def step (s : State) : Host.Outcome State Fault Refusal :=
  if s.par.wf then
    match s.sched with
    | [] => coreStep s
    | .run :: rest => coreStep (s.setSched rest)
    | m :: rest => agentMove m (s.setSched rest)
  else .refused .parIllFormed

/-- `s` with the instruction of the `nbits` bits `w` as the command the next step takes. -/
def State.withFetchWord (s : State) (nbits w : Nat) : State := s.withCommand (tableWords nbits w)

end Sys2Proof.Machine
end

