-- ==== Sys2Proof/Safety.lean ====
section
/-! DEFINITION. What claims call a good state: the invariant every step keeps, the phase range, the ports and configuration a host must
supply before a receive pass has a meaning (70_reset_and_hazards.md R332), and a run that has used no unwritten value. -/

namespace Sys2Proof.Machine

/-- The stage pointer agrees with the pass (10_state.md R25: 0 while idle, at most 18 receiving, at most 6 transmitting; a pass under way
has done its pull). -/
def Seq.Legal (q : Seq) : Prop :=
  match q.pass with
  | .idle => q.sp = 0
  | .rx => 1 ≤ q.sp ∧ q.sp ≤ 18
  | .tx => 1 ≤ q.sp ∧ q.sp ≤ 6

/-- The block is at its native length and rate (40_orchestrator_framing.md R146). -/
def State.AtNativeRate (s : State) : Prop := s.blk.n = s.par.nNative ∧ s.blk.fs = s.par.fsNative

/-- The block is at the length and rate the factors `ds` divide the native ones to (40_orchestrator_framing.md R142). -/
def State.AtRateBelow (s : State) (ds : List Nat) : Prop :=
  s.blk.n * factorProduct ds = s.par.nNative ∧ s.blk.fs * factorProduct ds = s.par.fsNative

/-- Where in a pass the block is decimated (40_orchestrator_framing.md R142, R146, R152, R156). -/
def State.RateLegal (s : State) : Prop :=
  match s.seq.pass with
  | .idle => True
  | .rx => if 8 ≤ s.seq.sp ∧ s.seq.sp ≤ 16 then s.AtRateBelow s.par.dfList else s.AtNativeRate
  | .tx => if 2 ≤ s.seq.sp ∧ s.seq.sp ≤ 5 then s.AtRateBelow s.par.txDfList else s.AtNativeRate

/-- AgcState under an active mode: the profile meets 10_state.md R42 at the configured rate, the ring has its size, the indices keep
their range and distance (R44), the envelope is not below its floor (R45). -/
structure AgcState.Legal (a : AgcState) (fs : Nat) : Prop where
  profile : a.p.wf fs = true
  ringLength : a.ring.length = a.p.ringSize
  outInRange : a.outIndex < a.p.ringSize
  distance : a.inIndex = (a.outIndex + a.p.attackLen) % a.p.ringSize
  floor : a.volts.lt a.p.minVolts = false

/-- The invariant of the machine: it holds at reset and every step keeps it. -/
structure State.Inv (s : State) : Prop where
  /-- 10_state.md R25. -/
  pointer : s.seq.Legal
  /-- A pass under way works on a valid block (10_state.md R21). -/
  valid : s.seq.pass ≠ .idle → s.blk.valid = true
  /-- 10_state.md R22. -/
  blockLength : s.blk.x.length = s.blk.n
  /-- 40_orchestrator_framing.md R142, R146. -/
  rate : s.RateLegal
  /-- 20_memory.md R77. -/
  captureCap : s.queues.capq.length ≤ s.par.queueCap
  /-- 20_memory.md R77. -/
  txsrcCap : s.queues.txsrc.length ≤ s.par.queueCap
  /-- One correction pair per band (10_state.md R32). -/
  iqBands : s.cfg.iq.length = s.par.numBands
  /-- 10_state.md R32; 30_encoding.md R114. -/
  agcModeLegal : s.cfg.agcMode ≤ s.par.agcModeMax
  /-- 10_state.md R42, R44, R45. -/
  agcLegal : s.cfg.agcMode ≠ 0 → s.agc.Legal s.cfg.agcFs
  /-- 44_sam_demodulator.md R240: the frequency accumulator is not outside its bounds (a NaN is neither below nor above). -/
  omegaBound : s.sam.omega.lt s.par.sam.omegaLim.neg = false ∧ s.sam.omega.gt s.par.sam.omegaLim = false
  /-- A result is awaited only while a pass runs (46_host_operations.md R281, R282; log entry 21). -/
  awaited : s.host.awaited = true → s.seq.pass ≠ .idle

/-- A phase as `WRAP2PI` leaves it: not below zero and not above `TWO_PI_F`; a NaN is neither (10_state.md R53; 90_conflicts.md C4). -/
def PhaseLegal (x : F32) : Prop := x.lt F32.zero = false ∧ x.gt F32.twoPiF = false

/-- Both phases of the block are in range (10_state.md R53, R56; 44_sam_demodulator.md R248). -/
def State.PhasesLegal (s : State) : Prop := PhaseLegal s.sam.phase ∧ PhaseLegal s.nco

/-- Ports at legal values (10_state.md R29; 70_reset_and_hazards.md R332, item 4): an existing band, an assigned demodulation mode, a
finite fine-tune offset below the native rate in magnitude (R332 bounds it by `PAR.FS_NATIVE`; R29 and 42_frequency_translation.md R186 by
`BLK.FS`, which is the native rate where `FSHIFT` stands, 40_orchestrator_framing.md R146). Every other port is legal at any value. -/
def Ports.Legal (p : Ports) (par : Par) : Prop :=
  p.activeBand < par.numBands ∧ p.demodMode.toNat ≤ 2 ∧ p.fineFreqHz.magnitudeBelow par.fsNative = true

/-- The setters a receive pass needs have been accepted (70_reset_and_hazards.md R332, items 1 to 3). -/
def Cfg.Configured (c : Cfg) (band : Nat) : Prop :=
  c.agcWritten = true ∧ c.nrWritten = true ∧ (c.iqPair band).written = true

/-- No unwritten value has been used (10_state.md R33): the run carries claims. -/
def State.Unmarked (s : State) : Prop := s.marks = []

/-- `k` steps of the machine, stopping at the first fault or refusal. -/
def runSteps : Nat → State → Result
  | 0, s => .next s
  | k + 1, s =>
    match step s with
    | .next t => runSteps k t
    | .fault r => .fault r
    | .refused r => .refused r

/-- The block is idle, nothing outside is scheduled, its parameters are well formed, and `ws` are the command words the host has issued. -/
structure State.Listening (s : State) (ws : List Word) : Prop where
  parameters : s.par.wf = true
  unscheduled : s.sched = []
  idle : s.seq.pass = .idle
  commands : s.host.cmd = ws

end Sys2Proof.Machine
end

