-- ==== Sys2Proof/Certificates/Slice0/Obligations.lean ====
section
/-! DEFINITION. What the provers are asked to settle about this machine, each a closed proposition. A docstring names the rule of the spec a
statement formalises; where a statement rests on a choice of the model it names the log entry. -/

open Sys2Proof Sys2Proof.Machine

/-! ### Encoding (30_encoding.md) -/

/-- A few words written out from the table of 30_encoding.md R104 decode to the operations they stand for, and three reserved words do not. -/
def Obligations.DecodeWrittenWords : Prop :=
  decode [0x01000000#32] = .op .pull 1 ∧
  decode [0x0B000000#32] = .op .agc 1 ∧
  decode [0x27000000#32] = .op .txpush 1 ∧
  decode [0x41000000#32] = .op .rxPass 1 ∧
  decode [0x48020000#32, 0x00005DC0#32] = .op (.cfgAgc 2 24000) 2 ∧
  decode [0x4A030000#32, 0x3F000000#32, 0xBE800000#32] =
    .op (.setIqc 3 (F32.ofBits 0x3F000000#32) (F32.ofBits 0xBE800000#32)) 3 ∧
  decode [0x60030000#32] = .op (.bulkClear 3) 1 ∧
  decode [0x14000000#32] = .reserved .unassignedOp ∧
  decode [0x01000001#32] = .reserved .zeroField ∧
  decode [0x01010000#32] = .reserved .argField

/-- Decoding the words of a well-formed operation, whatever words follow, gives that operation and its own length
(30_encoding.md R101 to R104). -/
def Obligations.DecodeOfEncode : Prop :=
  ∀ (i : Instr) (rest : List Word), i.wf = true → decode (encode i ++ rest) = .op i (encode i).length

/-- Words that decode to an operation are the words of that operation: no bit of an encoding is dropped, and no two encodings mean the
same operation (30_encoding.md R101 to R104). -/
def Obligations.EncodeOfDecode : Prop :=
  ∀ (ws : List Word) (i : Instr) (n : Nat), decode ws = .op i n → i.wf = true ∧ encode i = ws.take n ∧ (encode i).length = n

/-- 30_encoding.md R106: a word with an unassigned `op`, a non-zero `zero` field, or a stage word with a non-zero `arg` is one word long and
does nothing. -/
def Obligations.ReservedWordsDoNothing : Prop :=
  ∀ (s : State) (w : Word) (rest : List Word), s.Listening (w :: rest) →
    (let op := w.toNat / 2 ^ 24
     op = 0x00 ∨ (0x14 ≤ op ∧ op ≤ 0x20) ∨ (0x28 ≤ op ∧ op ≤ 0x3F) ∨ (0x43 ≤ op ∧ op ≤ 0x47) ∨ (0x4B ≤ op ∧ op ≤ 0x4F) ∨
       (0x53 ≤ op ∧ op ≤ 0x5F) ∨ 0x61 ≤ op ∨ w.toNat % 2 ^ 16 ≠ 0 ∨ (op ≤ 0x27 ∧ w.toNat / 2 ^ 16 % 2 ^ 8 ≠ 0)) →
    (∃ why, decode (w :: rest) = .reserved why) ∧ step s = .next { s with host := { s.host with cmd := rest } }

/-- 30_encoding.md R107: an illegal operand value makes the operation a no-op (`RD_IQC` returns nothing). -/
def Obligations.IllegalOperandsAreNoOps : Prop :=
  ∀ s : State, s.seq.pass = .idle →
    (∀ mode fs, s.par.agcModeMax < mode ∨ fs = 0 → exec (.cfgAgc mode fs) s = .next s) ∧
    (∀ option, 3 < option → exec (.cfgNr option) s = .next s) ∧
    (∀ band amp phase, s.par.numBands ≤ band → exec (.setIqc band amp phase) s = .next s) ∧
    (∀ band, s.par.numBands ≤ band → exec (.rdIqc band) s = .next { s with host := { s.host with result := .nothing } }) ∧
    (∀ mask, 3 < mask → exec (.bulkClear mask) s = .next s)

/-! ### The step -/

/-- A step of the idle block runs the operation its command words decode to: a host operation as its meaning; a stage operation with the
sequencer placed at that stage and idle again afterwards, the test port of 30_encoding.md R105 (log entry 6). -/
def Obligations.StepRunsIssuedCommand : Prop :=
  ∀ (s : State) (i : Instr) (n : Nat) (rest : List Move), s.par.wf = true → s.seq.pass = .idle →
    ((s.sched = [] ∧ rest = []) ∨ s.sched = .run :: rest) → decode s.host.cmd = .op i n →
    (stagePosition i = none →
      step s = exec i { s with sched := rest, host := { s.host with cmd := s.host.cmd.drop n } }) ∧
    (∀ p k, stagePosition i = some (p, k) →
      step s =
        match exec i { s with sched := rest, host := { s.host with cmd := s.host.cmd.drop n }
                              seq := { s.seq with pass := p, sp := k } } with
        | .next t => .next { t with seq := { t.seq with pass := .idle, sp := 0 } }
        | .fault r => .fault r
        | .refused r => .refused r)

/-- A step during a pass runs the stage the stage pointer names, and a pass its last stage ends returns `Some(&BLK)` where `RX_PASS` or
`TX_PASS` began it, and nothing where `TICK` did (40_orchestrator_framing.md R133, R150; 46_host_operations.md R281, R282, R290;
`host.awaited` is the model's, log entry 21). -/
def Obligations.StepRunsStageOfPass : Prop :=
  ∀ (s : State) (i : Instr) (rest : List Move), s.par.wf = true → stageAt s.seq.pass s.seq.sp = some i →
    ((s.sched = [] ∧ rest = []) ∨ s.sched = .run :: rest) →
    step s =
      match exec i { s with sched := rest } with
      | .next t =>
        .next
          (if t.seq.pass = .idle ∧ t.host.awaited = true then
            { t with host := { t.host with result := .passSome, awaited := false } }
          else t)
      | .fault r => .fault r
      | .refused r => .refused r

/-- The stage lists are the fixed orders of 40_orchestrator_framing.md R133 and R150, and a completed stage moves the stage pointer by one,
the last one of a pass to zero with the pass over (10_state.md R25; R135). -/
def Obligations.FixedStageOrder : Prop :=
  ((List.range 20).map (stageAt .rx) =
    [some .pull, some .rfgain, some .iqcorr, some .specfull, some .qshift, some .speczoom, some .fshift, some .decim, some .volpre,
      some .convfilt, some .agc, some .demod, some .equalizer, some .nr, some .notch, some .cwproc, some .interp, some .volpost,
      some .push, none]) ∧
  ((List.range 8).map (stageAt .tx) =
    [some .txpull, some .txdecim, some .txeq, some .txhilb, some .txssb, some .txinterp, some .txpush, none]) ∧
  (∀ (i : Instr) (p : Pass) (k : Nat), stagePosition i = some (p, k) ↔ (p ≠ .idle ∧ stageAt p k = some i)) ∧
  (∀ (i : Instr) (p : Pass) (k : Nat) (s t : State), stagePosition i = some (p, k) → exec i s = .next t →
    (i = .push ∨ i = .txpush → t.seq = { s.seq with pass := .idle, sp := 0 }) ∧
    (k ≠ 0 ∧ i ≠ .push ∧ i ≠ .txpush → t.seq = { s.seq with sp := s.seq.sp + 1 }))

/-- A whole transmit pass, begun by `TX_PASS` or by `TICK` under selection 2: with a block in the transmit source it always completes, in seven
steps, and appends one block to the transmit sink; without one it is skipped; `TX_PASS` returns its result, `TICK` nothing
(30_encoding.md R117; 40_orchestrator_framing.md R130, R132, R150, R158; 46_host_operations.md R282, R290). -/
def Obligations.TransmitPassCompletes : Prop :=
  ∀ (s : State) (w : Word) (rest : List Word), s.Listening (w :: rest) →
    w = 0x42000000#32 ∨ (w = 0x40000000#32 ∧ s.inp.dispatchSel = 2#2) →
    let returned : HostResult → HostResult := fun r => if w = 0x42000000#32 then r else s.host.result
    (s.par.nNative ≤ s.queues.txsrc.length →
      ∃ (x : List Sample) (e : ExtPort), x.length = s.par.nNative ∧
        runSteps 7 s = .next
          { s with
            blk := { x := x, n := s.par.nNative, fs := s.par.fsNative, valid := true }
            seq := { s.seq with pass := .idle, sp := 0 }
            lat := s.inp.ports
            queues :=
              { s.queues with
                txsrc := s.queues.txsrc.drop s.par.nNative
                txsink := s.queues.txsink ++ x.map fun z => { i := z.i.toI16, q := z.q.toI16 } }
            ext := e
            host := { cmd := rest, result := returned .passSome, awaited := false } }) ∧
    (s.queues.txsrc.length < s.par.nNative →
      step s = .next { s with host := { s.host with cmd := rest, result := returned .passNone } })

/-- A whole receive pass on an existing band in an assigned mode, begun by `RX_PASS` or by `TICK` under selection 1, completes in nineteen
steps, with one block more in the playback queue and the block back at the native length and rate, or the wrap of a phase never ends: it stops
for no other reason. In USB or AM, with an oscillator phase in range, it completes where every port is legal (the fine-tune offset below the
native rate, a rate that binary32 holds exactly) or there is no offset. `RX_PASS` returns its result, `TICK` nothing. Where the setters have
been accepted the pass is unmarked; where they have not, 70_reset_and_hazards.md R333 has the stage refused, and that the pass completes on
the values of reset is the model's (log entry 8) (10_state.md R29; 40_orchestrator_framing.md R130, R132, R146; 46_host_operations.md R281,
R290; 42_frequency_translation.md R186; 70_reset_and_hazards.md R332, R347). -/
def Obligations.ReceivePassCompletesOrHangs : Prop :=
  ∀ (s : State) (w : Word) (rest : List Word), s.Listening (w :: rest) →
    w = 0x41000000#32 ∨ (w = 0x40000000#32 ∧ s.inp.dispatchSel = 1#2) → s.par.nNative ≤ s.queues.capq.length →
    s.inp.ports.activeBand < s.par.numBands → s.inp.ports.demodMode.toNat ≤ 2 →
    let returned : HostResult := if w = 0x41000000#32 then .passSome else s.host.result
    let Completes : Prop :=
      ∃ (t : State) (x : List Sample), runSteps 19 s = .next t ∧ x.length = s.par.nNative ∧
        t.blk = { x := x, n := s.par.nNative, fs := s.par.fsNative, valid := true } ∧
        t.seq = { sp := 0, pass := .idle, lastDemod := some s.inp.ports.demodMode } ∧
        t.queues =
          { s.queues with
            capq := s.queues.capq.drop s.par.nNative
            playq := s.queues.playq ++ x.map fun z => { i := z.i.toI16, q := z.q.toI16 } } ∧
        t.host = { cmd := rest, result := returned, awaited := false } ∧ t.lat = s.inp.ports ∧ t.inp = s.inp ∧ t.cfg = s.cfg ∧
        t.par = s.par ∧ t.sched = [] ∧ s.diag <+: t.diag ∧
        (s.cfg.Configured s.inp.ports.activeBand → t.marks = s.marks)
    (runSteps 19 s = .fault .wrapDoesNotEnd ∨ Completes) ∧
    (s.inp.ports.demodMode.toNat ≤ 1 → PhaseLegal s.nco →
      s.inp.ports.fineFreqHz.isZero = true ∨ (s.inp.ports.Legal s.par ∧ s.par.fsNative ≤ 16777216) → Completes)

/-- With fewer than a block's pairs buffered `PULL` and `TXPULL` change nothing, `RX_PASS` and `TX_PASS` return `None`, and `TICK` under the
selection of that direction does nothing at all (40_orchestrator_framing.md R130, R137, R151; 46_host_operations.md R281, R282, R290;
60_exceptions.md R301). -/
def Obligations.UnavailableChangesNothing : Prop :=
  ∀ s : State,
    (s.queues.capq.length < s.par.nNative →
      exec .pull s = .next s ∧
      (s.seq.pass = .idle → exec .rxPass s = .next { s with host := { s.host with result := .passNone } } ∧
        (s.inp.dispatchSel = 1#2 → exec .tick s = .next s))) ∧
    (s.queues.txsrc.length < s.par.nNative →
      exec .txpull s = .next s ∧
      (s.seq.pass = .idle → exec .txPass s = .next { s with host := { s.host with result := .passNone } } ∧
        (s.inp.dispatchSel = 2#2 → exec .tick s = .next s)))

/-- Host operations run between passes only: none has a step while a pass runs (46_host_operations.md R280; 70_reset_and_hazards.md R343). That
the issued words wait in `host.cmd` through the steps of a pass, scheduled or not, is the model's deduction (log entry 14). -/
def Obligations.HostOperationsWaitForIdle : Prop :=
  (∀ (i : Instr) (s : State), stagePosition i = none → s.seq.pass ≠ .idle → exec i s = .refused .hostOpDuringPass) ∧
  (∀ s t : State, (s.sched = [] ∨ ∃ rest, s.sched = .run :: rest) → s.seq.pass ≠ .idle → step s = .next t →
    t.host.cmd = s.host.cmd)

/-- `TICK` is the three-way dispatch on `IN.DISPATCH_SEL`, the value 3 read as no-op (40_orchestrator_framing.md R130): it does what `RX_PASS`
or `TX_PASS` does and returns nothing, so that the host port is as before (30_encoding.md R117; 46_host_operations.md R290). The premise on
`host.awaited`, the model's field (log entry 21), is the last part of the invariant `State.Inv` at an idle block. -/
def Obligations.TickDispatches : Prop :=
  ∀ s : State, s.seq.pass = .idle → s.host.awaited = false →
    (s.inp.dispatchSel = 1#2 → ∃ t, exec .rxPass s = .next t ∧ exec .tick s = .next { t with host := s.host }) ∧
    (s.inp.dispatchSel = 2#2 → ∃ t, exec .txPass s = .next t ∧ exec .tick s = .next { t with host := s.host }) ∧
    (s.inp.dispatchSel = 0#2 ∨ s.inp.dispatchSel = 3#2 → exec .tick s = .next s)

/-! ### Reset, parameters, invariants -/

/-- What power-on reset leaves, for the state after reset and for the reset input from any state (10_state.md R60). -/
def Obligations.PowerOnResetValues : Prop :=
  let Fresh : State → Prop := fun t =>
    t.blk.valid = false ∧ t.seq = { sp := 0, pass := .idle, lastDemod := none } ∧ t.diag = [] ∧
    t.sam.phase = F32.ofBits 0#32 ∧ t.sam.omega = F32.ofBits 0#32 ∧ t.sam.filPrev = F32.ofBits 0#32 ∧
    t.sam.dc = F32.ofBits 0#32 ∧ t.sam.dcInsert = F32.ofBits 0#32 ∧ t.sam.carrierHz = F32.ofBits 0#32 ∧
    t.sam.carrierSmooth = F32.ofBits 0#32 ∧ t.nco = F32.ofBits 0#32 ∧
    t.queues = { capq := [], playq := [], txsrc := [], txsink := [] } ∧
    (∀ b, (t.cfg.iqPair b).written = false) ∧ t.cfg.nrWritten = false ∧ t.cfg.agcWritten = false
  Fresh State.reset ∧
  ∀ (s : State) (rest : List Move), s.par.wf = true → s.sched = .powerOn :: rest →
    ∃ t, step s = .next t ∧ Fresh t ∧ t.inp = s.inp ∧ t.par = s.par

/-- The state after reset meets the invariant, its phases are in range and it carries no mark. The parameter record and the values of
unwritten registers at reset are the model's (log entries 5, 8). -/
def Obligations.ResetMeetsInv : Prop := State.Inv State.reset ∧ State.PhasesLegal State.reset ∧ State.Unmarked State.reset

/-- Every step keeps the invariant (10_state.md R22, R25, R44, R45; 20_memory.md R77; 40_orchestrator_framing.md R142, R146;
44_sam_demodulator.md R240; that no result is awaited while no pass runs is about the model's field `host.awaited`, log entry 21). -/
def Obligations.StepKeepsInv : Prop := ∀ s t : State, State.Inv s → step s = .next t → State.Inv t

/-- Every step keeps both phases out of neither end of `[0, TWO_PI_F]` (10_state.md R53; 44_sam_demodulator.md R248; 90_conflicts.md C4). -/
def Obligations.StepKeepsPhases : Prop := ∀ s t : State, State.PhasesLegal s → step s = .next t → State.PhasesLegal t

/-- No step changes `PAR` (00_scope.md R9); but for power-on reset, no step removes a log entry and none makes a valid block invalid
(10_state.md R21, R28). -/
def Obligations.StepKeepsParametersAndLog : Prop :=
  ∀ s t : State, step s = .next t →
    t.par = s.par ∧
    (s.sched.head? ≠ some .powerOn → s.diag <+: t.diag ∧ (s.blk.valid = true → t.blk.valid = true))

/-- A `PAR` that is not well formed is refused by every step (00_scope.md R10), and well formed is: the naturals 00_scope.md R9 types as above zero
are, the queue holds a block, both factor lists divide through `N_NATIVE` and `FS_NATIVE`, and `PAR.SAM` meets 10_state.md R52. A list divides
through a number exactly when its factors are at least 2 (R9) and the product of each of its prefixes divides the number (R10). That the
types of R9 are part of the check of every step is the model's (log entry 16). -/
def Obligations.IllFormedParametersRefused : Prop :=
  (∀ s : State, s.par.wf = false → step s = .refused .parIllFormed) ∧
  (∀ (ds : List Nat) (n : Nat),
    dividesThrough ds n = true ↔ (∀ d ∈ ds, 2 ≤ d) ∧ ∀ pre : List Nat, pre <+: ds → pre.prod ∣ n) ∧
  (∀ p : SamParams,
    p.wf = true ↔
      (p.g1.isFinite = true ∧ p.g2.isFinite = true ∧ p.omegaLim.isFinite = true ∧ p.mtauR.isFinite = true ∧
        p.mtauI.isFinite = true) ∧
      F32.zero.le p.omegaLim = true ∧ F32.zero.le p.g1 = true ∧ F32.zero.le p.g2 = true ∧
      (F32.zero.le p.mtauR = true ∧ p.mtauR.le F32.one = true) ∧ (F32.zero.le p.mtauI = true ∧ p.mtauI.le F32.one = true) ∧
      ((p.g1.mul F32.piF).add p.omegaLim).lt F32.twoPiF = true) ∧
  (∀ p : Par,
    p.wf = true ↔
      (0 < p.nNative ∧ 0 < p.fsNative ∧ 0 < p.numBands ∧ 0 < p.samNReq ∧ 0 < p.samFsReq) ∧ p.nNative ≤ p.queueCap ∧
      dividesThrough p.dfList p.nNative = true ∧ dividesThrough p.dfList p.fsNative = true ∧
      dividesThrough p.txDfList p.nNative = true ∧ dividesThrough p.txDfList p.fsNative = true ∧ p.sam.wf = true)

/-- The moves of the agents outside the block: an append within the capacity, none above it, a removal of the oldest pairs, the ports
driven, words issued; each touches its own storage alone (20_memory.md R77, R81; 10_state.md R29; log entry 7). -/
def Obligations.OutsideMoves : Prop :=
  ∀ (s : State) (rest : List Move), s.par.wf = true →
    (∀ ps, s.sched = .capture ps :: rest →
      (s.queues.capq.length + ps.length ≤ s.par.queueCap →
        step s = .next { s with sched := rest, queues := { s.queues with capq := s.queues.capq ++ ps } }) ∧
      (s.par.queueCap < s.queues.capq.length + ps.length → step s = .refused .queueOverCapacity)) ∧
    (∀ ps, s.sched = .txFeed ps :: rest →
      (s.queues.txsrc.length + ps.length ≤ s.par.queueCap →
        step s = .next { s with sched := rest, queues := { s.queues with txsrc := s.queues.txsrc ++ ps } }) ∧
      (s.par.queueCap < s.queues.txsrc.length + ps.length → step s = .refused .queueOverCapacity)) ∧
    (∀ n, s.sched = .playDrain n :: rest →
      step s = .next { s with sched := rest, queues := { s.queues with playq := s.queues.playq.drop n } }) ∧
    (∀ n, s.sched = .sinkDrain n :: rest →
      step s = .next { s with sched := rest, queues := { s.queues with txsink := s.queues.txsink.drop n } }) ∧
    (∀ v, s.sched = .drive v :: rest → step s = .next { s with sched := rest, inp := v }) ∧
    (∀ ws, s.sched = .issue ws :: rest →
      step s = .next { s with sched := rest, host := { s.host with cmd := s.host.cmd ++ ws } })

/-- A host that has configured the AGC, the noise reduction and every band's correction gets a run no operation marks
(10_state.md R33; 70_reset_and_hazards.md R332; the marks are the model's, log entry 8). -/
def Obligations.ConfiguredRunsUnmarked : Prop :=
  ∀ (i : Instr) (s t : State), s.cfg.agcWritten = true → s.cfg.nrWritten = true →
    (∀ b, b < s.par.numBands → (s.cfg.iqPair b).written = true) → exec i s = .next t → t.marks = s.marks

/-! ### What no other operation writes -/

/-- What each operation may write of the block's own state: `BLK.N` and `BLK.FS` are changed by the decimation and interpolation stages and the
pulls (with the entry points that pull) alone; AgcState by the `AGC` stage in an active mode and `CFG_AGC` alone, its parameter part by
`CFG_AGC` alone; the oscillator phase by `FSHIFT` alone; the log by `DEMOD` in mode SAM alone; SamLoopState by `DEMOD` in mode SAM and the
re-entry reset of a receive pull alone (10_state.md R24, R40, R46, R55, R56; 43_agc.md R201; 60_exceptions.md R304, R306). -/
def Obligations.BlockStateFrame : Prop :=
  ∀ (i : Instr) (s t : State), exec i s = .next t →
    (i ∉ [.decim, .interp, .txdecim, .txinterp, .pull, .txpull, .tick, .rxPass, .txPass] →
      t.blk.n = s.blk.n ∧ t.blk.fs = s.blk.fs ∧ t.blk.valid = s.blk.valid) ∧
    ((∀ mode fs, i ≠ .cfgAgc mode fs) →
      t.agc.p = s.agc.p ∧ (i ≠ .agc ∨ s.cfg.agcMode = 0 → t.agc = s.agc)) ∧
    (i ≠ .fshift → t.nco = s.nco) ∧
    (i ≠ .demod ∨ s.lat.demodMode ≠ 2#3 → t.diag = s.diag) ∧
    (t.sam = s.sam ∨ (i = .demod ∧ s.lat.demodMode = 2#3) ∨
      ((i = .pull ∨ i = .rxPass ∨ i = .tick) ∧ t.sam = SamState.initial ∧ s.inp.ports.demodMode = 2#3 ∧
        s.seq.lastDemod ≠ some 2#3))

/-- What each operation may write around the block: no port, no parameter; `CFG` by the three setters alone; `LAT` by a pull alone, and with a
copy of `IN`; each queue by the operations 20_memory.md R70 lists for it alone; of the host port, no command word, and the result by the two
pass operations (`None`; their `Some(&BLK)` comes with the last stage, `StepRunsStageOfPass`) and the three read accessors alone
(10_state.md R29, R31, R32; 30_encoding.md R117; 46_host_operations.md R290; the host port is the model's, log entry 21). -/
def Obligations.PortConfigQueueFrame : Prop :=
  ∀ (i : Instr) (s t : State), exec i s = .next t →
    t.inp = s.inp ∧ t.par = s.par ∧ t.sched = s.sched ∧ t.host.cmd = s.host.cmd ∧
    (t.cfg = s.cfg ∨ (∃ mode fs, i = .cfgAgc mode fs) ∨ (∃ option, i = .cfgNr option) ∨ (∃ b a f, i = .setIqc b a f)) ∧
    (t.lat = s.lat ∨ (i ∈ [.pull, .txpull, .tick, .rxPass, .txPass] ∧ t.lat = s.inp.ports)) ∧
    (i ∉ [.pull, .rxPass, .tick] → (∀ m, i ≠ .bulkClear m) → t.queues.capq = s.queues.capq) ∧
    (i ≠ .push → (∀ m, i ≠ .bulkClear m) → t.queues.playq = s.queues.playq) ∧
    (i ∉ [.txpull, .txPass, .tick] → t.queues.txsrc = s.queues.txsrc) ∧
    (i ≠ .txpush → t.queues.txsink = s.queues.txsink) ∧
    (t.host.result = s.host.result ∨ (i ∈ [.rxPass, .txPass] ∧ t.host.result = .passNone) ∨
      (i = .rdAgcact ∧ ∃ b, t.host.result = .bit b) ∨ (i = .rdSamofs ∧ ∃ x, t.host.result = .real x) ∨
      (∃ band, i = .rdIqc band ∧ (t.host.result = .nothing ∨ ∃ amp phase, t.host.result = .pair amp phase))) ∧
    (i ∉ [.tick, .rxPass, .txPass] → t.host.awaited = s.host.awaited)

/-- 40_orchestrator_framing.md R158: no transmit stage reads or writes `AGC`, `SAM`, `NCO` or `CFG`. -/
def Obligations.TransmitIgnoresReceiveState : Prop :=
  ∀ i ∈ txStages, ∀ (s : State) (a : AgcState) (m : SamState) (theta : F32) (c : Cfg),
    (∀ t, exec i s = .next t → t.agc = s.agc ∧ t.sam = s.sam ∧ t.nco = s.nco ∧ t.cfg = s.cfg) ∧
    exec i { s with agc := a, sam := m, nco := theta, cfg := c } =
      match exec i s with
      | .next t => .next { t with agc := a, sam := m, nco := theta, cfg := c }
      | .fault r => .fault r
      | .refused r => .refused r

/-! ### The adapters -/

/-- The two pulls with a block available: the pairs leave the queue, the ports are latched, the block holds the pairs as
`f32_of_i16(raw) / 32768.0`; the receive pull resets SAM on re-entry and remembers the mode, the transmit pull does neither; `RX_PASS` and
`TX_PASS` from the idle block, and `TICK` under their selection, begin with them, and differ in whether the host awaits a result
(40_orchestrator_framing.md R130, R136, R151; 44_sam_demodulator.md R246; 46_host_operations.md R290; 10_state.md R26, R31, R54;
`host.awaited` is the model's, log entry 21). -/
def Obligations.PullTakesABlock : Prop :=
  let block : Par → List RawPair → SampleBlock := fun par q =>
    { x := (q.take par.nNative).map fun p =>
        { i := (F32.ofI16 p.i).div F32.scale16, q := (F32.ofI16 p.q).div F32.scale16 }
      n := par.nNative, fs := par.fsNative, valid := true }
  ∀ s : State,
    (let pulled : State :=
      { s with
        queues := { s.queues with capq := s.queues.capq.drop s.par.nNative }
        lat := s.inp.ports
        sam :=
          if s.inp.ports.demodMode = 2#3 ∧ s.seq.lastDemod ≠ some 2#3 then
            { phase := F32.zero, omega := F32.zero, filPrev := F32.zero, dc := F32.zero, dcInsert := F32.zero
              carrierHz := F32.zero, carrierSmooth := F32.zero }
          else s.sam
        blk := block s.par s.queues.capq
        seq := { sp := 1, pass := .rx, lastDemod := some s.inp.ports.demodMode } }
     s.par.nNative ≤ s.queues.capq.length →
      exec .pull s = .next pulled ∧
      (s.seq.pass = .idle →
        exec .rxPass s = .next { pulled with host := { s.host with awaited := true } } ∧
        (s.inp.dispatchSel = 1#2 → exec .tick s = .next { pulled with host := { s.host with awaited := false } }))) ∧
    (let pulled : State :=
      { s with
        queues := { s.queues with txsrc := s.queues.txsrc.drop s.par.nNative }
        lat := s.inp.ports
        blk := block s.par s.queues.txsrc
        seq := { s.seq with pass := .tx, sp := 1 } }
     s.par.nNative ≤ s.queues.txsrc.length →
      exec .txpull s = .next pulled ∧
      (s.seq.pass = .idle →
        exec .txPass s = .next { pulled with host := { s.host with awaited := true } } ∧
        (s.inp.dispatchSel = 2#2 → exec .tick s = .next { pulled with host := { s.host with awaited := false } })))

/-- Every raw sample is converted exactly, to `raw / 32768`, and the output conversion gives it back
(40_orchestrator_framing.md R136, R148; 20_memory.md R90). -/
def Obligations.SampleScaleExact : Prop :=
  ∀ v : BitVec 16, ∃ (sg : Bool) (m : Fin 2139095040), (F32.ofI16 v).div F32.scale16 = .fin sg m ∧
    F32.signed sg m.val * 32768 = v.toInt * 2 ^ 149 ∧ F32.toI16 ((F32.ofI16 v).div F32.scale16) = v

/-- The output conversion `F2I16` of 40_orchestrator_framing.md R148: a NaN gives 0, the scaled value saturates at both ends and is truncated
toward zero between them. -/
def Obligations.OutputConversion : Prop :=
  ∀ x : F32,
    (x.isNaN = true → x.toI16 = 0#16) ∧
    (x.isNaN = false →
      ((x.mul F32.scale16).ge F32.max16 = true → x.toI16.toInt = 32767) ∧
      ((x.mul F32.scale16).le F32.min16 = true → x.toI16.toInt = -32768) ∧
      (∀ (sg : Bool) (m : Fin 2139095040), x.mul F32.scale16 = .fin sg m → (F32.fin sg m).lt F32.max16 = true →
        F32.min16.lt (.fin sg m) = true →
        x.toI16.toInt = if sg then -((F32.units m.val / 2 ^ 149 : Nat) : Int) else ((F32.units m.val / 2 ^ 149 : Nat) : Int)))

/-- `PUSH` and `TXPUSH`: the converted block goes behind the newest pair of the sink and the pass is over; the block keeps its contents
(40_orchestrator_framing.md R148, R149, R157; 20_memory.md R80). -/
def Obligations.PushAppendsTheBlock : Prop :=
  ∀ s : State,
    (exec .push s = .next
      { s with
        queues :=
          { s.queues with playq := s.queues.playq ++ s.blk.x.map fun z => { i := z.i.toI16, q := z.q.toI16 } }
        seq := { s.seq with pass := .idle, sp := 0 } }) ∧
    (exec .txpush s = .next
      { s with
        queues :=
          { s.queues with txsink := s.queues.txsink ++ s.blk.x.map fun z => { i := z.i.toI16, q := z.q.toI16 } }
        seq := { s.seq with pass := .idle, sp := 0 } })

/-! ### Gain and IQ correction -/

/-- `RFGAIN`: two separate conversions, one product, the same factor on both channels of every sample; both dB operands zero, of either sign,
pass every block without a NaN bit for bit (41_gain_iq_correction.md R171); that a band that does not exist stops it is deduced from
10_state.md R29 and 70_reset_and_hazards.md R332, R333 (log entry 13). -/
def Obligations.RfGainScalesBothChannels : Prop :=
  ∀ s : State,
    let e := s.lat.band.getD s.lat.activeBand { rfGainDb := F32.zero, agcThresh := F32.zero, filter := 0 }
    let g := (s.par.pow10 (s.lat.rfGainAllBandsDb.div F32.twenty)).mul (s.par.pow10 (e.rfGainDb.div F32.twenty))
    (s.lat.activeBand < s.par.numBands →
      exec .rfgain s = .next
        { s with
          blk := { s.blk with x := s.blk.x.map fun z => { i := z.i.mul g, q := z.q.mul g } }
          seq := { s.seq with sp := s.seq.sp + 1 } }) ∧
    (s.lat.activeBand < s.par.numBands → s.lat.rfGainAllBandsDb.isZero = true → e.rfGainDb.isZero = true →
      (∀ z ∈ s.blk.x, z.i.isNaN = false ∧ z.q.isNaN = false) →
      exec .rfgain s = .next { s with seq := { s.seq with sp := s.seq.sp + 1 } }) ∧
    (s.par.numBands ≤ s.lat.activeBand → exec .rfgain s = .refused .bandOutOfRange)

/-- `IQCORR`: the amplitude factor on I alone, then one mix, of the scaled I into Q where the phase factor is below zero, of Q into I
otherwise; the factors 1.0 and zero pass Q bit for bit and keep the exact value of I on every finite block; a pair no `SET_IQC` wrote is used
as reset left it and marks the run (41_gain_iq_correction.md R173 to R176; log entry 8). That a band that does not exist is refused is deduced
from 70_reset_and_hazards.md R332 and R333 (log entry 13). -/
def Obligations.IqCorrectionMixesOneWay : Prop :=
  ∀ s : State,
    let e := s.cfg.iq.getD s.lat.activeBand { amp := F32.zero, phase := F32.zero, written := false }
    let corrected : Sample → Sample := fun z =>
      if e.phase.lt F32.zero then { i := z.i.mul e.amp, q := z.q.add (e.phase.mul (z.i.mul e.amp)) }
      else { i := (z.i.mul e.amp).add (e.phase.mul z.q), q := z.q }
    (s.lat.activeBand < s.par.numBands →
      exec .iqcorr s = .next
        { s with
          blk := { s.blk with x := s.blk.x.map corrected }
          seq := { s.seq with sp := s.seq.sp + 1 }
          marks := if e.written then s.marks else s.marks ++ [.iqcUnwritten s.lat.activeBand] }) ∧
    (e.amp = F32.one → e.phase.isZero = true → ∀ z : Sample, z.i.isFinite = true → z.q.isFinite = true →
      (corrected z).q = z.q ∧ (corrected z).i.isFinite = true ∧ (corrected z).i.le z.i = true ∧ z.i.le (corrected z).i = true) ∧
    (s.par.numBands ≤ s.lat.activeBand → exec .iqcorr s = .refused .bandOutOfRange)

/-! ### Frequency translation -/

/-- `QSHIFT`: sample k times 1, -j, -1, +j, exactly, for every value (42_frequency_translation.md R181; 90_conflicts.md C2). -/
def Obligations.QuarterShiftPattern : Prop :=
  ∀ s : State, ∃ x : List Sample, x.length = s.blk.x.length ∧
    exec .qshift s = .next { s with blk := { s.blk with x := x }, seq := { s.seq with sp := s.seq.sp + 1 } } ∧
    ∀ (k : Nat) (z : Sample), s.blk.x[k]? = some z →
      (k % 4 = 0 → x[k]? = some z) ∧
      (k % 4 = 1 → x[k]? = some { i := z.q, q := z.i.neg }) ∧
      (k % 4 = 2 → x[k]? = some { i := z.i.neg, q := z.q.neg }) ∧
      (k % 4 = 3 → x[k]? = some { i := z.q.neg, q := z.i })

/-- 42_frequency_translation.md R182: applied twice, sample k keeps both channels when k is even and has both negated when k is odd. -/
def Obligations.QuarterShiftTwice : Prop :=
  ∀ s t u : State, exec .qshift s = .next t → exec .qshift t = .next u →
    u.blk.x.length = s.blk.x.length ∧
    ∀ (k : Nat) (z : Sample), s.blk.x[k]? = some z →
      u.blk.x[k]? = some (if k % 2 = 0 then z else { i := z.i.neg, q := z.q.neg })

/-- `FSHIFT`: sample k is rotated by the k-th of the phases `theta`, each the wrap of the one before plus `dtheta`, and the phase after the
last sample is kept (42_frequency_translation.md R184; 10_state.md R56). -/
def Obligations.FineShiftRotates : Prop :=
  ∀ (s : State) (theta : List F32),
    theta.length = s.blk.x.length + 1 → theta[0]? = some s.nco →
    (∀ (k : Nat) (a b : F32), theta[k]? = some a → theta[k + 1]? = some b →
      wrap2pi (a.add ((F32.twoPiF.mul s.lat.fineFreqHz).div (F32.ofNat s.blk.fs))) = some b) →
    ∃ (x : List Sample) (last : F32), x.length = s.blk.x.length ∧ theta[s.blk.x.length]? = some last ∧
      exec .fshift s = .next
        { s with blk := { s.blk with x := x }, nco := last, seq := { s.seq with sp := s.seq.sp + 1 } } ∧
      ∀ (k : Nat) (z : Sample) (a : F32), s.blk.x[k]? = some z → theta[k]? = some a →
        x[k]? = some
          { i := (z.i.mul (s.par.cos a)).sub (z.q.mul (s.par.sin a))
            q := (z.i.mul (s.par.sin a)).add (z.q.mul (s.par.cos a)) }

/-- Where `FSHIFT` ends and where it hangs: from a phase in range, an offset below the rate in magnitude (at a rate that binary32 holds
exactly, up to 2^24 Hz) ends in range, and so does any step of at most one turn; an infinite offset never ends; a NaN offset ends with a NaN
phase (42_frequency_translation.md R186; 10_state.md R29; 70_reset_and_hazards.md R347, R348). -/
def Obligations.FineShiftEndsOrHangs : Prop :=
  ∀ s : State,
    (PhaseLegal s.nco → s.nco.isNaN = false →
      (s.lat.fineFreqHz.magnitudeBelow s.blk.fs = true ∧ s.blk.fs ≤ 16777216) ∨
        ((F32.twoPiF.mul s.lat.fineFreqHz).div (F32.ofNat s.blk.fs)).abs.le F32.twoPiF = true →
      ∃ t, exec .fshift s = .next t ∧ t.nco.isNaN = false ∧ PhaseLegal t.nco) ∧
    (s.blk.x ≠ [] → s.nco.isFinite = true → (F32.ofNat s.blk.fs).isFinite = true →
      s.lat.fineFreqHz.isFinite = false → s.lat.fineFreqHz.isNaN = false → exec .fshift s = .fault .wrapDoesNotEnd) ∧
    (s.blk.x ≠ [] → s.lat.fineFreqHz.isNaN = true → ∃ t, exec .fshift s = .next t ∧ t.nco.isNaN = true)

/-- `WRAP2PI`: NaN and `-0` are returned as they are, an infinity never ends, the result is at neither side of `[0, TWO_PI_F]`, from one turn
below to two turns above zero it ends in that interval, and a tiny negative value gives `TWO_PI_F` (44_sam_demodulator.md R243). -/
def Obligations.WrapLaw : Prop :=
  (∀ x : F32, x.isNaN = true → wrap2pi x = some x) ∧
  (∀ sg : Bool, wrap2pi (.inf sg) = none) ∧
  (∀ x y : F32, wrap2pi x = some y → y.lt F32.zero = false ∧ y.gt F32.twoPiF = false) ∧
  (∀ x : F32, F32.twoPiF.neg.le x = true → x.le (F32.twoPiF.add F32.twoPiF) = true →
    ∃ y, wrap2pi x = some y ∧ F32.zero.le y = true ∧ y.le F32.twoPiF = true) ∧
  wrap2pi (F32.ofBits 0x80000000#32) = some (F32.ofBits 0x80000000#32) ∧
  wrap2pi (F32.ofBits 0xB089705F#32) = some F32.twoPiF ∧
  wrap2pi (F32.ofBits 0x40D00000#32) = some (F32.ofBits 0x3E5E04A0#32)

/-! ### Framing, volume, hooks -/

/-- The hooks look at the block where they are enabled and change nothing of the block's (40_orchestrator_framing.md R138, R139; the record of
calls is the model's, log entry 3). -/
def Obligations.HooksOnlyLook : Prop :=
  ∀ s : State,
    (exec .specfull s = .next
      { s with
        ext := { s.ext with calls := if s.lat.specFullEn then s.ext.calls ++ [.spectrumFull s.blk] else s.ext.calls }
        seq := { s.seq with sp := s.seq.sp + 1 } }) ∧
    (exec .speczoom s = .next
      { s with
        ext := { s.ext with calls := if s.lat.specZoomEn then s.ext.calls ++ [.spectrumZoom s.blk] else s.ext.calls }
        seq := { s.seq with sp := s.seq.sp + 1 } })

/-- The four framing stages. One call of the filter bank per factor: `DECIM` and `TXDECIM` call it with the indices of the factors in order,
`INTERP` and `TXINTERP` in reverse. Call k sees the block as call k - 1 left it; its answer becomes the contents, as long as the new length, and
both fields are divided or multiplied by its factor, so that in the end by the product of all; nothing else changes. The answers are the
values the answer port gives, in order: the second clause says so of a feed that holds them (40_orchestrator_framing.md R140, R141, R145,
R152, R156; the answer port and the record of calls are the model's, log entry 3; so is, for a stage issued alone, that the block may grow above
`PAR.N_NATIVE` and that a remainder is dropped, log entry 28). -/
def Obligations.FramingStages : Prop :=
  let Frames : State → Instr → (Nat → SampleBlock → ExtCall) → List Nat → (Nat → Nat → Nat) → Prop := fun s i call order rate =>
    let block : List (List Sample) → Nat → SampleBlock := fun answers k =>
      { x := (s.blk.x :: answers).getD k [], n := rate k s.blk.n, fs := rate k s.blk.fs, valid := s.blk.valid }
    let Fit : List (List Sample) → Prop := fun answers =>
      answers.length = order.length ∧ ∀ k a, answers[k]? = some a → a.length = rate (k + 1) s.blk.n
    let after : List (List Sample) → ExtPort → State := fun answers e =>
      { s with
        blk := block answers order.length
        ext := { e with calls := s.ext.calls ++ order.mapIdx fun k j => call j (block answers k) }
        seq := { s.seq with sp := s.seq.sp + 1 } }
    (∃ answers : List (List Sample), Fit answers ∧
      answers.flatten = (ExtPort.drawSamples answers.flatten.length s.ext).1 ∧
      exec i s = .next (after answers (ExtPort.drawSamples answers.flatten.length s.ext).2)) ∧
    (∀ (answers : List (List Sample)) (rest : List F32), Fit answers →
      s.ext.feed = answers.flatten.flatMap (fun z => [z.i, z.q]) ++ rest →
      exec i s = .next (after answers { s.ext with feed := rest }))
  ∀ s : State,
    let down : List Nat → Nat → Nat → Nat := fun ds k v => v / (ds.take k).prod
    let up : List Nat → Nat → Nat → Nat := fun ds k v => v * (ds.drop (ds.length - k)).prod
    Frames s .decim (.decimate s.lat.filtCfg) (List.range s.par.dfList.length) (down s.par.dfList) ∧
    Frames s .interp (.interpolate s.lat.filtCfg) (List.range s.par.dfList.length).reverse (up s.par.dfList) ∧
    Frames s .txdecim (.txDecimate s.lat.filtCfg) (List.range s.par.txDfList.length) (down s.par.txDfList) ∧
    Frames s .txinterp (.txInterpolate s.lat.filtCfg) (List.range s.par.txDfList.length).reverse (up s.par.txDfList)

/-- `VOLPRE` and `VOLPOST`: both channels of every sample times the latched factor; the factor 1.0 passes every block without a NaN bit for
bit (40_orchestrator_framing.md R143, R147). -/
def Obligations.VolumeScales : Prop :=
  ∀ s : State,
    (exec .volpre s = .next
      { s with
        blk := { s.blk with x := s.blk.x.map fun z => { i := z.i.mul s.lat.volPre, q := z.q.mul s.lat.volPre } }
        seq := { s.seq with sp := s.seq.sp + 1 } }) ∧
    (exec .volpost s = .next
      { s with
        blk := { s.blk with x := s.blk.x.map fun z => { i := z.i.mul s.lat.volPost, q := z.q.mul s.lat.volPost } }
        seq := { s.seq with sp := s.seq.sp + 1 } }) ∧
    ((∀ z ∈ s.blk.x, z.i.isNaN = false ∧ z.q.isNaN = false) →
      (s.lat.volPre = F32.one → exec .volpre s = .next { s with seq := { s.seq with sp := s.seq.sp + 1 } }) ∧
      (s.lat.volPost = F32.one → exec .volpost s = .next { s with seq := { s.seq with sp := s.seq.sp + 1 } }))

/-! ### External stages -/

/-- The five filters that no enable switches off: the block's contents become the collaborator's answer, whatever it is, as long as `BLK.N`, and
nothing else changes (45_demod_dispatch_external.md R270, R271, R277; 40_orchestrator_framing.md R153 to R155; the answer port is the model's,
log entry 3). That `CONVFILT` is refused for a band that does not exist is deduced from 70_reset_and_hazards.md R332 and R333 (log entry
13). -/
def Obligations.FiltersReplaceTheBlock : Prop :=
  let Filters : State → Instr → ExtCall → Prop := fun s i c =>
    (∃ (x : List Sample) (e : ExtPort), x.length = s.blk.n ∧ e.calls = s.ext.calls ++ [c] ∧
      exec i s = .next { s with blk := { s.blk with x := x }, ext := e, seq := { s.seq with sp := s.seq.sp + 1 } }) ∧
    (∀ (ans : List Sample) (rest : List F32), ans.length = s.blk.n →
      s.ext.feed = ans.flatMap (fun z => [z.i, z.q]) ++ rest →
      exec i s = .next
        { s with
          blk := { s.blk with x := ans }
          ext := { s.ext with feed := rest, calls := s.ext.calls ++ [c] }
          seq := { s.seq with sp := s.seq.sp + 1 } })
  ∀ s : State,
    (s.lat.activeBand < s.par.numBands →
      Filters s .convfilt (.convolve s.lat.filtCfg
        (s.lat.band.getD s.lat.activeBand { rfGainDb := F32.zero, agcThresh := F32.zero, filter := 0 }).filter s.blk)) ∧
    (s.par.numBands ≤ s.lat.activeBand → exec .convfilt s = .refused .bandOutOfRange) ∧
    Filters s .equalizer (.equalize s.lat.filtCfg s.blk) ∧
    Filters s .txeq (.txEqualize s.lat.filtCfg s.blk) ∧
    Filters s .txhilb (.hilbert s.lat.filtCfg s.blk) ∧
    Filters s .txssb (.ssbSelect s.blk)

/-- The conditional stages: disabled, `NOTCH` and `CWPROC` only move the stage pointer; enabled, the block's contents become the collaborator's
answer, as long as `BLK.N`, and the Morse decoder then looks at the block with that answer. The answer is what the answer port gives: the
second clause says so of a feed that holds it (45_demod_dispatch_external.md R274, R275, R277; 40_orchestrator_framing.md R134; the answer port
and the record of calls are the model's, log entry 3). -/
def Obligations.ConditionalStages : Prop :=
  let Filters : State → Instr → (List Sample → List ExtCall) → Prop := fun s i calls =>
    let after : List Sample → ExtPort → State := fun ans e =>
      { s with
        blk := { s.blk with x := ans }
        ext := { e with calls := s.ext.calls ++ calls ans }
        seq := { s.seq with sp := s.seq.sp + 1 } }
    (let r := ExtPort.drawSamples s.blk.n s.ext
     r.1.length = s.blk.n ∧ exec i s = .next (after r.1 r.2)) ∧
    (∀ (ans : List Sample) (rest : List F32), ans.length = s.blk.n →
      s.ext.feed = ans.flatMap (fun z => [z.i, z.q]) ++ rest → exec i s = .next (after ans { s.ext with feed := rest }))
  ∀ s : State,
    (s.lat.notchEn = false → exec .notch s = .next { s with seq := { s.seq with sp := s.seq.sp + 1 } }) ∧
    (s.lat.cwActive = false → exec .cwproc s = .next { s with seq := { s.seq with sp := s.seq.sp + 1 } }) ∧
    (s.lat.notchEn = true → Filters s .notch fun _ => [.notch s.blk]) ∧
    (s.lat.cwActive = true → Filters s .cwproc fun ans => [.cwFilter s.blk, .cwDecode { s.blk with x := ans }])

/-- `NR`: none, or exactly one of the three implementations, whose answer, as long as `BLK.N`, becomes the block's contents times the option's
fixed scale on both channels. The answer is what the answer port gives: the second clause says so of a feed that holds it. An option no
`CFG_NR` wrote is used as reset left it and marks the run (45_demod_dispatch_external.md R272, R273; log entries 3, 8). -/
def Obligations.NoiseReductionRoutes : Prop :=
  ∀ s : State,
    let marks := if s.cfg.nrWritten then s.marks else s.marks ++ [.nrUnwritten]
    (s.cfg.nrOption = 0#2 →
      exec .nr s = .next { s with seq := { s.seq with sp := s.seq.sp + 1 }, marks := marks }) ∧
    (∀ (c : ExtCall) (g : F32),
      (s.cfg.nrOption = 1#2 ∧ c = .nrSpectral s.blk ∧ g = s.par.nrScale.spectral) ∨
        (s.cfg.nrOption = 2#2 ∧ c = .nrLms s.blk ∧ g = s.par.nrScale.lms) ∨
        (s.cfg.nrOption = 3#2 ∧ c = .nrKim s.blk ∧ g = s.par.nrScale.kim) →
      let after : List Sample → ExtPort → State := fun ans e =>
        { s with
          blk := { s.blk with x := ans.map fun z => { i := z.i.mul g, q := z.q.mul g } }
          ext := { e with calls := s.ext.calls ++ [c] }
          seq := { s.seq with sp := s.seq.sp + 1 }
          marks := marks }
      (let r := ExtPort.drawSamples s.blk.n s.ext
       r.1.length = s.blk.n ∧ exec .nr s = .next (after r.1 r.2)) ∧
      (∀ (ans : List Sample) (rest : List F32), ans.length = s.blk.n →
        s.ext.feed = ans.flatMap (fun z => [z.i, z.q]) ++ rest →
        exec .nr s = .next (after ans { s.ext with feed := rest })))

/-! ### AGC (43_agc.md) -/

/-- 43_agc.md R201: in mode Off every sample is the fixed gain times the input, whatever the history, and no field of `AGC` is written; a mode
no `CFG_AGC` wrote is used as reset left it and marks the run (log entry 8). -/
def Obligations.AgcOffIsFixedGain : Prop :=
  ∀ s : State, s.cfg.agcMode = 0 →
    exec .agc s = .next
      { s with
        blk := { s.blk with x := s.blk.x.map fun z => { i := s.agc.p.fixedGain.mul z.i, q := s.agc.p.fixedGain.mul z.q } }
        seq := { s.seq with sp := s.seq.sp + 1 }
        marks := if s.cfg.agcWritten then s.marks else s.marks ++ [.agcUnwritten] }

/-- One sample of the active AGC, the steps S1 to S9 in their order (43_agc.md R202 to R207, R213 to R215; S6 is `AgcTransitionTable`). -/
def Obligations.AgcOneSample : Prop :=
  ∀ (s : State) (z : Sample), s.cfg.agcMode ≠ 0 → s.blk.x = [z] →
    let p := s.agc.p
    let out := (s.agc.outIndex + 1) % p.ringSize
    let arr := (s.agc.inIndex + 1) % p.ringSize
    let del := ringRead s.agc.ring out
    let mIn := if p.pmodeRoot then F32.sqrt ((z.i.mul z.i).add (z.q.mul z.q)) else F32.max z.i.abs z.q.abs
    let ring := ringWrite s.agc.ring arr { i := z.i, q := z.q, m := mIn }
    let scanned := (List.range p.attackLen).foldl
      (fun peak d =>
        let m := (ringRead ring ((out + (d + 1)) % p.ringSize)).m
        if m.gt peak then m else peak) F32.zero
    let peak := if del.m.ge s.agc.ringMax then scanned else s.agc.ringMax
    let a := agcTransition
      { s.agc with
        outIndex := out
        inIndex := arr
        ring := ring
        fastBack := (p.fastBackmult.mul del.m).add ((F32.one.sub p.fastBackmult).mul s.agc.fastBack)
        hangBack := (p.hangBackmult.mul del.m).add ((F32.one.sub p.hangBackmult).mul s.agc.hangBack)
        ringMax := if mIn.gt peak then mIn else peak
        hangCounter := if 0 < s.agc.hangCounter then s.agc.hangCounter - 1 else 0 }
    let volts := if a.volts.lt p.minVolts then p.minVolts else a.volts
    let mult := (p.target.sub (p.slopeConstant.mul (F32.min F32.zero (s.par.log10 (volts.div p.maxInput))))).div volts
    exec .agc s = .next
      { s with
        blk := { s.blk with x := [{ i := del.i.mul mult, q := del.q.mul mult }] }
        agc := { a with volts := volts, agcAction := !a.volts.lt p.minVolts }
        seq := { s.seq with sp := s.seq.sp + 1 }
        marks := if s.cfg.agcWritten then s.marks else s.marks ++ [.agcUnwritten] }

/-- The active AGC always completes, and state carries over: a block is its samples one block after another
(43_agc.md R202: "state carries over from sample to sample and from block to block"). -/
def Obligations.AgcCarriesAcrossBlocks : Prop :=
  ∀ (s : State) (xs ys : List Sample), s.cfg.agcMode ≠ 0 → s.blk.x = xs ++ ys →
    ∃ t t1 t2 : State, exec .agc s = .next t ∧
      exec .agc { s with blk := { s.blk with x := xs } } = .next t1 ∧
      exec .agc { t1 with blk := { t1.blk with x := ys } } = .next t2 ∧
      t.agc = t2.agc ∧ t.blk.x = t1.blk.x ++ t2.blk.x ∧ t.blk.x.length = s.blk.x.length

/-- The sixteen transitions of 43_agc.md R219 (rules R208 to R212), each with its condition and its effect on the envelope, and the two
facts collected from them. -/
def Obligations.AgcTransitionTable : Prop :=
  (∀ a : AgcState,
    let g := a.ringMax.ge a.volts = true
    let moved : F32 → F32 := fun m => a.volts.add ((a.ringMax.sub a.volts).mul m)
    let pop := a.volts.gt (a.p.popRatio.mul a.fastBack) = true
    let hang := a.p.hangEnable = true ∧ a.hangBack.gt a.p.hangLevel = true
    let above := a.volts.gt a.saveVolts = true
    (a.state = .attack →
      (g → agcTransition a = { a with volts := moved a.p.attackMult }) ∧
      (¬g → pop → agcTransition a = { a with state := .fastDecay, volts := moved a.p.fastDecayMult }) ∧
      (¬g → ¬pop → hang →
        agcTransition a = { a with state := .hang, hangCounter := a.p.hangSamples, decayHang := true }) ∧
      (¬g → ¬pop → ¬hang →
        agcTransition a = { a with state := .normalDecay, volts := moved a.p.decayMult, decayHang := false })) ∧
    (a.state = .fastDecay →
      (g → agcTransition a = { a with state := .attack, volts := moved a.p.attackMult }) ∧
      (¬g → above → agcTransition a = { a with volts := moved a.p.fastDecayMult }) ∧
      (¬g → ¬above → 0 < a.hangCounter → agcTransition a = { a with state := .hang }) ∧
      (¬g → ¬above → a.hangCounter = 0 → a.decayHang = false →
        agcTransition a = { a with state := .normalDecay, volts := moved a.p.decayMult }) ∧
      (¬g → ¬above → a.hangCounter = 0 → a.decayHang = true →
        agcTransition a = { a with state := .hangDecay, volts := moved a.p.hangDecayMult })) ∧
    (a.state = .hang →
      (g → agcTransition a = { a with state := .attack, saveVolts := a.volts, volts := moved a.p.attackMult }) ∧
      (¬g → a.hangCounter = 0 → agcTransition a = { a with state := .hangDecay, volts := moved a.p.hangDecayMult }) ∧
      (¬g → 0 < a.hangCounter → agcTransition a = a)) ∧
    (a.state = .normalDecay →
      (g → agcTransition a = { a with state := .attack, saveVolts := a.volts, volts := moved a.p.attackMult }) ∧
      (¬g → agcTransition a = { a with volts := moved a.p.decayMult })) ∧
    (a.state = .hangDecay →
      (g → agcTransition a = { a with state := .attack, saveVolts := a.volts, volts := moved a.p.attackMult }) ∧
      (¬g → agcTransition a = { a with volts := moved a.p.hangDecayMult }))) ∧
  (∀ a : AgcState, a.state = .normalDecay ∨ a.state = .hangDecay →
    (agcTransition a).state ≠ .fastDecay ∧ (agcTransition a).state ≠ .hang) ∧
  (∀ a : AgcState, (agcTransition a).state = .hang → a.state = .hang ∨ a.state = .attack ∨ a.state = .fastDecay)

/-- After a block of at least one sample in an active mode the envelope is not below its floor, and a cleared action flag says that it was
clamped to the floor in the last sample (43_agc.md R213; 10_state.md R27, R45). -/
def Obligations.AgcFloorAndFlag : Prop :=
  ∀ s t : State, s.cfg.agcMode ≠ 0 → s.blk.x ≠ [] → exec .agc s = .next t →
    t.agc.volts.lt t.agc.p.minVolts = false ∧ (t.agc.agcAction = false → t.agc.volts = t.agc.p.minVolts)

/-- The group delay (43_agc.md R217): from the reset of 10_state.md R47, output k is input `k - ATTACK_LEN` times one factor for both channels,
and the first `ATTACK_LEN` outputs are the zeros of the reset times a factor. -/
def Obligations.AgcGroupDelay : Prop :=
  ∀ (s : State) (mode fs : Nat) (p : AgcParams), mode ≠ 0 → p.wf fs = true → s.cfg.agcMode = mode →
    s.agc = agcReset mode p →
    ∃ t, exec .agc s = .next t ∧ t.blk.x.length = s.blk.x.length ∧
      ∀ (k : Nat) (w : Sample), t.blk.x[k]? = some w →
        ∃ m : F32,
          (k < p.attackLen → w = { i := F32.zero.mul m, q := F32.zero.mul m }) ∧
          (p.attackLen ≤ k → ∃ z, s.blk.x[k - p.attackLen]? = some z ∧ w = { i := z.i.mul m, q := z.q.mul m })

/-- Independence of the ring's size (43_agc.md R218): from the reset, two profiles that differ in `ring_size` alone give the same outputs and
the same values of every field outside the ring. -/
def Obligations.AgcRingSizeIndependent : Prop :=
  ∀ (s : State) (mode fs size : Nat) (p : AgcParams), mode ≠ 0 → s.cfg.agcMode = mode →
    p.wf fs = true → ({ p with ringSize := size } : AgcParams).wf fs = true →
    ∃ t u : State, exec .agc { s with agc := agcReset mode p } = .next t ∧
      exec .agc { s with agc := agcReset mode { p with ringSize := size } } = .next u ∧
      t.blk = u.blk ∧ t.agc.state = u.agc.state ∧ t.agc.volts = u.agc.volts ∧ t.agc.fastBack = u.agc.fastBack ∧
      t.agc.hangBack = u.agc.hangBack ∧ t.agc.ringMax = u.agc.ringMax ∧ t.agc.hangCounter = u.agc.hangCounter ∧
      t.agc.saveVolts = u.agc.saveVolts ∧ t.agc.decayHang = u.agc.decayHang ∧ t.agc.agcAction = u.agc.agcAction

/-- The running peak (43_agc.md R220): with no NaN magnitude since the reset, `ring_max` is the largest of the `ATTACK_LEN` most recent
magnitudes, the zeros of the reset among them. -/
def Obligations.AgcPeakIsWindowMax : Prop :=
  ∀ (s : State) (mode fs : Nat) (p : AgcParams), mode ≠ 0 → p.wf fs = true → s.cfg.agcMode = mode →
    s.agc = agcReset mode p → (∀ z ∈ s.blk.x, (magnitude p z).isNaN = false) →
    ∃ t, exec .agc s = .next t ∧
      t.agc.ringMax =
        ((List.replicate p.attackLen F32.zero ++ s.blk.x.map (magnitude p)).drop s.blk.x.length).foldl
          (fun peak m => if m.gt peak then m else peak) F32.zero

/-- Silence (43_agc.md R222): from the reset, on any number of all-zero samples, the envelope stays at its floor and the action flag clear. The
rule's premise `FAST_DECAY_MULT > 0` is stated as what it uses: the fast-decay step takes the floor below itself in binary32. -/
def Obligations.AgcSilence : Prop :=
  ∀ (s : State) (mode fs n : Nat) (p : AgcParams), mode ≠ 0 → p.wf fs = true → s.cfg.agcMode = mode →
    s.agc = agcReset mode p →
    (p.minVolts.add ((F32.zero.sub p.minVolts).mul p.fastDecayMult)).lt p.minVolts = true →
    s.blk.x = List.replicate (n + 1) { i := F32.zero, q := F32.zero } →
    ∃ t, exec .agc s = .next t ∧ t.agc.volts = p.minVolts ∧ t.agc.agcAction = false ∧ t.agc.state = .fastDecay

/-! ### Demodulation (44_sam_demodulator.md, 45_demod_dispatch_external.md) -/

/-- In mode USB, Q becomes a bit-for-bit copy of I, and I is unchanged; an unassigned mode is refused
(45_demod_dispatch_external.md R261, R264). -/
def Obligations.UsbCopiesUnassignedRefused : Prop :=
  ∀ s : State,
    (s.lat.demodMode = 0#3 →
      exec .demod s = .next
        { s with
          blk := { s.blk with x := s.blk.x.map fun z => { i := z.i, q := z.i } }
          seq := { s.seq with sp := s.seq.sp + 1 } }) ∧
    (3 ≤ s.lat.demodMode.toNat → exec .demod s = .refused .demodModeUnassigned)

/-- In mode AM both channels become the envelope, with a NaN replaced by `+0`; no element of the block is NaN afterwards
(45_demod_dispatch_external.md R263; 60_exceptions.md R302). -/
def Obligations.AmEnvelopeScrubsNaN : Prop :=
  ∀ s : State, s.lat.demodMode = 1#3 →
    ∃ x : List Sample,
      exec .demod s = .next { s with blk := { s.blk with x := x }, seq := { s.seq with sp := s.seq.sp + 1 } } ∧
      x.length = s.blk.x.length ∧ (∀ w ∈ x, w.i.isNaN = false ∧ w.q = w.i) ∧
      ∀ (k : Nat) (z : Sample), s.blk.x[k]? = some z →
        let e := F32.sqrt ((z.i.mul z.i).add (z.q.mul z.q))
        (e.isNaN = true ↔ z.i.isNaN = true ∨ z.q.isNaN = true) ∧
        x[k]? = some (if e.isNaN then { i := F32.zero, q := F32.zero } else { i := e, q := e })

/-- After `DEMOD` in any of the three modes both channels of every sample hold the same bit pattern; in mode SAM a wrong block size or rate is
logged once, and nothing is logged otherwise (45_demod_dispatch_external.md R266; 44_sam_demodulator.md R247; 60_exceptions.md R304, R305). -/
def Obligations.DemodChannelsEqualAndLog : Prop :=
  ∀ s t : State, exec .demod s = .next t →
    t.blk.x.length = s.blk.x.length ∧ (∀ z ∈ t.blk.x, z.q.toBits = z.i.toBits) ∧
    t.diag =
      if s.lat.demodMode = 2#3 ∧ (s.blk.n ≠ s.par.samNReq ∨ s.blk.fs ≠ s.par.samFsReq) then
        s.diag ++ [{ code := 1, n := s.blk.n, fs := s.blk.fs }]
      else s.diag

/-- One sample of `DEMOD.SAM`, the steps P1 to P9 in their order, with the check before and the carrier update after it
(44_sam_demodulator.md R231 to R247). -/
def Obligations.SamOneSample : Prop :=
  ∀ (s : State) (z : Sample) (phase : F32), s.lat.demodMode = 2#3 → s.blk.x = [z] →
    let p := s.par.sam
    let c := s.par.cos s.sam.phase
    let sn := s.par.sin s.sam.phase
    let ai := c.mul z.i
    let bi := sn.mul z.i
    let aq := c.mul z.q
    let bq := sn.mul z.q
    let corr0 := ai.add bq
    let corr1 := aq.sub bi
    let raw := (ai.sub bi).add (aq.add bq)
    let dc := if p.fadeEn then (p.mtauR.mul s.sam.dc).add ((F32.one.sub p.mtauR).mul raw) else s.sam.dc
    let dcInsert := if p.fadeEn then (p.mtauI.mul s.sam.dcInsert).add ((F32.one.sub p.mtauI).mul corr0) else s.sam.dcInsert
    let audio := if p.fadeEn then (raw.sub dc).add dcInsert else raw
    let det := s.par.atan2a corr1 corr0
    let w0 := s.sam.omega.add (p.g2.mul det)
    let w1 := if w0.lt p.omegaLim.neg then p.omegaLim.neg else w0
    let omega := if w1.gt p.omegaLim then p.omegaLim else w1
    let fil := (p.g1.mul det).add omega
    let inc := if s.par.samPhaseDelay then s.sam.filPrev else fil
    let hz := (omega.mul (F32.ofNat s.blk.fs)).div F32.twoPiF
    wrap2pi (s.sam.phase.add inc) = some phase →
    exec .demod s = .next
      { s with
        blk := { s.blk with x := [{ i := audio, q := audio }] }
        sam :=
          { phase := phase, omega := omega, filPrev := fil, dc := dc, dcInsert := dcInsert, carrierHz := hz
            carrierSmooth := (F32.c095.mul s.sam.carrierSmooth).add (F32.c005.mul hz) }
        diag :=
          if s.blk.n ≠ s.par.samNReq ∨ s.blk.fs ≠ s.par.samFsReq then
            s.diag ++ [{ code := 1, n := s.blk.n, fs := s.blk.fs }]
          else s.diag
        seq := { s.seq with sp := s.seq.sp + 1 } }

/-- `DEMOD.SAM` runs its samples in order and carries SamLoopState from sample to sample: on a block `xs ++ ys` it does to `ys` what it does to a
block `ys` entered with the loop state `xs` left, and it hangs exactly where one of the two does. The carrier update is made once, after the
last sample: the offset is that of the last accumulator, and the smoothed offset moves once from its value before the block
(44_sam_demodulator.md R231, R232, R244, R245). -/
def Obligations.SamCarriesAcrossSamples : Prop :=
  ∀ (s : State) (xs ys : List Sample), s.lat.demodMode = 2#3 → s.blk.x = xs ++ ys →
    let front : State := { s with blk := { s.blk with x := xs } }
    (exec .demod front = .fault .wrapDoesNotEnd → exec .demod s = .fault .wrapDoesNotEnd) ∧
    ∀ t1, exec .demod front = .next t1 →
      let back : State := { s with blk := { s.blk with x := ys }, sam := t1.sam }
      (exec .demod back = .fault .wrapDoesNotEnd → exec .demod s = .fault .wrapDoesNotEnd) ∧
      ∀ t2, exec .demod back = .next t2 →
        exec .demod s = .next
          { t2 with
            blk := { s.blk with x := t1.blk.x ++ t2.blk.x }
            sam :=
              { t2.sam with
                carrierHz := (t2.sam.omega.mul (F32.ofNat s.blk.fs)).div F32.twoPiF
                carrierSmooth := (F32.c095.mul s.sam.carrierSmooth).add (F32.c005.mul t2.sam.carrierHz) } }

/-- On bounded samples the loop never hangs: with a well-formed `PAR.SAM`, every sample at most 2^64 in magnitude, a phase and an accumulator in
range (and, where the phase delay is on, a previous loop-filter output of at most one turn), `DEMOD.SAM` completes with all of them in range
again, for a block of any length (44_sam_demodulator.md R239 to R243, R248; 10_state.md R52; 70_reset_and_hazards.md R347). -/
def Obligations.SamCompletesOnBoundedInput : Prop :=
  let Bound := F32.ofBits 0x5F800000#32
  let InLoop : SamState → F32 → Prop := fun m lim =>
    F32.zero.le m.phase = true ∧ m.phase.le F32.twoPiF = true ∧ lim.neg.le m.omega = true ∧ m.omega.le lim = true ∧
    m.filPrev.abs.le F32.twoPiF = true
  ∀ s : State, s.lat.demodMode = 2#3 → s.par.sam.wf = true → InLoop s.sam s.par.sam.omegaLim →
    (∀ z ∈ s.blk.x, z.i.abs.le Bound = true ∧ z.q.abs.le Bound = true) →
    ∃ t, exec .demod s = .next t ∧ InLoop t.sam s.par.sam.omegaLim ∧ t.blk.x.length = s.blk.x.length

/-! ### Host operations (46_host_operations.md) -/

/-- An accepted `CFG_AGC` writes the two registers, loads the profile of the band the ports name, and resets the dynamic part of `AGC`
(46_host_operations.md R283; 10_state.md R47); in mode Off the ring and the indices hold nothing (log entry 11). A band that does not exist and a
profile that breaks R42 stop it; that the band does is deduced from 70_reset_and_hazards.md R332 and R333 (log entry 13). -/
def Obligations.CfgAgcLoadsAndResets : Prop :=
  ∀ (s : State) (mode fs : Nat), s.seq.pass = .idle → mode ≤ s.par.agcModeMax → fs ≠ 0 →
    let entry := s.inp.ports.band.getD s.inp.ports.activeBand { rfGainDb := F32.zero, agcThresh := F32.zero, filter := 0 }
    let p := s.par.agcProfile mode fs entry
    (s.inp.ports.activeBand < s.par.numBands → mode = 0 ∨ p.wf fs = true →
      exec (.cfgAgc mode fs) s = .next
        { s with
          cfg := { s.cfg with agcMode := mode, agcFs := fs, agcWritten := true }
          agc :=
            { p := p
              ring :=
                if mode = 0 then [] else List.replicate p.ringSize { i := F32.zero, q := F32.zero, m := F32.zero }
              outIndex := if mode = 0 then 0 else p.ringSize - 1
              inIndex := if mode = 0 then 0 else (p.ringSize - 1 + p.attackLen) % p.ringSize
              state := .attack, volts := p.minVolts, fastBack := F32.zero, hangBack := F32.zero, ringMax := F32.zero
              hangCounter := 0, saveVolts := F32.zero, decayHang := false, agcAction := false } }) ∧
    (s.inp.ports.activeBand < s.par.numBands → mode ≠ 0 → p.wf fs = false →
      exec (.cfgAgc mode fs) s = .refused .agcProfileIllFormed) ∧
    (s.par.numBands ≤ s.inp.ports.activeBand → exec (.cfgAgc mode fs) s = .refused .bandOutOfRange)

/-- `CFG_NR` and `SET_IQC` store their operands, bit for bit, in their own register and nowhere else; `RD_IQC` of the band then returns the pair,
and the pair of every other band is as before (46_host_operations.md R284, R285, R288; 10_state.md R34). -/
def Obligations.SettersStore : Prop :=
  ∀ s : State, s.seq.pass = .idle →
    (∀ option, option ≤ 3 → exec (.cfgNr option) s =
      .next { s with cfg := { s.cfg with nrOption := BitVec.ofNat 2 option, nrWritten := true } }) ∧
    (∀ (band : Nat) (amp phase : F32), band < s.par.numBands →
      ∃ iq : List IqEntry,
        exec (.setIqc band amp phase) s = .next { s with cfg := { s.cfg with iq := iq } } ∧
        ({ s.cfg with iq := iq } : Cfg).iqPair band = { amp := amp, phase := phase, written := true } ∧
        (∀ b, b ≠ band → ({ s.cfg with iq := iq } : Cfg).iqPair b = s.cfg.iqPair b) ∧
        exec (.rdIqc band) { s with cfg := { s.cfg with iq := iq } } = .next
          { s with cfg := { s.cfg with iq := iq }, host := { s.host with result := .pair amp phase } })

/-- The read accessors return their value and change no state; the action flag before any `CFG_AGC` and the pair of a band no `SET_IQC` wrote are
returned as reset left them and mark the run (46_host_operations.md R286 to R288; 20_memory.md R75; log entry 8). -/
def Obligations.AccessorsReturn : Prop :=
  ∀ s : State, s.seq.pass = .idle →
    exec .rdAgcact s = .next
      { s with
        host := { s.host with result := .bit s.agc.agcAction }
        marks := if s.cfg.agcWritten then s.marks else s.marks ++ [.agcUnwritten] } ∧
    exec .rdSamofs s = .next { s with host := { s.host with result := .real s.sam.carrierSmooth } } ∧
    (∀ band, band < s.par.numBands → exec (.rdIqc band) s = .next
      { s with
        host := { s.host with result := .pair (s.cfg.iqPair band).amp (s.cfg.iqPair band).phase }
        marks := if (s.cfg.iqPair band).written then s.marks else s.marks ++ [.iqcUnwritten band] })

/-- `BULK_CLEAR`: bit 0 of the mask empties the capture queue, bit 1 the playback queue, a mask above 3 does nothing, and nothing else changes
(46_host_operations.md R289; 30_encoding.md R115). -/
def Obligations.BulkClearEmpties : Prop :=
  ∀ (s : State) (mask : Nat), s.seq.pass = .idle →
    (mask ≤ 3 →
      exec (.bulkClear mask) s = .next
        { s with
          queues :=
            { s.queues with
              capq := if mask % 2 = 1 then [] else s.queues.capq
              playq := if 2 ≤ mask then [] else s.queues.playq } }) ∧
    (3 < mask → exec (.bulkClear mask) s = .next s)
end

