-- ==== Sys2Proof/Laws/Float.lean ====
section
/-! SUPPORT. Laws of the binary32 operations: bit patterns, the sign operations, the order, exactness and monotonicity of
rounding. -/

namespace Sys2Proof

/-! ### Bit patterns -/

theorem F32.pattern_lt (x : F32) : x.pattern < 4294967296 := by
  cases x with
  | fin s m => have := m.isLt; cases s <;> simp [F32.pattern] <;> omega
  | inf s => cases s <;> simp [F32.pattern]
  | nan s k => have := k.isLt; cases s <;> simp [F32.pattern] <;> omega

theorem F32.toNat_toBits (x : F32) : x.toBits.toNat = x.pattern := by
  simp [F32.toBits, BitVec.toNat_ofNat, Nat.mod_eq_of_lt x.pattern_lt]

theorem F32.pattern_ofBits (w : Word) : (F32.ofBits w).pattern = w.toNat := by
  have hw := w.isLt
  have hs : (if decide (2147483648 ≤ w.toNat) = true then 2147483648 else 0) + w.toNat % 2147483648 = w.toNat := by
    simp only [decide_eq_true_eq]; split <;> omega
  unfold F32.ofBits
  dsimp only
  split
  · exact hs
  · split
    · rename_i h2; rw [h2] at hs; exact hs
    · dsimp only [F32.pattern]; omega

/-- The bit pattern tells a value apart from every other. -/
theorem F32.pattern_injective {x y : F32} (h : x.pattern = y.pattern) : x = y := by
  cases x with
  | fin s m =>
    have := m.isLt
    cases y with
    | fin t n => have := n.isLt; cases s <;> cases t <;> simp [F32.pattern, Fin.ext_iff] at h ⊢ <;> omega
    | inf t => cases s <;> cases t <;> simp [F32.pattern] at h <;> omega
    | nan t k => cases s <;> cases t <;> simp [F32.pattern] at h <;> omega
  | inf s =>
    cases y with
    | fin t n => have := n.isLt; cases s <;> cases t <;> simp [F32.pattern] at h <;> omega
    | inf t => cases s <;> cases t <;> simp [F32.pattern] at h ⊢
    | nan t k => have := k.isLt; cases s <;> cases t <;> simp [F32.pattern] at h <;> omega
  | nan s k =>
    have := k.isLt
    cases y with
    | fin t n => have := n.isLt; cases s <;> cases t <;> simp [F32.pattern] at h <;> omega
    | inf t => cases s <;> cases t <;> simp [F32.pattern] at h <;> omega
    | nan t l => have := l.isLt; cases s <;> cases t <;> simp [F32.pattern, Fin.ext_iff] at h ⊢ <;> omega

/-- Every value is the value of its own bit pattern. -/
@[simp] theorem F32.ofBits_toBits (x : F32) : F32.ofBits x.toBits = x :=
  F32.pattern_injective (by rw [F32.pattern_ofBits, F32.toNat_toBits])

/-- A bit pattern is stored and returned unchanged. -/
@[simp] theorem F32.toBits_ofBits (w : Word) : (F32.ofBits w).toBits = w := by
  apply BitVec.eq_of_toNat_eq
  rw [F32.toNat_toBits, F32.pattern_ofBits]

/-! ### Sign operations -/

@[simp] theorem F32.neg_neg (x : F32) : x.neg.neg = x := by cases x <;> simp [F32.neg]

@[simp] theorem F32.isNaN_neg (x : F32) : x.neg.isNaN = x.isNaN := by cases x <;> rfl

@[simp] theorem F32.isNaN_abs (x : F32) : x.abs.isNaN = x.isNaN := by cases x <;> rfl

/-! ### The order -/

theorem F32.rank_eq_none {x : F32} : x.rank = none ↔ x.isNaN = true := by cases x <;> simp [F32.rank, F32.isNaN]

theorem F32.rank_some {x : F32} (h : x.isNaN = false) : ∃ r, x.rank = some r := by
  cases x with
  | fin s m => exact ⟨_, rfl⟩
  | inf s => exact ⟨_, rfl⟩
  | nan s k => simp [F32.isNaN] at h

theorem F32.lt_iff {a b : F32} : a.lt b = true ↔ ∃ x y, a.rank = some x ∧ b.rank = some y ∧ x < y := by
  unfold F32.lt
  cases a.rank <;> cases b.rank <;> simp

theorem F32.le_iff {a b : F32} : a.le b = true ↔ ∃ x y, a.rank = some x ∧ b.rank = some y ∧ x ≤ y := by
  unfold F32.le
  cases a.rank <;> cases b.rank <;> simp

@[simp] theorem F32.lt_irrefl (a : F32) : a.lt a = false := by
  unfold F32.lt; cases a.rank <;> simp

theorem F32.le_refl {a : F32} (h : a.isNaN = false) : a.le a = true := by
  obtain ⟨r, hr⟩ := F32.rank_some h
  exact F32.le_iff.mpr ⟨r, r, hr, hr, Int.le_refl r⟩

theorem F32.le_of_lt {a b : F32} (h : a.lt b = true) : a.le b = true := by
  obtain ⟨x, y, hx, hy, hxy⟩ := F32.lt_iff.mp h
  exact F32.le_iff.mpr ⟨x, y, hx, hy, Int.le_of_lt hxy⟩

theorem F32.not_lt_of_le {a b : F32} (h : a.le b = true) : b.lt a = false := by
  obtain ⟨x, y, hx, hy, hxy⟩ := F32.le_iff.mp h
  simp [F32.lt, hx, hy]; omega

theorem F32.le_of_not_lt {a b : F32} (ha : a.isNaN = false) (hb : b.isNaN = false) (h : b.lt a = false) :
    a.le b = true := by
  obtain ⟨x, hx⟩ := F32.rank_some ha
  obtain ⟨y, hy⟩ := F32.rank_some hb
  simp [F32.lt, hx, hy] at h
  simp [F32.le, hx, hy, h]

theorem F32.lt_of_not_le {a b : F32} (ha : a.isNaN = false) (hb : b.isNaN = false) (h : a.le b = false) :
    b.lt a = true := by
  obtain ⟨x, hx⟩ := F32.rank_some ha
  obtain ⟨y, hy⟩ := F32.rank_some hb
  simp [F32.le, hx, hy] at h
  simp [F32.lt, hx, hy, h]

theorem F32.lt_of_lt_of_le {a b c : F32} (h1 : a.lt b = true) (h2 : b.le c = true) : a.lt c = true := by
  obtain ⟨x, y, hx, hy, hxy⟩ := F32.lt_iff.mp h1
  obtain ⟨y', z, hy', hz, hyz⟩ := F32.le_iff.mp h2
  rw [hy] at hy'
  cases hy'
  exact F32.lt_iff.mpr ⟨x, z, hx, hz, by omega⟩

theorem F32.lt_of_le_of_lt {a b c : F32} (h1 : a.le b = true) (h2 : b.lt c = true) : a.lt c = true := by
  obtain ⟨x, y, hx, hy, hxy⟩ := F32.le_iff.mp h1
  obtain ⟨y', z, hy', hz, hyz⟩ := F32.lt_iff.mp h2
  rw [hy] at hy'
  cases hy'
  exact F32.lt_iff.mpr ⟨x, z, hx, hz, by omega⟩

theorem F32.le_trans {a b c : F32} (h1 : a.le b = true) (h2 : b.le c = true) : a.le c = true := by
  obtain ⟨x, y, hx, hy, hxy⟩ := F32.le_iff.mp h1
  obtain ⟨y', z, hy', hz, hyz⟩ := F32.le_iff.mp h2
  rw [hy] at hy'
  cases hy'
  exact F32.le_iff.mpr ⟨x, z, hx, hz, by omega⟩

theorem F32.isNaN_of_lt {a b : F32} (h : a.lt b = true) : a.isNaN = false ∧ b.isNaN = false := by
  obtain ⟨x, y, hx, hy, _⟩ := F32.lt_iff.mp h
  constructor
  · cases a <;> simp_all [F32.rank, F32.isNaN]
  · cases b <;> simp_all [F32.rank, F32.isNaN]

theorem F32.isNaN_of_le {a b : F32} (h : a.le b = true) : a.isNaN = false ∧ b.isNaN = false := by
  obtain ⟨x, y, hx, hy, _⟩ := F32.le_iff.mp h
  constructor
  · cases a <;> simp_all [F32.rank, F32.isNaN]
  · cases b <;> simp_all [F32.rank, F32.isNaN]

/-! ### Rounding -/

/-- The last step of `roundCode`: the nearest integer to `n / d`, ties to even. -/
def F32.roundStep (n d : Nat) : Nat :=
  if d < 2 * (n % d) ∨ (2 * (n % d) = d ∧ n / d % 2 = 1) then n / d + 1 else n / d

theorem F32.roundStep_exact {n d : Nat} (hd : 0 < d) : F32.roundStep (n * d) d = n := by
  unfold F32.roundStep
  rw [Nat.mul_div_cancel _ hd, Nat.mul_mod_left, if_neg (by omega)]

theorem F32.roundStep_mono {a b d : Nat} (h : a ≤ b) : F32.roundStep a d ≤ F32.roundStep b d := by
  unfold F32.roundStep
  have ha := Nat.div_add_mod a d
  have hb := Nat.div_add_mod b d
  have hq : a / d ≤ b / d := Nat.div_le_div_right h
  rcases Nat.lt_or_ge (a / d) (b / d) with hlt | hge
  · split <;> split <;> omega
  · have heq : a / d = b / d := Nat.le_antisymm hq hge
    rw [heq] at ha ⊢
    have hr : a % d ≤ b % d := by omega
    split <;> split <;> omega

/-- The exponent step of `roundCode`. -/
def F32.expStep (num den : Nat) : Nat :=
  if num / den < 16777216 then 0 else (num / den).log2 - 23

theorem F32.expStep_mono {a b den : Nat} (h : a ≤ b) : F32.expStep a den ≤ F32.expStep b den := by
  unfold F32.expStep
  have hq : a / den ≤ b / den := Nat.div_le_div_right h
  split
  · exact Nat.zero_le _
  · rename_i h1
    have h2 : ¬ b / den < 16777216 := by omega
    rw [if_neg h2]
    have : (a / den).log2 ≤ (b / den).log2 := by
      rw [Nat.le_log2 (by omega)]
      exact Nat.le_trans (Nat.log2_self_le (by omega)) hq
    omega

/-- The code is the exponent step's offset plus the rounded significand. -/
theorem F32.roundCode_eq (num den : Nat) :
    F32.roundCode num den = F32.expStep num den * 8388608 + F32.roundStep num (den * 2 ^ F32.expStep num den) := rfl

theorem F32.expStep_upper (num den : Nat) : num / (den * 2 ^ F32.expStep num den) < 16777216 := by
  unfold F32.expStep
  split
  · rename_i h; simpa using h
  · rename_i h
    rw [← Nat.div_div_eq_div_mul, Nat.div_lt_iff_lt_mul (by positivity)]
    have h1 : num / den < 2 ^ ((num / den).log2 + 1) := Nat.lt_log2_self
    have h2 : 24 ≤ (num / den).log2 := by
      rw [Nat.le_log2 (by omega)]; omega
    calc num / den < 2 ^ ((num / den).log2 + 1) := h1
      _ = 16777216 * 2 ^ ((num / den).log2 - 23) := by
        rw [show (16777216 : Nat) = 2 ^ 24 by norm_num, ← pow_add]; congr 1; omega

theorem F32.expStep_lower (num den : Nat) (h : 0 < F32.expStep num den) :
    8388608 ≤ num / (den * 2 ^ F32.expStep num den) := by
  unfold F32.expStep at h ⊢
  split at h
  · omega
  · rename_i h1
    rw [if_neg h1, ← Nat.div_div_eq_div_mul, Nat.le_div_iff_mul_le (by positivity)]
    have h2 : 2 ^ (num / den).log2 ≤ num / den := Nat.log2_self_le (by omega)
    calc 8388608 * 2 ^ ((num / den).log2 - 23) = 2 ^ (num / den).log2 := by
          rw [show (8388608 : Nat) = 2 ^ 23 by norm_num, ← pow_add]; congr 1; omega
      _ ≤ num / den := h2

/-- Rounding is monotone. -/
theorem F32.roundCode_mono {a b den : Nat} (h : a ≤ b) : F32.roundCode a den ≤ F32.roundCode b den := by
  rw [F32.roundCode_eq, F32.roundCode_eq]
  have hx := F32.expStep_mono (den := den) h
  rcases Nat.lt_or_ge (F32.expStep a den) (F32.expStep b den) with hlt | hge
  · have h1 := F32.expStep_upper a den
    have h2 := F32.expStep_lower b den (by omega)
    unfold F32.roundStep
    split <;> split <;> omega
  · have heq : F32.expStep a den = F32.expStep b den := Nat.le_antisymm hx hge
    rw [heq]
    exact Nat.add_le_add_left (F32.roundStep_mono h) _

/-- The exponent step of a representable value is read off its code. -/
theorem F32.expStep_units {m den : Nat} (hd : 0 < den) :
    F32.expStep (F32.units m * den) den = m / 8388608 - 1 := by
  unfold F32.expStep F32.units
  rw [Nat.mul_div_cancel _ hd]
  have hf := Nat.mod_lt m (show 0 < 8388608 by decide)
  dsimp only
  generalize m % 8388608 = f at *
  split
  · rename_i he; rw [if_pos (by omega), he]
  · generalize m / 8388608 = e at *
    obtain ⟨k, rfl⟩ : ∃ k, e = k + 1 := ⟨e - 1, by omega⟩
    rw [Nat.add_sub_cancel]
    have hp : 0 < 2 ^ k := by positivity
    rcases Nat.eq_zero_or_pos k with rfl | hk
    · rw [if_pos (by omega)]
    · have hpow : 2 ^ 1 ≤ 2 ^ k := Nat.pow_le_pow_right (by decide) hk
      have hlog : ((8388608 + f) * 2 ^ k).log2 = 23 + k := by
        rw [Nat.log2_eq_iff (by positivity)]
        constructor
        · rw [pow_add]; nlinarith
        · rw [show 23 + k + 1 = 24 + k by ring, pow_add]; nlinarith
      rw [if_neg (by nlinarith), hlog, Nat.add_sub_cancel_left]

/-- A value that is representable is its own rounding. -/
theorem F32.roundCode_units {m den : Nat} (hd : 0 < den) : F32.roundCode (F32.units m * den) den = m := by
  rw [F32.roundCode_eq, F32.expStep_units hd]
  have hm := Nat.div_add_mod m 8388608
  unfold F32.units
  dsimp only
  split
  · rename_i he
    simp only [he, Nat.zero_sub, Nat.pow_zero, Nat.mul_one, Nat.zero_mul, Nat.zero_add, F32.roundStep_exact hd]
  · rw [Nat.mul_assoc, Nat.mul_comm (2 ^ _) den, F32.roundStep_exact (by positivity)]; omega

/-- A rational that does not exceed a representable value rounds to at most that value's code. -/
theorem F32.roundCode_le {num den m : Nat} (hd : 0 < den) (h : num ≤ F32.units m * den) :
    F32.roundCode num den ≤ m := by
  calc F32.roundCode num den ≤ F32.roundCode (F32.units m * den) den := F32.roundCode_mono h
    _ = m := F32.roundCode_units hd

/-- A rational that is not below a representable value rounds to at least that value's code. -/
theorem F32.le_roundCode {num den m : Nat} (hd : 0 < den) (h : F32.units m * den ≤ num) :
    m ≤ F32.roundCode num den := by
  calc m = F32.roundCode (F32.units m * den) den := (F32.roundCode_units hd).symm
    _ ≤ F32.roundCode num den := F32.roundCode_mono h

/-- The exact value is monotone in the code. -/
theorem F32.units_mono {m n : Nat} (h : m ≤ n) : F32.units m ≤ F32.units n := by
  by_contra hlt
  have hlt' : F32.units n ≤ F32.units m := by omega
  have h1 := F32.roundCode_mono (den := 1) hlt'
  have h2 := F32.roundCode_units (m := m) (den := 1) (by decide)
  have h3 := F32.roundCode_units (m := n) (den := 1) (by decide)
  simp only [Nat.mul_one] at h2 h3
  rw [h2, h3] at h1
  have : m = n := by omega
  subst this
  omega

/-- The exact value of a rounded code, from its exponent step and significand. -/
theorem F32.units_code {e r : Nat} (hr : r ≤ 16777216) (h : 0 < e → 8388608 ≤ r) :
    F32.units (e * 8388608 + r) = r * 2 ^ e := by
  unfold F32.units
  dsimp only
  rcases Nat.lt_or_ge r 8388608 with h1 | h1
  · have he : e = 0 := by omega
    subst he
    rw [if_pos (by omega)]; simp
  · rcases Nat.lt_or_ge r 16777216 with h2 | h2
    · have e1 : (e * 8388608 + r) / 8388608 = e + 1 := by omega
      have e2 : (e * 8388608 + r) % 8388608 = r - 8388608 := by omega
      rw [e1, e2, if_neg (by omega), Nat.add_sub_cancel, Nat.add_sub_cancel' h1]
    · have e1 : (e * 8388608 + r) / 8388608 = e + 2 := by omega
      have e2 : (e * 8388608 + r) % 8388608 = 0 := by omega
      have e3 : r = 16777216 := by omega
      rw [e1, e2, if_neg (by omega), e3, show e + 2 - 1 = e + 1 by omega, Nat.pow_succ]
      omega

/-- What rounding to nearest adds: at most a part in 2^24 of a normal result, and at most half the least unit of a smaller one. -/
theorem F32.units_roundCode_le {num den : Nat} (hd : 0 < den) :
    F32.units (F32.roundCode num den) ≤ 16777216 ∨
      F32.units (F32.roundCode num den) * den * 16777216 ≤ num * 16777217 := by
  rw [F32.roundCode_eq]
  have hu := F32.expStep_upper num den
  have hl := F32.expStep_lower num den
  have hd2 : 0 < den * 2 ^ F32.expStep num den := by positivity
  have hm := Nat.div_add_mod num (den * 2 ^ F32.expStep num den)
  have hlt := Nat.mod_lt num hd2
  generalize F32.expStep num den = e at *
  have hr : F32.roundStep num (den * 2 ^ e) = num / (den * 2 ^ e) ∨
      F32.roundStep num (den * 2 ^ e) = num / (den * 2 ^ e) + 1 := by
    unfold F32.roundStep; split <;> simp
  have hb : 2 * (F32.roundStep num (den * 2 ^ e) * (den * 2 ^ e)) ≤ 2 * num + den * 2 ^ e := by
    unfold F32.roundStep
    rw [Nat.mul_comm (den * 2 ^ e) (num / _)] at hm
    split
    · rename_i hc
      rw [Nat.add_mul]; omega
    · omega
  generalize F32.roundStep num (den * 2 ^ e) = r at *
  rw [F32.units_code (by omega) (fun h => by have := hl h; omega)]
  rcases Nat.eq_zero_or_pos e with he | he
  · subst he; left; omega
  · right
    have h3 := hl he
    have h4 : 8388608 * (den * 2 ^ e) ≤ num := by
      calc _ ≤ num / (den * 2 ^ e) * (den * 2 ^ e) := Nat.mul_le_mul_right _ h3
        _ ≤ num := Nat.div_mul_le_self _ _
    have h5 : r * 2 ^ e * den = r * (den * 2 ^ e) := by ring
    rw [h5]; omega

/-- A magnitude below an integer is below it by at least a part in 2^24 of itself. -/
theorem F32.units_gap {m n : Nat} (hn : n ≤ 16777216) (h : F32.units m < n * 2 ^ 149) :
    F32.units m * 16777217 ≤ n * 2 ^ 149 * 16777216 := by
  obtain ⟨k, r, hr, hu, hk⟩ : ∃ k r, r < 16777216 ∧ F32.units m = r * 2 ^ k ∧ (k = 0 ∨ 8388608 ≤ r) := by
    unfold F32.units
    dsimp only
    split
    · exact ⟨0, m, by omega, by simp, .inl rfl⟩
    · exact ⟨m / 8388608 - 1, 8388608 + m % 8388608, by omega, rfl, .inr (by omega)⟩
  rw [hu] at h ⊢
  have hk149 : k ≤ 149 := by
    by_contra hc
    have h1 : 2 ^ 150 ≤ 2 ^ k := Nat.pow_le_pow_right (by decide) (by omega)
    have h2 := Nat.mul_le_mul (show 8388608 ≤ r by omega) h1
    omega
  have he : n * 2 ^ 149 = n * 2 ^ (149 - k) * 2 ^ k := by rw [Nat.mul_assoc, ← Nat.pow_add, Nat.sub_add_cancel hk149]
  rw [he] at h ⊢
  have h1 : r < n * 2 ^ (149 - k) := Nat.lt_of_mul_lt_mul_right h
  generalize n * 2 ^ (149 - k) = N at *
  have h2 : r * 16777217 ≤ N * 16777216 := by omega
  calc r * 2 ^ k * 16777217 = r * 16777217 * 2 ^ k := by ring
    _ ≤ N * 16777216 * 2 ^ k := Nat.mul_le_mul_right _ h2
    _ = _ := by ring

end Sys2Proof
end

