-- ==== Sys2Proof/Laws/State.lean ====
section
/-! SUPPORT. One lemma per field per update of `State`, true by `rfl`, so that no proof unfolds a record update. -/

namespace Sys2Proof.Machine

section
variable (s : State) (v : SampleBlock)
@[simp] theorem State.setBlk_par : (s.setBlk v).par = s.par := rfl
@[simp] theorem State.setBlk_blk : (s.setBlk v).blk = v := rfl
@[simp] theorem State.setBlk_seq : (s.setBlk v).seq = s.seq := rfl
@[simp] theorem State.setBlk_diag : (s.setBlk v).diag = s.diag := rfl
@[simp] theorem State.setBlk_inp : (s.setBlk v).inp = s.inp := rfl
@[simp] theorem State.setBlk_lat : (s.setBlk v).lat = s.lat := rfl
@[simp] theorem State.setBlk_cfg : (s.setBlk v).cfg = s.cfg := rfl
@[simp] theorem State.setBlk_agc : (s.setBlk v).agc = s.agc := rfl
@[simp] theorem State.setBlk_sam : (s.setBlk v).sam = s.sam := rfl
@[simp] theorem State.setBlk_nco : (s.setBlk v).nco = s.nco := rfl
@[simp] theorem State.setBlk_queues : (s.setBlk v).queues = s.queues := rfl
@[simp] theorem State.setBlk_ext : (s.setBlk v).ext = s.ext := rfl
@[simp] theorem State.setBlk_host : (s.setBlk v).host = s.host := rfl
@[simp] theorem State.setBlk_sched : (s.setBlk v).sched = s.sched := rfl
@[simp] theorem State.setBlk_marks : (s.setBlk v).marks = s.marks := rfl
end

section
variable (s : State) (v : Seq)
@[simp] theorem State.setSeq_par : (s.setSeq v).par = s.par := rfl
@[simp] theorem State.setSeq_blk : (s.setSeq v).blk = s.blk := rfl
@[simp] theorem State.setSeq_seq : (s.setSeq v).seq = v := rfl
@[simp] theorem State.setSeq_diag : (s.setSeq v).diag = s.diag := rfl
@[simp] theorem State.setSeq_inp : (s.setSeq v).inp = s.inp := rfl
@[simp] theorem State.setSeq_lat : (s.setSeq v).lat = s.lat := rfl
@[simp] theorem State.setSeq_cfg : (s.setSeq v).cfg = s.cfg := rfl
@[simp] theorem State.setSeq_agc : (s.setSeq v).agc = s.agc := rfl
@[simp] theorem State.setSeq_sam : (s.setSeq v).sam = s.sam := rfl
@[simp] theorem State.setSeq_nco : (s.setSeq v).nco = s.nco := rfl
@[simp] theorem State.setSeq_queues : (s.setSeq v).queues = s.queues := rfl
@[simp] theorem State.setSeq_ext : (s.setSeq v).ext = s.ext := rfl
@[simp] theorem State.setSeq_host : (s.setSeq v).host = s.host := rfl
@[simp] theorem State.setSeq_sched : (s.setSeq v).sched = s.sched := rfl
@[simp] theorem State.setSeq_marks : (s.setSeq v).marks = s.marks := rfl
end

section
variable (s : State) (v : List DiagEntry)
@[simp] theorem State.setDiag_par : (s.setDiag v).par = s.par := rfl
@[simp] theorem State.setDiag_blk : (s.setDiag v).blk = s.blk := rfl
@[simp] theorem State.setDiag_seq : (s.setDiag v).seq = s.seq := rfl
@[simp] theorem State.setDiag_diag : (s.setDiag v).diag = v := rfl
@[simp] theorem State.setDiag_inp : (s.setDiag v).inp = s.inp := rfl
@[simp] theorem State.setDiag_lat : (s.setDiag v).lat = s.lat := rfl
@[simp] theorem State.setDiag_cfg : (s.setDiag v).cfg = s.cfg := rfl
@[simp] theorem State.setDiag_agc : (s.setDiag v).agc = s.agc := rfl
@[simp] theorem State.setDiag_sam : (s.setDiag v).sam = s.sam := rfl
@[simp] theorem State.setDiag_nco : (s.setDiag v).nco = s.nco := rfl
@[simp] theorem State.setDiag_queues : (s.setDiag v).queues = s.queues := rfl
@[simp] theorem State.setDiag_ext : (s.setDiag v).ext = s.ext := rfl
@[simp] theorem State.setDiag_host : (s.setDiag v).host = s.host := rfl
@[simp] theorem State.setDiag_sched : (s.setDiag v).sched = s.sched := rfl
@[simp] theorem State.setDiag_marks : (s.setDiag v).marks = s.marks := rfl
end

section
variable (s : State) (v : InPorts)
@[simp] theorem State.setInp_par : (s.setInp v).par = s.par := rfl
@[simp] theorem State.setInp_blk : (s.setInp v).blk = s.blk := rfl
@[simp] theorem State.setInp_seq : (s.setInp v).seq = s.seq := rfl
@[simp] theorem State.setInp_diag : (s.setInp v).diag = s.diag := rfl
@[simp] theorem State.setInp_inp : (s.setInp v).inp = v := rfl
@[simp] theorem State.setInp_lat : (s.setInp v).lat = s.lat := rfl
@[simp] theorem State.setInp_cfg : (s.setInp v).cfg = s.cfg := rfl
@[simp] theorem State.setInp_agc : (s.setInp v).agc = s.agc := rfl
@[simp] theorem State.setInp_sam : (s.setInp v).sam = s.sam := rfl
@[simp] theorem State.setInp_nco : (s.setInp v).nco = s.nco := rfl
@[simp] theorem State.setInp_queues : (s.setInp v).queues = s.queues := rfl
@[simp] theorem State.setInp_ext : (s.setInp v).ext = s.ext := rfl
@[simp] theorem State.setInp_host : (s.setInp v).host = s.host := rfl
@[simp] theorem State.setInp_sched : (s.setInp v).sched = s.sched := rfl
@[simp] theorem State.setInp_marks : (s.setInp v).marks = s.marks := rfl
end

section
variable (s : State) (v : Ports)
@[simp] theorem State.setLat_par : (s.setLat v).par = s.par := rfl
@[simp] theorem State.setLat_blk : (s.setLat v).blk = s.blk := rfl
@[simp] theorem State.setLat_seq : (s.setLat v).seq = s.seq := rfl
@[simp] theorem State.setLat_diag : (s.setLat v).diag = s.diag := rfl
@[simp] theorem State.setLat_inp : (s.setLat v).inp = s.inp := rfl
@[simp] theorem State.setLat_lat : (s.setLat v).lat = v := rfl
@[simp] theorem State.setLat_cfg : (s.setLat v).cfg = s.cfg := rfl
@[simp] theorem State.setLat_agc : (s.setLat v).agc = s.agc := rfl
@[simp] theorem State.setLat_sam : (s.setLat v).sam = s.sam := rfl
@[simp] theorem State.setLat_nco : (s.setLat v).nco = s.nco := rfl
@[simp] theorem State.setLat_queues : (s.setLat v).queues = s.queues := rfl
@[simp] theorem State.setLat_ext : (s.setLat v).ext = s.ext := rfl
@[simp] theorem State.setLat_host : (s.setLat v).host = s.host := rfl
@[simp] theorem State.setLat_sched : (s.setLat v).sched = s.sched := rfl
@[simp] theorem State.setLat_marks : (s.setLat v).marks = s.marks := rfl
end

section
variable (s : State) (v : Cfg)
@[simp] theorem State.setCfg_par : (s.setCfg v).par = s.par := rfl
@[simp] theorem State.setCfg_blk : (s.setCfg v).blk = s.blk := rfl
@[simp] theorem State.setCfg_seq : (s.setCfg v).seq = s.seq := rfl
@[simp] theorem State.setCfg_diag : (s.setCfg v).diag = s.diag := rfl
@[simp] theorem State.setCfg_inp : (s.setCfg v).inp = s.inp := rfl
@[simp] theorem State.setCfg_lat : (s.setCfg v).lat = s.lat := rfl
@[simp] theorem State.setCfg_cfg : (s.setCfg v).cfg = v := rfl
@[simp] theorem State.setCfg_agc : (s.setCfg v).agc = s.agc := rfl
@[simp] theorem State.setCfg_sam : (s.setCfg v).sam = s.sam := rfl
@[simp] theorem State.setCfg_nco : (s.setCfg v).nco = s.nco := rfl
@[simp] theorem State.setCfg_queues : (s.setCfg v).queues = s.queues := rfl
@[simp] theorem State.setCfg_ext : (s.setCfg v).ext = s.ext := rfl
@[simp] theorem State.setCfg_host : (s.setCfg v).host = s.host := rfl
@[simp] theorem State.setCfg_sched : (s.setCfg v).sched = s.sched := rfl
@[simp] theorem State.setCfg_marks : (s.setCfg v).marks = s.marks := rfl
end

section
variable (s : State) (v : AgcState)
@[simp] theorem State.setAgc_par : (s.setAgc v).par = s.par := rfl
@[simp] theorem State.setAgc_blk : (s.setAgc v).blk = s.blk := rfl
@[simp] theorem State.setAgc_seq : (s.setAgc v).seq = s.seq := rfl
@[simp] theorem State.setAgc_diag : (s.setAgc v).diag = s.diag := rfl
@[simp] theorem State.setAgc_inp : (s.setAgc v).inp = s.inp := rfl
@[simp] theorem State.setAgc_lat : (s.setAgc v).lat = s.lat := rfl
@[simp] theorem State.setAgc_cfg : (s.setAgc v).cfg = s.cfg := rfl
@[simp] theorem State.setAgc_agc : (s.setAgc v).agc = v := rfl
@[simp] theorem State.setAgc_sam : (s.setAgc v).sam = s.sam := rfl
@[simp] theorem State.setAgc_nco : (s.setAgc v).nco = s.nco := rfl
@[simp] theorem State.setAgc_queues : (s.setAgc v).queues = s.queues := rfl
@[simp] theorem State.setAgc_ext : (s.setAgc v).ext = s.ext := rfl
@[simp] theorem State.setAgc_host : (s.setAgc v).host = s.host := rfl
@[simp] theorem State.setAgc_sched : (s.setAgc v).sched = s.sched := rfl
@[simp] theorem State.setAgc_marks : (s.setAgc v).marks = s.marks := rfl
end

section
variable (s : State) (v : SamState)
@[simp] theorem State.setSam_par : (s.setSam v).par = s.par := rfl
@[simp] theorem State.setSam_blk : (s.setSam v).blk = s.blk := rfl
@[simp] theorem State.setSam_seq : (s.setSam v).seq = s.seq := rfl
@[simp] theorem State.setSam_diag : (s.setSam v).diag = s.diag := rfl
@[simp] theorem State.setSam_inp : (s.setSam v).inp = s.inp := rfl
@[simp] theorem State.setSam_lat : (s.setSam v).lat = s.lat := rfl
@[simp] theorem State.setSam_cfg : (s.setSam v).cfg = s.cfg := rfl
@[simp] theorem State.setSam_agc : (s.setSam v).agc = s.agc := rfl
@[simp] theorem State.setSam_sam : (s.setSam v).sam = v := rfl
@[simp] theorem State.setSam_nco : (s.setSam v).nco = s.nco := rfl
@[simp] theorem State.setSam_queues : (s.setSam v).queues = s.queues := rfl
@[simp] theorem State.setSam_ext : (s.setSam v).ext = s.ext := rfl
@[simp] theorem State.setSam_host : (s.setSam v).host = s.host := rfl
@[simp] theorem State.setSam_sched : (s.setSam v).sched = s.sched := rfl
@[simp] theorem State.setSam_marks : (s.setSam v).marks = s.marks := rfl
end

section
variable (s : State) (v : F32)
@[simp] theorem State.setNco_par : (s.setNco v).par = s.par := rfl
@[simp] theorem State.setNco_blk : (s.setNco v).blk = s.blk := rfl
@[simp] theorem State.setNco_seq : (s.setNco v).seq = s.seq := rfl
@[simp] theorem State.setNco_diag : (s.setNco v).diag = s.diag := rfl
@[simp] theorem State.setNco_inp : (s.setNco v).inp = s.inp := rfl
@[simp] theorem State.setNco_lat : (s.setNco v).lat = s.lat := rfl
@[simp] theorem State.setNco_cfg : (s.setNco v).cfg = s.cfg := rfl
@[simp] theorem State.setNco_agc : (s.setNco v).agc = s.agc := rfl
@[simp] theorem State.setNco_sam : (s.setNco v).sam = s.sam := rfl
@[simp] theorem State.setNco_nco : (s.setNco v).nco = v := rfl
@[simp] theorem State.setNco_queues : (s.setNco v).queues = s.queues := rfl
@[simp] theorem State.setNco_ext : (s.setNco v).ext = s.ext := rfl
@[simp] theorem State.setNco_host : (s.setNco v).host = s.host := rfl
@[simp] theorem State.setNco_sched : (s.setNco v).sched = s.sched := rfl
@[simp] theorem State.setNco_marks : (s.setNco v).marks = s.marks := rfl
end

section
variable (s : State) (v : Queues)
@[simp] theorem State.setQueues_par : (s.setQueues v).par = s.par := rfl
@[simp] theorem State.setQueues_blk : (s.setQueues v).blk = s.blk := rfl
@[simp] theorem State.setQueues_seq : (s.setQueues v).seq = s.seq := rfl
@[simp] theorem State.setQueues_diag : (s.setQueues v).diag = s.diag := rfl
@[simp] theorem State.setQueues_inp : (s.setQueues v).inp = s.inp := rfl
@[simp] theorem State.setQueues_lat : (s.setQueues v).lat = s.lat := rfl
@[simp] theorem State.setQueues_cfg : (s.setQueues v).cfg = s.cfg := rfl
@[simp] theorem State.setQueues_agc : (s.setQueues v).agc = s.agc := rfl
@[simp] theorem State.setQueues_sam : (s.setQueues v).sam = s.sam := rfl
@[simp] theorem State.setQueues_nco : (s.setQueues v).nco = s.nco := rfl
@[simp] theorem State.setQueues_queues : (s.setQueues v).queues = v := rfl
@[simp] theorem State.setQueues_ext : (s.setQueues v).ext = s.ext := rfl
@[simp] theorem State.setQueues_host : (s.setQueues v).host = s.host := rfl
@[simp] theorem State.setQueues_sched : (s.setQueues v).sched = s.sched := rfl
@[simp] theorem State.setQueues_marks : (s.setQueues v).marks = s.marks := rfl
end

section
variable (s : State) (v : ExtPort)
@[simp] theorem State.setExt_par : (s.setExt v).par = s.par := rfl
@[simp] theorem State.setExt_blk : (s.setExt v).blk = s.blk := rfl
@[simp] theorem State.setExt_seq : (s.setExt v).seq = s.seq := rfl
@[simp] theorem State.setExt_diag : (s.setExt v).diag = s.diag := rfl
@[simp] theorem State.setExt_inp : (s.setExt v).inp = s.inp := rfl
@[simp] theorem State.setExt_lat : (s.setExt v).lat = s.lat := rfl
@[simp] theorem State.setExt_cfg : (s.setExt v).cfg = s.cfg := rfl
@[simp] theorem State.setExt_agc : (s.setExt v).agc = s.agc := rfl
@[simp] theorem State.setExt_sam : (s.setExt v).sam = s.sam := rfl
@[simp] theorem State.setExt_nco : (s.setExt v).nco = s.nco := rfl
@[simp] theorem State.setExt_queues : (s.setExt v).queues = s.queues := rfl
@[simp] theorem State.setExt_ext : (s.setExt v).ext = v := rfl
@[simp] theorem State.setExt_host : (s.setExt v).host = s.host := rfl
@[simp] theorem State.setExt_sched : (s.setExt v).sched = s.sched := rfl
@[simp] theorem State.setExt_marks : (s.setExt v).marks = s.marks := rfl
end

section
variable (s : State) (v : HostPort)
@[simp] theorem State.setHost_par : (s.setHost v).par = s.par := rfl
@[simp] theorem State.setHost_blk : (s.setHost v).blk = s.blk := rfl
@[simp] theorem State.setHost_seq : (s.setHost v).seq = s.seq := rfl
@[simp] theorem State.setHost_diag : (s.setHost v).diag = s.diag := rfl
@[simp] theorem State.setHost_inp : (s.setHost v).inp = s.inp := rfl
@[simp] theorem State.setHost_lat : (s.setHost v).lat = s.lat := rfl
@[simp] theorem State.setHost_cfg : (s.setHost v).cfg = s.cfg := rfl
@[simp] theorem State.setHost_agc : (s.setHost v).agc = s.agc := rfl
@[simp] theorem State.setHost_sam : (s.setHost v).sam = s.sam := rfl
@[simp] theorem State.setHost_nco : (s.setHost v).nco = s.nco := rfl
@[simp] theorem State.setHost_queues : (s.setHost v).queues = s.queues := rfl
@[simp] theorem State.setHost_ext : (s.setHost v).ext = s.ext := rfl
@[simp] theorem State.setHost_host : (s.setHost v).host = v := rfl
@[simp] theorem State.setHost_sched : (s.setHost v).sched = s.sched := rfl
@[simp] theorem State.setHost_marks : (s.setHost v).marks = s.marks := rfl
end

section
variable (s : State) (v : List Move)
@[simp] theorem State.setSched_par : (s.setSched v).par = s.par := rfl
@[simp] theorem State.setSched_blk : (s.setSched v).blk = s.blk := rfl
@[simp] theorem State.setSched_seq : (s.setSched v).seq = s.seq := rfl
@[simp] theorem State.setSched_diag : (s.setSched v).diag = s.diag := rfl
@[simp] theorem State.setSched_inp : (s.setSched v).inp = s.inp := rfl
@[simp] theorem State.setSched_lat : (s.setSched v).lat = s.lat := rfl
@[simp] theorem State.setSched_cfg : (s.setSched v).cfg = s.cfg := rfl
@[simp] theorem State.setSched_agc : (s.setSched v).agc = s.agc := rfl
@[simp] theorem State.setSched_sam : (s.setSched v).sam = s.sam := rfl
@[simp] theorem State.setSched_nco : (s.setSched v).nco = s.nco := rfl
@[simp] theorem State.setSched_queues : (s.setSched v).queues = s.queues := rfl
@[simp] theorem State.setSched_ext : (s.setSched v).ext = s.ext := rfl
@[simp] theorem State.setSched_host : (s.setSched v).host = s.host := rfl
@[simp] theorem State.setSched_sched : (s.setSched v).sched = v := rfl
@[simp] theorem State.setSched_marks : (s.setSched v).marks = s.marks := rfl
end

section
variable (s : State) (v : List Mark)
@[simp] theorem State.setMarks_par : (s.setMarks v).par = s.par := rfl
@[simp] theorem State.setMarks_blk : (s.setMarks v).blk = s.blk := rfl
@[simp] theorem State.setMarks_seq : (s.setMarks v).seq = s.seq := rfl
@[simp] theorem State.setMarks_diag : (s.setMarks v).diag = s.diag := rfl
@[simp] theorem State.setMarks_inp : (s.setMarks v).inp = s.inp := rfl
@[simp] theorem State.setMarks_lat : (s.setMarks v).lat = s.lat := rfl
@[simp] theorem State.setMarks_cfg : (s.setMarks v).cfg = s.cfg := rfl
@[simp] theorem State.setMarks_agc : (s.setMarks v).agc = s.agc := rfl
@[simp] theorem State.setMarks_sam : (s.setMarks v).sam = s.sam := rfl
@[simp] theorem State.setMarks_nco : (s.setMarks v).nco = s.nco := rfl
@[simp] theorem State.setMarks_queues : (s.setMarks v).queues = s.queues := rfl
@[simp] theorem State.setMarks_ext : (s.setMarks v).ext = s.ext := rfl
@[simp] theorem State.setMarks_host : (s.setMarks v).host = s.host := rfl
@[simp] theorem State.setMarks_sched : (s.setMarks v).sched = s.sched := rfl
@[simp] theorem State.setMarks_marks : (s.setMarks v).marks = v := rfl
end

end Sys2Proof.Machine
end

