-- ==== Sys2Proof/Laws/Updates.lean ====
section
/-! SUPPORT. One lemma per field per derived update: what `advance`, `endPass`, `returns`, `raise`, `setSamples`, `mapSamples`,
`calls`, `resetSam`, `consume`, `atStage`, `markIf`, `samReentry`, `ask` and `passEnd` do to each field of `State`. -/

namespace Sys2Proof.Machine

section
variable (s : State)
@[simp] theorem State.advance_par : (s.advance).par = s.par := rfl
@[simp] theorem State.advance_blk : (s.advance).blk = s.blk := rfl
@[simp] theorem State.advance_seq : (s.advance).seq = { s.seq with sp := s.seq.sp + 1 } := rfl
@[simp] theorem State.advance_diag : (s.advance).diag = s.diag := rfl
@[simp] theorem State.advance_inp : (s.advance).inp = s.inp := rfl
@[simp] theorem State.advance_lat : (s.advance).lat = s.lat := rfl
@[simp] theorem State.advance_cfg : (s.advance).cfg = s.cfg := rfl
@[simp] theorem State.advance_agc : (s.advance).agc = s.agc := rfl
@[simp] theorem State.advance_sam : (s.advance).sam = s.sam := rfl
@[simp] theorem State.advance_nco : (s.advance).nco = s.nco := rfl
@[simp] theorem State.advance_queues : (s.advance).queues = s.queues := rfl
@[simp] theorem State.advance_ext : (s.advance).ext = s.ext := rfl
@[simp] theorem State.advance_host : (s.advance).host = s.host := rfl
@[simp] theorem State.advance_sched : (s.advance).sched = s.sched := rfl
@[simp] theorem State.advance_marks : (s.advance).marks = s.marks := rfl
end

section
variable (s : State)
@[simp] theorem State.endPass_par : (s.endPass).par = s.par := rfl
@[simp] theorem State.endPass_blk : (s.endPass).blk = s.blk := rfl
@[simp] theorem State.endPass_seq : (s.endPass).seq = { s.seq with pass := .idle, sp := 0 } := rfl
@[simp] theorem State.endPass_diag : (s.endPass).diag = s.diag := rfl
@[simp] theorem State.endPass_inp : (s.endPass).inp = s.inp := rfl
@[simp] theorem State.endPass_lat : (s.endPass).lat = s.lat := rfl
@[simp] theorem State.endPass_cfg : (s.endPass).cfg = s.cfg := rfl
@[simp] theorem State.endPass_agc : (s.endPass).agc = s.agc := rfl
@[simp] theorem State.endPass_sam : (s.endPass).sam = s.sam := rfl
@[simp] theorem State.endPass_nco : (s.endPass).nco = s.nco := rfl
@[simp] theorem State.endPass_queues : (s.endPass).queues = s.queues := rfl
@[simp] theorem State.endPass_ext : (s.endPass).ext = s.ext := rfl
@[simp] theorem State.endPass_host : (s.endPass).host = s.host := rfl
@[simp] theorem State.endPass_sched : (s.endPass).sched = s.sched := rfl
@[simp] theorem State.endPass_marks : (s.endPass).marks = s.marks := rfl
end

section
variable (s : State) (r : HostResult)
@[simp] theorem State.returns_par : (s.returns r).par = s.par := rfl
@[simp] theorem State.returns_blk : (s.returns r).blk = s.blk := rfl
@[simp] theorem State.returns_seq : (s.returns r).seq = s.seq := rfl
@[simp] theorem State.returns_diag : (s.returns r).diag = s.diag := rfl
@[simp] theorem State.returns_inp : (s.returns r).inp = s.inp := rfl
@[simp] theorem State.returns_lat : (s.returns r).lat = s.lat := rfl
@[simp] theorem State.returns_cfg : (s.returns r).cfg = s.cfg := rfl
@[simp] theorem State.returns_agc : (s.returns r).agc = s.agc := rfl
@[simp] theorem State.returns_sam : (s.returns r).sam = s.sam := rfl
@[simp] theorem State.returns_nco : (s.returns r).nco = s.nco := rfl
@[simp] theorem State.returns_queues : (s.returns r).queues = s.queues := rfl
@[simp] theorem State.returns_ext : (s.returns r).ext = s.ext := rfl
@[simp] theorem State.returns_host : (s.returns r).host = { s.host with result := r } := rfl
@[simp] theorem State.returns_sched : (s.returns r).sched = s.sched := rfl
@[simp] theorem State.returns_marks : (s.returns r).marks = s.marks := rfl
end

section
variable (s : State) (a : Anomaly) (n fs : Nat)
@[simp] theorem State.raise_par : (s.raise a n fs).par = s.par := rfl
@[simp] theorem State.raise_blk : (s.raise a n fs).blk = s.blk := rfl
@[simp] theorem State.raise_seq : (s.raise a n fs).seq = s.seq := rfl
@[simp] theorem State.raise_diag : (s.raise a n fs).diag = s.diag ++ [{ code := a.code, n := n, fs := fs }] := rfl
@[simp] theorem State.raise_inp : (s.raise a n fs).inp = s.inp := rfl
@[simp] theorem State.raise_lat : (s.raise a n fs).lat = s.lat := rfl
@[simp] theorem State.raise_cfg : (s.raise a n fs).cfg = s.cfg := rfl
@[simp] theorem State.raise_agc : (s.raise a n fs).agc = s.agc := rfl
@[simp] theorem State.raise_sam : (s.raise a n fs).sam = s.sam := rfl
@[simp] theorem State.raise_nco : (s.raise a n fs).nco = s.nco := rfl
@[simp] theorem State.raise_queues : (s.raise a n fs).queues = s.queues := rfl
@[simp] theorem State.raise_ext : (s.raise a n fs).ext = s.ext := rfl
@[simp] theorem State.raise_host : (s.raise a n fs).host = s.host := rfl
@[simp] theorem State.raise_sched : (s.raise a n fs).sched = s.sched := rfl
@[simp] theorem State.raise_marks : (s.raise a n fs).marks = s.marks := rfl
end

section
variable (s : State) (x : List Sample)
@[simp] theorem State.setSamples_par : (s.setSamples x).par = s.par := rfl
@[simp] theorem State.setSamples_blk : (s.setSamples x).blk = { s.blk with x := x } := rfl
@[simp] theorem State.setSamples_seq : (s.setSamples x).seq = s.seq := rfl
@[simp] theorem State.setSamples_diag : (s.setSamples x).diag = s.diag := rfl
@[simp] theorem State.setSamples_inp : (s.setSamples x).inp = s.inp := rfl
@[simp] theorem State.setSamples_lat : (s.setSamples x).lat = s.lat := rfl
@[simp] theorem State.setSamples_cfg : (s.setSamples x).cfg = s.cfg := rfl
@[simp] theorem State.setSamples_agc : (s.setSamples x).agc = s.agc := rfl
@[simp] theorem State.setSamples_sam : (s.setSamples x).sam = s.sam := rfl
@[simp] theorem State.setSamples_nco : (s.setSamples x).nco = s.nco := rfl
@[simp] theorem State.setSamples_queues : (s.setSamples x).queues = s.queues := rfl
@[simp] theorem State.setSamples_ext : (s.setSamples x).ext = s.ext := rfl
@[simp] theorem State.setSamples_host : (s.setSamples x).host = s.host := rfl
@[simp] theorem State.setSamples_sched : (s.setSamples x).sched = s.sched := rfl
@[simp] theorem State.setSamples_marks : (s.setSamples x).marks = s.marks := rfl
end

section
variable (s : State) (f : Sample → Sample)
@[simp] theorem State.mapSamples_par : (s.mapSamples f).par = s.par := rfl
@[simp] theorem State.mapSamples_blk : (s.mapSamples f).blk = { s.blk with x := s.blk.x.map f } := rfl
@[simp] theorem State.mapSamples_seq : (s.mapSamples f).seq = s.seq := rfl
@[simp] theorem State.mapSamples_diag : (s.mapSamples f).diag = s.diag := rfl
@[simp] theorem State.mapSamples_inp : (s.mapSamples f).inp = s.inp := rfl
@[simp] theorem State.mapSamples_lat : (s.mapSamples f).lat = s.lat := rfl
@[simp] theorem State.mapSamples_cfg : (s.mapSamples f).cfg = s.cfg := rfl
@[simp] theorem State.mapSamples_agc : (s.mapSamples f).agc = s.agc := rfl
@[simp] theorem State.mapSamples_sam : (s.mapSamples f).sam = s.sam := rfl
@[simp] theorem State.mapSamples_nco : (s.mapSamples f).nco = s.nco := rfl
@[simp] theorem State.mapSamples_queues : (s.mapSamples f).queues = s.queues := rfl
@[simp] theorem State.mapSamples_ext : (s.mapSamples f).ext = s.ext := rfl
@[simp] theorem State.mapSamples_host : (s.mapSamples f).host = s.host := rfl
@[simp] theorem State.mapSamples_sched : (s.mapSamples f).sched = s.sched := rfl
@[simp] theorem State.mapSamples_marks : (s.mapSamples f).marks = s.marks := rfl
end

section
variable (s : State) (c : ExtCall)
@[simp] theorem State.calls_par : (s.calls c).par = s.par := rfl
@[simp] theorem State.calls_blk : (s.calls c).blk = s.blk := rfl
@[simp] theorem State.calls_seq : (s.calls c).seq = s.seq := rfl
@[simp] theorem State.calls_diag : (s.calls c).diag = s.diag := rfl
@[simp] theorem State.calls_inp : (s.calls c).inp = s.inp := rfl
@[simp] theorem State.calls_lat : (s.calls c).lat = s.lat := rfl
@[simp] theorem State.calls_cfg : (s.calls c).cfg = s.cfg := rfl
@[simp] theorem State.calls_agc : (s.calls c).agc = s.agc := rfl
@[simp] theorem State.calls_sam : (s.calls c).sam = s.sam := rfl
@[simp] theorem State.calls_nco : (s.calls c).nco = s.nco := rfl
@[simp] theorem State.calls_queues : (s.calls c).queues = s.queues := rfl
@[simp] theorem State.calls_ext : (s.calls c).ext = { s.ext with calls := s.ext.calls ++ [c] } := rfl
@[simp] theorem State.calls_host : (s.calls c).host = s.host := rfl
@[simp] theorem State.calls_sched : (s.calls c).sched = s.sched := rfl
@[simp] theorem State.calls_marks : (s.calls c).marks = s.marks := rfl
end

section
variable (s : State)
@[simp] theorem State.resetSam_par : (s.resetSam).par = s.par := rfl
@[simp] theorem State.resetSam_blk : (s.resetSam).blk = s.blk := rfl
@[simp] theorem State.resetSam_seq : (s.resetSam).seq = s.seq := rfl
@[simp] theorem State.resetSam_diag : (s.resetSam).diag = s.diag := rfl
@[simp] theorem State.resetSam_inp : (s.resetSam).inp = s.inp := rfl
@[simp] theorem State.resetSam_lat : (s.resetSam).lat = s.lat := rfl
@[simp] theorem State.resetSam_cfg : (s.resetSam).cfg = s.cfg := rfl
@[simp] theorem State.resetSam_agc : (s.resetSam).agc = s.agc := rfl
@[simp] theorem State.resetSam_sam : (s.resetSam).sam = SamState.initial := rfl
@[simp] theorem State.resetSam_nco : (s.resetSam).nco = s.nco := rfl
@[simp] theorem State.resetSam_queues : (s.resetSam).queues = s.queues := rfl
@[simp] theorem State.resetSam_ext : (s.resetSam).ext = s.ext := rfl
@[simp] theorem State.resetSam_host : (s.resetSam).host = s.host := rfl
@[simp] theorem State.resetSam_sched : (s.resetSam).sched = s.sched := rfl
@[simp] theorem State.resetSam_marks : (s.resetSam).marks = s.marks := rfl
end

section
variable (s : State) (n : Nat)
@[simp] theorem State.consume_par : (s.consume n).par = s.par := rfl
@[simp] theorem State.consume_blk : (s.consume n).blk = s.blk := rfl
@[simp] theorem State.consume_seq : (s.consume n).seq = s.seq := rfl
@[simp] theorem State.consume_diag : (s.consume n).diag = s.diag := rfl
@[simp] theorem State.consume_inp : (s.consume n).inp = s.inp := rfl
@[simp] theorem State.consume_lat : (s.consume n).lat = s.lat := rfl
@[simp] theorem State.consume_cfg : (s.consume n).cfg = s.cfg := rfl
@[simp] theorem State.consume_agc : (s.consume n).agc = s.agc := rfl
@[simp] theorem State.consume_sam : (s.consume n).sam = s.sam := rfl
@[simp] theorem State.consume_nco : (s.consume n).nco = s.nco := rfl
@[simp] theorem State.consume_queues : (s.consume n).queues = s.queues := rfl
@[simp] theorem State.consume_ext : (s.consume n).ext = s.ext := rfl
@[simp] theorem State.consume_host : (s.consume n).host = { s.host with cmd := s.host.cmd.drop n } := rfl
@[simp] theorem State.consume_sched : (s.consume n).sched = s.sched := rfl
@[simp] theorem State.consume_marks : (s.consume n).marks = s.marks := rfl
end

section
variable (s : State) (p : Pass) (k : Nat)
@[simp] theorem State.atStage_par : (s.atStage p k).par = s.par := rfl
@[simp] theorem State.atStage_blk : (s.atStage p k).blk = s.blk := rfl
@[simp] theorem State.atStage_seq : (s.atStage p k).seq = { s.seq with pass := p, sp := k } := rfl
@[simp] theorem State.atStage_diag : (s.atStage p k).diag = s.diag := rfl
@[simp] theorem State.atStage_inp : (s.atStage p k).inp = s.inp := rfl
@[simp] theorem State.atStage_lat : (s.atStage p k).lat = s.lat := rfl
@[simp] theorem State.atStage_cfg : (s.atStage p k).cfg = s.cfg := rfl
@[simp] theorem State.atStage_agc : (s.atStage p k).agc = s.agc := rfl
@[simp] theorem State.atStage_sam : (s.atStage p k).sam = s.sam := rfl
@[simp] theorem State.atStage_nco : (s.atStage p k).nco = s.nco := rfl
@[simp] theorem State.atStage_queues : (s.atStage p k).queues = s.queues := rfl
@[simp] theorem State.atStage_ext : (s.atStage p k).ext = s.ext := rfl
@[simp] theorem State.atStage_host : (s.atStage p k).host = s.host := rfl
@[simp] theorem State.atStage_sched : (s.atStage p k).sched = s.sched := rfl
@[simp] theorem State.atStage_marks : (s.atStage p k).marks = s.marks := rfl
end

section
variable (s : State) (c : Bool) (m : Mark)
@[simp] theorem State.markIf_par : (s.markIf c m).par = s.par := by unfold State.markIf; split <;> rfl
@[simp] theorem State.markIf_blk : (s.markIf c m).blk = s.blk := by unfold State.markIf; split <;> rfl
@[simp] theorem State.markIf_seq : (s.markIf c m).seq = s.seq := by unfold State.markIf; split <;> rfl
@[simp] theorem State.markIf_diag : (s.markIf c m).diag = s.diag := by unfold State.markIf; split <;> rfl
@[simp] theorem State.markIf_inp : (s.markIf c m).inp = s.inp := by unfold State.markIf; split <;> rfl
@[simp] theorem State.markIf_lat : (s.markIf c m).lat = s.lat := by unfold State.markIf; split <;> rfl
@[simp] theorem State.markIf_cfg : (s.markIf c m).cfg = s.cfg := by unfold State.markIf; split <;> rfl
@[simp] theorem State.markIf_agc : (s.markIf c m).agc = s.agc := by unfold State.markIf; split <;> rfl
@[simp] theorem State.markIf_sam : (s.markIf c m).sam = s.sam := by unfold State.markIf; split <;> rfl
@[simp] theorem State.markIf_nco : (s.markIf c m).nco = s.nco := by unfold State.markIf; split <;> rfl
@[simp] theorem State.markIf_queues : (s.markIf c m).queues = s.queues := by unfold State.markIf; split <;> rfl
@[simp] theorem State.markIf_ext : (s.markIf c m).ext = s.ext := by unfold State.markIf; split <;> rfl
@[simp] theorem State.markIf_host : (s.markIf c m).host = s.host := by unfold State.markIf; split <;> rfl
@[simp] theorem State.markIf_sched : (s.markIf c m).sched = s.sched := by unfold State.markIf; split <;> rfl
@[simp] theorem State.markIf_marks : (s.markIf c m).marks = if c then s.marks ++ [m] else s.marks := by unfold State.markIf; split <;> rfl
end

section
variable (s : State) (prev : Option (BitVec 3))
@[simp] theorem State.samReentry_par : (s.samReentry prev).par = s.par := by unfold State.samReentry; split <;> rfl
@[simp] theorem State.samReentry_blk : (s.samReentry prev).blk = s.blk := by unfold State.samReentry; split <;> rfl
@[simp] theorem State.samReentry_seq : (s.samReentry prev).seq = s.seq := by unfold State.samReentry; split <;> rfl
@[simp] theorem State.samReentry_diag : (s.samReentry prev).diag = s.diag := by unfold State.samReentry; split <;> rfl
@[simp] theorem State.samReentry_inp : (s.samReentry prev).inp = s.inp := by unfold State.samReentry; split <;> rfl
@[simp] theorem State.samReentry_lat : (s.samReentry prev).lat = s.lat := by unfold State.samReentry; split <;> rfl
@[simp] theorem State.samReentry_cfg : (s.samReentry prev).cfg = s.cfg := by unfold State.samReentry; split <;> rfl
@[simp] theorem State.samReentry_agc : (s.samReentry prev).agc = s.agc := by unfold State.samReentry; split <;> rfl
@[simp] theorem State.samReentry_sam : (s.samReentry prev).sam = if s.lat.demodMode = 2#3 ∧ prev ≠ some 2#3 then SamState.initial else s.sam := by unfold State.samReentry; split <;> rfl
@[simp] theorem State.samReentry_nco : (s.samReentry prev).nco = s.nco := by unfold State.samReentry; split <;> rfl
@[simp] theorem State.samReentry_queues : (s.samReentry prev).queues = s.queues := by unfold State.samReentry; split <;> rfl
@[simp] theorem State.samReentry_ext : (s.samReentry prev).ext = s.ext := by unfold State.samReentry; split <;> rfl
@[simp] theorem State.samReentry_host : (s.samReentry prev).host = s.host := by unfold State.samReentry; split <;> rfl
@[simp] theorem State.samReentry_sched : (s.samReentry prev).sched = s.sched := by unfold State.samReentry; split <;> rfl
@[simp] theorem State.samReentry_marks : (s.samReentry prev).marks = s.marks := by unfold State.samReentry; split <;> rfl
end

section
variable (s : State) (c : ExtCall) (n : Nat)
@[simp] theorem State.ask_par : (s.ask c n).par = s.par := rfl
@[simp] theorem State.ask_blk : (s.ask c n).blk = { s.blk with x := (ExtPort.drawSamples n (s.calls c).ext).1 } := rfl
@[simp] theorem State.ask_seq : (s.ask c n).seq = s.seq := rfl
@[simp] theorem State.ask_diag : (s.ask c n).diag = s.diag := rfl
@[simp] theorem State.ask_inp : (s.ask c n).inp = s.inp := rfl
@[simp] theorem State.ask_lat : (s.ask c n).lat = s.lat := rfl
@[simp] theorem State.ask_cfg : (s.ask c n).cfg = s.cfg := rfl
@[simp] theorem State.ask_agc : (s.ask c n).agc = s.agc := rfl
@[simp] theorem State.ask_sam : (s.ask c n).sam = s.sam := rfl
@[simp] theorem State.ask_nco : (s.ask c n).nco = s.nco := rfl
@[simp] theorem State.ask_queues : (s.ask c n).queues = s.queues := rfl
@[simp] theorem State.ask_ext : (s.ask c n).ext = (ExtPort.drawSamples n (s.calls c).ext).2 := rfl
@[simp] theorem State.ask_host : (s.ask c n).host = s.host := rfl
@[simp] theorem State.ask_sched : (s.ask c n).sched = s.sched := rfl
@[simp] theorem State.ask_marks : (s.ask c n).marks = s.marks := rfl
end

section
variable (s : State)
@[simp] theorem State.passEnd_par : (s.passEnd).par = s.par := by unfold State.passEnd; split <;> rfl
@[simp] theorem State.passEnd_blk : (s.passEnd).blk = s.blk := by unfold State.passEnd; split <;> rfl
@[simp] theorem State.passEnd_seq : (s.passEnd).seq = s.seq := by unfold State.passEnd; split <;> rfl
@[simp] theorem State.passEnd_diag : (s.passEnd).diag = s.diag := by unfold State.passEnd; split <;> rfl
@[simp] theorem State.passEnd_inp : (s.passEnd).inp = s.inp := by unfold State.passEnd; split <;> rfl
@[simp] theorem State.passEnd_lat : (s.passEnd).lat = s.lat := by unfold State.passEnd; split <;> rfl
@[simp] theorem State.passEnd_cfg : (s.passEnd).cfg = s.cfg := by unfold State.passEnd; split <;> rfl
@[simp] theorem State.passEnd_agc : (s.passEnd).agc = s.agc := by unfold State.passEnd; split <;> rfl
@[simp] theorem State.passEnd_sam : (s.passEnd).sam = s.sam := by unfold State.passEnd; split <;> rfl
@[simp] theorem State.passEnd_nco : (s.passEnd).nco = s.nco := by unfold State.passEnd; split <;> rfl
@[simp] theorem State.passEnd_queues : (s.passEnd).queues = s.queues := by unfold State.passEnd; split <;> rfl
@[simp] theorem State.passEnd_ext : (s.passEnd).ext = s.ext := by unfold State.passEnd; split <;> rfl
@[simp] theorem State.passEnd_host : (s.passEnd).host =
    if s.seq.pass = .idle ∧ s.host.awaited = true then { s.host with result := .passSome, awaited := false } else s.host := by unfold State.passEnd; split <;> rfl
@[simp] theorem State.passEnd_sched : (s.passEnd).sched = s.sched := by unfold State.passEnd; split <;> rfl
@[simp] theorem State.passEnd_marks : (s.passEnd).marks = s.marks := by unfold State.passEnd; split <;> rfl
end

end Sys2Proof.Machine
end

