-- ==== Sys2Proof/Laws/Ops.lean ====
section
/-! SUPPORT. What each shared operation of `Machine/Ops.lean` can do, said once: banks, queues, the ring, the external answers, the
guards, the two pulls, the resets. -/

namespace Sys2Proof.Machine

/-! ### Banks -/

section
variable {α : Type} {d : α}

/-- A read after a write to the same place gives the value written. -/
@[simp] theorem bankRead_bankWrite_same (l : List α) (j : Nat) (v : α) : bankRead d (bankWrite d l j v) j = v := by
  induction j generalizing l with
  | zero => cases l <;> rfl
  | succ j ih => cases l <;> exact ih _

/-- A write leaves every other place alone. -/
theorem bankRead_bankWrite_other (l : List α) {j k : Nat} (v : α) (h : k ≠ j) :
    bankRead d (bankWrite d l j v) k = bankRead d l k := by
  induction j generalizing l k with
  | zero =>
    cases k with
    | zero => exact absurd rfl h
    | succ k => cases l <;> rfl
  | succ j ih =>
    cases k with
    | zero => cases l <;> rfl
    | succ k =>
      have hk : k ≠ j := fun e => h (by rw [e])
      cases l with
      | nil => exact (ih [] hk).trans rfl
      | cons x xs => exact ih xs hk

/-- A write inside the bank keeps its length. -/
theorem bankWrite_length (l : List α) {j : Nat} (v : α) (h : j < l.length) : (bankWrite d l j v).length = l.length := by
  induction j generalizing l with
  | zero =>
    cases l with
    | nil => exact absurd h (by simp)
    | cons x xs => rfl
  | succ j ih =>
    cases l with
    | nil => exact absurd h (by simp)
    | cons x xs => simp only [bankWrite, List.length_cons]; rw [ih xs (by simpa using h)]

theorem bankRead_replicate (n j : Nat) : bankRead d (List.replicate n d) j = d := by
  simp only [bankRead, List.getD_eq_getElem?_getD, List.getElem?_replicate]; split <;> rfl

end

/-! ### Queues (20_memory.md R78 to R80) -/

theorem queueRead_none_iff {q : List RawPair} {n : Nat} : queueRead q n = none ↔ q.length < n := by
  unfold queueRead queueAvail; split <;> simp_all

theorem queueRead_of_le {q : List RawPair} {n : Nat} (h : n ≤ q.length) :
    queueRead q n = some (q.take n, q.drop n) := by
  unfold queueRead queueAvail; rw [if_neg (by omega)]

/-- A read gives the `n` oldest pairs and leaves the rest, in order. -/
theorem queueRead_some {q a b : List RawPair} {n : Nat} (h : queueRead q n = some (a, b)) :
    a.length = n ∧ q = a ++ b := by
  unfold queueRead queueAvail at h
  split at h
  · cases h
  · cases h
    exact ⟨by simp; omega, (List.take_append_drop n q).symm⟩

/-! ### The ring (20_memory.md R76) -/

theorem ringNext_lt {size j : Nat} (h : 0 < size) : ringNext size j < size := Nat.mod_lt _ h

theorem ringWrite_length {ring : List RingSlot} {j : Nat} (v : RingSlot) (h : j < ring.length) :
    (ringWrite ring j v).length = ring.length := bankWrite_length ring v h

@[simp] theorem ringRead_ringWrite_same (ring : List RingSlot) (j : Nat) (v : RingSlot) :
    ringRead (ringWrite ring j v) j = v := bankRead_bankWrite_same ring j v

theorem ringRead_ringWrite_other (ring : List RingSlot) {j k : Nat} (v : RingSlot) (h : k ≠ j) :
    ringRead (ringWrite ring j v) k = ringRead ring k := bankRead_bankWrite_other ring v h

/-! ### External answers (45_demod_dispatch_external.md R277) -/

/-- The only thing the block knows of an answer is its length. -/
@[simp] theorem drawSamples_length (n : Nat) (e : ExtPort) : (ExtPort.drawSamples n e).1.length = n := by
  induction n generalizing e with
  | zero => rfl
  | succ n ih => simp only [ExtPort.drawSamples, List.length_cons, ih]

@[simp] theorem draw_calls (e : ExtPort) : e.draw.2.calls = e.calls := by
  unfold ExtPort.draw; split <;> rfl

@[simp] theorem drawSamples_calls (n : Nat) (e : ExtPort) : (ExtPort.drawSamples n e).2.calls = e.calls := by
  induction n generalizing e with
  | zero => rfl
  | succ n ih => simp only [ExtPort.drawSamples, ih, draw_calls]

/-- Answers that have been supplied are the answers given, in order. -/
theorem drawSamples_feed (ans : List Sample) (rest : List F32) (count : Nat) (calls : List ExtCall) :
    ExtPort.drawSamples ans.length { feed := ans.flatMap (fun z => [z.i, z.q]) ++ rest, count := count, calls := calls } =
      (ans, { feed := rest, count := count, calls := calls }) := by
  induction ans with
  | nil => rfl
  | cons z zs ih =>
    simp only [List.length_cons, ExtPort.drawSamples, List.flatMap_cons, List.cons_append, List.nil_append,
      ExtPort.draw, ih]

/-- The record of calls plays no part in what is drawn. -/
theorem drawSamples_setCalls (n : Nat) (e : ExtPort) (cs : List ExtCall) :
    ExtPort.drawSamples n { e with calls := cs } =
      ((ExtPort.drawSamples n e).1, { (ExtPort.drawSamples n e).2 with calls := cs }) := by
  have one : ∀ e : ExtPort, ({ e with calls := cs } : ExtPort).draw = (e.draw.1, { e.draw.2 with calls := cs }) := by
    intro e; unfold ExtPort.draw; cases e.feed <;> rfl
  induction n generalizing e with
  | zero => rfl
  | succ n ih => simp only [ExtPort.drawSamples, one, ih]

/-- Drawing two answers one after the other is drawing them at once. -/
theorem drawSamples_add (m n : Nat) (e : ExtPort) :
    ExtPort.drawSamples (m + n) e =
      ((ExtPort.drawSamples m e).1 ++ (ExtPort.drawSamples n (ExtPort.drawSamples m e).2).1,
        (ExtPort.drawSamples n (ExtPort.drawSamples m e).2).2) := by
  induction m generalizing e with
  | zero => simp [ExtPort.drawSamples]
  | succ m ih => rw [Nat.add_right_comm]; simp only [ExtPort.drawSamples, ih, List.cons_append]

/-- All that a call of a collaborator does: the answer drawn becomes the contents, the call is recorded. -/
theorem State.ask_eq (s : State) (c : ExtCall) (n : Nat) :
    s.ask c n =
      { s with
        blk := { s.blk with x := (ExtPort.drawSamples n s.ext).1 }
        ext := { (ExtPort.drawSamples n s.ext).2 with calls := s.ext.calls ++ [c] } } := by
  unfold State.ask
  simp only [State.calls, State.setExt, drawSamples_setCalls]
  rfl

/-! ### Guards -/

theorem whenIdle_idle {s : State} {r : Result} (h : s.seq.pass = .idle) : whenIdle s r = r := if_pos h

theorem whenIdle_busy {s : State} {r : Result} (h : s.seq.pass ≠ .idle) :
    whenIdle s r = .refused .hostOpDuringPass := if_neg h

/-- A guarded host operation that answers a next state found the block idle. -/
theorem whenIdle_next {s t : State} {r : Result} (h : whenIdle s r = .next t) : s.seq.pass = .idle ∧ r = .next t := by
  unfold whenIdle at h
  split at h
  · exact ⟨‹_›, h⟩
  · cases h

theorem whenBand_next {ok : Bool} {t : State} {r : Result} (h : whenBand ok r = .next t) : ok = true ∧ r = .next t := by
  unfold whenBand at h
  split at h
  · exact ⟨‹_›, h⟩
  · cases h

/-! ### Pulls (40_orchestrator_framing.md R136, R137, R151) -/

theorem pullRx_none_iff {s : State} : pullRx s = none ↔ s.queues.capq.length < s.par.nNative := by
  unfold pullRx
  split
  · simpa using queueRead_none_iff.mp ‹_›
  · rename_i h
    have h2 : queueRead s.queues.capq s.par.nNative ≠ none := by rw [h]; exact Option.some_ne_none _
    simpa using fun h3 => h2 (queueRead_none_iff.mpr h3)

theorem pullTx_none_iff {s : State} : pullTx s = none ↔ s.queues.txsrc.length < s.par.nNative := by
  unfold pullTx
  split
  · simpa using queueRead_none_iff.mp ‹_›
  · rename_i h
    have h2 : queueRead s.queues.txsrc s.par.nNative ≠ none := by rw [h]; exact Option.some_ne_none _
    simpa using fun h3 => h2 (queueRead_none_iff.mpr h3)

/-- All that a successful receive pull does. -/
theorem pullRx_of_le {s : State} (h : s.par.nNative ≤ s.queues.capq.length) :
    pullRx s = some
      { s with
        queues := { s.queues with capq := s.queues.capq.drop s.par.nNative }
        lat := s.inp.ports
        sam := if s.inp.ports.demodMode = 2#3 ∧ s.seq.lastDemod ≠ some 2#3 then SamState.initial else s.sam
        blk := freshBlock s.par (s.queues.capq.take s.par.nNative)
        seq := { sp := 1, pass := .rx, lastDemod := some s.inp.ports.demodMode } } := by
  unfold pullRx
  rw [queueRead_of_le h]
  by_cases hc : s.inp.ports.demodMode = 2#3 ∧ s.seq.lastDemod ≠ some 2#3
  · rw [if_pos hc]
    exact congrArg (fun u : State => some ((u.setBlk _).setSeq _)) (if_pos hc)
  · rw [if_neg hc]
    exact congrArg (fun u : State => some ((u.setBlk _).setSeq _)) (if_neg hc)

/-- All that a successful transmit pull does. -/
theorem pullTx_of_le {s : State} (h : s.par.nNative ≤ s.queues.txsrc.length) :
    pullTx s = some
      { s with
        queues := { s.queues with txsrc := s.queues.txsrc.drop s.par.nNative }
        lat := s.inp.ports
        blk := freshBlock s.par (s.queues.txsrc.take s.par.nNative)
        seq := { s.seq with sp := 1, pass := .tx } } := by
  unfold pullTx
  rw [queueRead_of_le h]
  rfl

/-- A pull that answers found a whole block. -/
theorem pullRx_some {s t : State} (h : pullRx s = some t) : s.par.nNative ≤ s.queues.capq.length := by
  by_contra hlt
  rw [pullRx_none_iff.mpr (by omega)] at h
  cases h

theorem pullTx_some {s t : State} (h : pullTx s = some t) : s.par.nNative ≤ s.queues.txsrc.length := by
  by_contra hlt
  rw [pullTx_none_iff.mpr (by omega)] at h
  cases h

/-- The block a pull creates holds one sample per pair. -/
@[simp] theorem freshBlock_length (par : Par) (raw : List RawPair) : (freshBlock par raw).x.length = raw.length := by
  simp [freshBlock]

/-! ### The entry points -/

/-- All that the first step of a pass can do. -/
theorem beginPass_next {awaited : Bool} {s t : State} {o : Option State} (h : beginPass awaited s o = .next t) :
    (o = none ∧ t = if awaited then s.returns .passNone else s) ∨
      ∃ u, o = some u ∧ t = u.setHost { u.host with awaited := awaited } := by
  cases o <;> cases h
  · exact .inl ⟨rfl, rfl⟩
  · exact .inr ⟨_, rfl, rfl⟩

theorem startRx_next {awaited : Bool} {s t : State} (h : startRx awaited s = .next t) :
    (pullRx s = none ∧ t = if awaited then s.returns .passNone else s) ∨
      ∃ u, pullRx s = some u ∧ t = u.setHost { u.host with awaited := awaited } :=
  beginPass_next h

theorem startTx_next {awaited : Bool} {s t : State} (h : startTx awaited s = .next t) :
    (pullTx s = none ∧ t = if awaited then s.returns .passNone else s) ∨
      ∃ u, pullTx s = some u ∧ t = u.setHost { u.host with awaited := awaited } :=
  beginPass_next h

end Sys2Proof.Machine
end

