-- ==== Sys2Proof/Laws/Agc.lean ====
section
/-! SUPPORT. What one sample of the AGC, and a run of them, can do to each field of AgcState (43_agc.md R202 to R215). -/

namespace Sys2Proof.Machine

section
variable (a : AgcState)

@[simp] theorem agcTransition_p : (agcTransition a).p = a.p := by
  unfold agcTransition AgcState.moved agcRegrow; cases a.state <;> (dsimp only; repeat' (split <;> try rfl))
@[simp] theorem agcTransition_ring : (agcTransition a).ring = a.ring := by
  unfold agcTransition AgcState.moved agcRegrow; cases a.state <;> (dsimp only; repeat' (split <;> try rfl))
@[simp] theorem agcTransition_outIndex : (agcTransition a).outIndex = a.outIndex := by
  unfold agcTransition AgcState.moved agcRegrow; cases a.state <;> (dsimp only; repeat' (split <;> try rfl))
@[simp] theorem agcTransition_inIndex : (agcTransition a).inIndex = a.inIndex := by
  unfold agcTransition AgcState.moved agcRegrow; cases a.state <;> (dsimp only; repeat' (split <;> try rfl))
@[simp] theorem agcTransition_ringMax : (agcTransition a).ringMax = a.ringMax := by
  unfold agcTransition AgcState.moved agcRegrow; cases a.state <;> (dsimp only; repeat' (split <;> try rfl))
@[simp] theorem agcTransition_fastBack : (agcTransition a).fastBack = a.fastBack := by
  unfold agcTransition AgcState.moved agcRegrow; cases a.state <;> (dsimp only; repeat' (split <;> try rfl))
@[simp] theorem agcTransition_hangBack : (agcTransition a).hangBack = a.hangBack := by
  unfold agcTransition AgcState.moved agcRegrow; cases a.state <;> (dsimp only; repeat' (split <;> try rfl))

/-- The clamp leaves an envelope that is not below the floor (43_agc.md R213; 10_state.md R45). -/
theorem clampVolts_floor (v m : F32) : (clampVolts v m).lt m = false := by
  unfold clampVolts
  split
  · exact F32.lt_irrefl m
  · exact Bool.eq_false_of_not_eq_true ‹_›

end

section
variable (par : Par) (a : AgcState) (z : Sample)

@[simp] theorem agcSample_p : (agcSample par a z).1.p = a.p := by
  simp [agcSample, agcClamp, agcCount, agcPeak, agcAverages, agcArrive, agcAdvance]

@[simp] theorem agcSample_outIndex : (agcSample par a z).1.outIndex = ringNext a.p.ringSize a.outIndex := by
  simp [agcSample, agcClamp, agcCount, agcPeak, agcAverages, agcArrive, agcAdvance]

@[simp] theorem agcSample_inIndex : (agcSample par a z).1.inIndex = ringNext a.p.ringSize a.inIndex := by
  simp [agcSample, agcClamp, agcCount, agcPeak, agcAverages, agcArrive, agcAdvance]

/-- The ring after a sample: the arriving sample and its magnitude in the slot of the write index. -/
@[simp] theorem agcSample_ring :
    (agcSample par a z).1.ring =
      ringWrite a.ring (ringNext a.p.ringSize a.inIndex) { i := z.i, q := z.q, m := magnitude a.p z } := by
  simp [agcSample, agcClamp, agcCount, agcPeak, agcAverages, agcArrive, agcAdvance]

/-- The output of a sample: the slot at the advanced read index as it stood before the write, both channels times one number. -/
theorem agcSample_out :
    ∃ m, (agcSample par a z).2 = Sample.scale m
      { i := (ringRead a.ring (ringNext a.p.ringSize a.outIndex)).i
        q := (ringRead a.ring (ringNext a.p.ringSize a.outIndex)).q } := ⟨_, rfl⟩

theorem agcSample_floor : (agcSample par a z).1.volts.lt a.p.minVolts = false := by
  simp only [agcSample, agcClamp, agcTransition_p]
  exact clampVolts_floor _ _

/-- Every sample keeps AgcState legal (10_state.md R44, R45). -/
theorem agcSample_legal {fs : Nat} (h : a.Legal fs) : (agcSample par a z).1.Legal fs := by
  have hpos : 0 < a.p.ringSize := by have := h.outInRange; omega
  refine ⟨by rw [agcSample_p]; exact h.profile, ?_, ?_, ?_, ?_⟩
  · rw [agcSample_ring, agcSample_p, ringWrite_length _ (by rw [h.ringLength]; exact ringNext_lt hpos), h.ringLength]
  · rw [agcSample_outIndex, agcSample_p]; exact ringNext_lt hpos
  · rw [agcSample_inIndex, agcSample_outIndex, agcSample_p, h.distance]
    simp only [ringNext, Nat.mod_add_mod]
    congr 1; omega
  · rw [agcSample_p]; exact agcSample_floor par a z

end

@[simp] theorem agcLoop_length (par : Par) (a : AgcState) (zs : List Sample) : (agcLoop par a zs).2.length = zs.length := by
  induction zs generalizing a with
  | nil => rfl
  | cons z zs ih => simp [agcLoop, ih]

@[simp] theorem agcLoop_p (par : Par) (a : AgcState) (zs : List Sample) : (agcLoop par a zs).1.p = a.p := by
  induction zs generalizing a with
  | nil => rfl
  | cons z zs ih => simp [agcLoop, ih]

theorem agcLoop_legal (par : Par) {a : AgcState} {fs : Nat} (zs : List Sample) (h : a.Legal fs) :
    (agcLoop par a zs).1.Legal fs := by
  induction zs generalizing a with
  | nil => exact h
  | cons z zs ih => exact ih (agcSample_legal par a z h)

/-- State carries over from sample to sample: a run over two stretches is the two runs one after the other. -/
theorem agcLoop_append (par : Par) (a : AgcState) (xs ys : List Sample) :
    agcLoop par a (xs ++ ys) =
      ((agcLoop par (agcLoop par a xs).1 ys).1, (agcLoop par a xs).2 ++ (agcLoop par (agcLoop par a xs).1 ys).2) := by
  induction xs generalizing a with
  | nil => simp [agcLoop]
  | cons x xs ih => simp [agcLoop, ih]

/-- A profile that meets 10_state.md R42 gives a legal AgcState at its reset (10_state.md R47). -/
theorem agcReset_legal {mode fs : Nat} {p : AgcParams} (hm : mode ≠ 0) (h : p.wf fs = true) :
    (agcReset mode p).Legal fs := by
  have h1 : 1 ≤ p.attackLen ∧ p.attackLen ≤ p.ringSize := by
    simp only [AgcParams.wf, Bool.and_eq_true, decide_eq_true_eq] at h
    omega
  refine ⟨h, ?_, ?_, ?_, F32.lt_irrefl _⟩
  · simp [agcReset, hm]
  · simp only [agcReset, hm, if_false]; omega
  · simp only [agcReset, hm, if_false]

end Sys2Proof.Machine
end

