-- ==== Sys2Proof/Laws/Arith.lean ====
section
/-! SUPPORT. What a rounded sum, product or quotient can be: the exact value `F32.val` of a finite number, and one pair of bounds per
operation (an exact result not above a representable value rounds to at most that value, and the same from below). -/

namespace Sys2Proof

/-- The exact value of a finite number in units of 2^-149. -/
def F32.val : F32 → Int
  | .fin s m => F32.signed s m.val
  | _ => 0

theorem F32.units_lt {m n : Nat} (h : m < n) : F32.units m < F32.units n := by
  have h1 := F32.units_mono (Nat.le_of_lt h)
  rcases Nat.lt_or_ge (F32.units m) (F32.units n) with h2 | h2
  · exact h2
  · have h3 := F32.roundCode_mono (den := 1) h2
    have h4 := F32.roundCode_units (m := m) (den := 1) (by decide)
    have h5 := F32.roundCode_units (m := n) (den := 1) (by decide)
    simp only [Nat.mul_one] at h4 h5
    omega

theorem F32.units_le_iff {m n : Nat} : F32.units m ≤ F32.units n ↔ m ≤ n :=
  ⟨fun h => by by_contra hn; have := F32.units_lt (Nat.lt_of_not_le hn); omega, F32.units_mono⟩

@[simp] theorem F32.units_zero : F32.units 0 = 0 := by decide

theorem F32.units_pos {m : Nat} (h : 0 < m) : 0 < F32.units m := by simpa using F32.units_lt h

/-- The sign-magnitude place of a code, saturated at infinity. -/
def F32.place (s : Bool) (c : Nat) : Int :=
  if s then -((Nat.min c 2139095040 : Nat) : Int) else ((Nat.min c 2139095040 : Nat) : Int)

theorem F32.rank_pack (s : Bool) (c : Nat) : (F32.pack s c).rank = some (F32.place s c) := by
  unfold F32.pack F32.place
  split
  · rename_i h
    have hm : Nat.min c 2139095040 = c := Nat.min_eq_left (Nat.le_of_lt h)
    simp [F32.rank, hm]
  · rename_i h
    have hm : Nat.min c 2139095040 = 2139095040 := Nat.min_eq_right (by omega)
    simp [F32.rank, hm]

theorem F32.rank_fin (s : Bool) (m : Fin 2139095040) : (F32.fin s m).rank = some (if s then -(m.val : Int) else m.val) := rfl

theorem F32.finite_cases {x : F32} (h : x.isFinite = true) : ∃ s m, x = .fin s m := by
  cases x with
  | fin s m => exact ⟨s, m, rfl⟩
  | inf s => cases h
  | nan s k => cases h

/-- On finite numbers the comparisons are those of the exact values. -/
theorem F32.le_iff_val {a b : F32} (ha : a.isFinite = true) (hb : b.isFinite = true) :
    a.le b = true ↔ a.val ≤ b.val := by
  obtain ⟨s, m, rfl⟩ := F32.finite_cases ha
  obtain ⟨t, n, rfl⟩ := F32.finite_cases hb
  have h1 := @F32.units_le_iff m.val n.val
  have h2 := @F32.units_le_iff n.val m.val
  have hm : m.val = 0 ↔ F32.units m.val = 0 := ⟨fun h => by rw [h]; rfl, fun h => by
    by_contra hc; have := F32.units_pos (Nat.pos_of_ne_zero hc); omega⟩
  have hn : n.val = 0 ↔ F32.units n.val = 0 := ⟨fun h => by rw [h]; rfl, fun h => by
    by_contra hc; have := F32.units_pos (Nat.pos_of_ne_zero hc); omega⟩
  cases s <;> cases t <;> simp [F32.le, F32.rank, F32.val, F32.signed] <;> omega

theorem F32.lt_iff_val {a b : F32} (ha : a.isFinite = true) (hb : b.isFinite = true) :
    a.lt b = true ↔ a.val < b.val := by
  have h := F32.le_iff_val hb ha
  have hna : a.isNaN = false := by cases a <;> simp_all [F32.isFinite, F32.isNaN]
  have hnb : b.isNaN = false := by cases b <;> simp_all [F32.isFinite, F32.isNaN]
  constructor
  · intro hl
    by_contra hc
    have := F32.not_lt_of_le (h.mpr (by omega))
    rw [hl] at this; cases this
  · intro hl
    by_contra hc
    have h3 := F32.le_of_not_lt hnb hna (by simpa using hc)
    have := h.mp h3
    omega

@[simp] theorem F32.val_neg (x : F32) : x.neg.val = -x.val := by
  cases x with
  | fin s m => cases s <;> simp [F32.neg, F32.val, F32.signed]
  | inf s => rfl
  | nan s k => rfl

@[simp] theorem F32.isFinite_neg (x : F32) : x.neg.isFinite = x.isFinite := by cases x <;> rfl

/-! ### Rounding a signed rational -/

theorem F32.round_isNaN (s : Bool) (n d : Nat) : (F32.round s n d).isNaN = false := by
  unfold F32.round F32.pack; split <;> rfl

/-- A rational that is not above a representable value rounds to at most that value. -/
theorem F32.round_le {s : Bool} {num den : Nat} {y : F32} (hd : 0 < den) (hy : y.isFinite = true)
    (h : (if s then -(num : Int) else (num : Int)) ≤ y.val * den) : (F32.round s num den).le y = true := by
  obtain ⟨t, n, rfl⟩ := F32.finite_cases hy
  have hn := n.isLt
  refine F32.le_iff.mpr ⟨_, _, F32.rank_pack s _, F32.rank_fin t n, ?_⟩
  simp only [F32.val, F32.signed] at h
  have hmin : ∀ c, Nat.min c 2139095040 = c ∨ (Nat.min c 2139095040 = 2139095040 ∧ 2139095040 < c) := fun c => by
    rcases Nat.lt_or_ge 2139095040 c with h | h
    · exact .inr ⟨Nat.min_eq_right (Nat.le_of_lt h), h⟩
    · exact .inl (Nat.min_eq_left h)
  have hc := hmin (F32.roundCode num den)
  unfold F32.place
  cases s <;> cases t <;> simp only [Bool.false_eq_true, if_false, if_true] at h ⊢
  · have h' : num ≤ F32.units n.val * den := by exact_mod_cast h
    have := F32.roundCode_le hd h'
    omega
  · have h0 : (F32.units n.val : Int) * den ≥ 0 := by positivity
    have hnum : num = 0 := by
      have : (num : Int) ≤ 0 := by linarith
      omega
    subst hnum
    have hz : F32.units n.val = 0 := by
      have h1 : (F32.units n.val : Int) * den = 0 := by simp at h; nlinarith
      rcases Int.mul_eq_zero.mp h1 with h2 | h2 <;> omega
    have hn0 : n.val = 0 := by
      by_contra hc; have := F32.units_pos (Nat.pos_of_ne_zero hc); omega
    have := F32.roundCode_le (num := 0) (m := 0) hd (by simp)
    omega
  · omega
  · have h' : F32.units n.val * den ≤ num := by
      have : (F32.units n.val : Int) * den ≤ num := by linarith
      exact_mod_cast this
    have := F32.le_roundCode hd h'
    omega

/-- A rational that is not below a representable value rounds to at least that value. -/
theorem F32.le_round {s : Bool} {num den : Nat} {y : F32} (hd : 0 < den) (hy : y.isFinite = true)
    (h : y.val * den ≤ (if s then -(num : Int) else (num : Int))) : y.le (F32.round s num den) = true := by
  obtain ⟨t, n, rfl⟩ := F32.finite_cases hy
  have hn := n.isLt
  refine F32.le_iff.mpr ⟨_, _, F32.rank_fin t n, F32.rank_pack s _, ?_⟩
  simp only [F32.val, F32.signed] at h
  have hmin : ∀ c, Nat.min c 2139095040 = c ∨ (Nat.min c 2139095040 = 2139095040 ∧ 2139095040 < c) := fun c => by
    rcases Nat.lt_or_ge 2139095040 c with h | h
    · exact .inr ⟨Nat.min_eq_right (Nat.le_of_lt h), h⟩
    · exact .inl (Nat.min_eq_left h)
  have hc := hmin (F32.roundCode num den)
  unfold F32.place
  cases s <;> cases t <;> simp only [Bool.false_eq_true, if_false, if_true] at h ⊢
  · have h' : F32.units n.val * den ≤ num := by exact_mod_cast h
    have := F32.le_roundCode hd h'
    omega
  · omega
  · have h0 : (F32.units n.val : Int) * den ≥ 0 := by positivity
    have hnum : num = 0 := by
      have : (num : Int) ≤ 0 := by linarith
      omega
    subst hnum
    have hz : F32.units n.val = 0 := by
      have h1 : (F32.units n.val : Int) * den = 0 := by simp at h; nlinarith
      rcases Int.mul_eq_zero.mp h1 with h2 | h2 <;> omega
    have hn0 : n.val = 0 := by
      by_contra hc; have := F32.units_pos (Nat.pos_of_ne_zero hc); omega
    have := F32.roundCode_le (num := 0) (m := 0) hd (by simp)
    omega
  · have h' : num ≤ F32.units n.val * den := by
      have : (num : Int) ≤ F32.units n.val * den := by linarith
      exact_mod_cast this
    have := F32.roundCode_le hd h'
    omega

/-! ### Sums -/

theorem F32.add_fin (s t : Bool) (m n : Fin 2139095040) :
    (F32.fin s m).add (.fin t n) =
      if F32.signed s m.val + F32.signed t n.val = 0 then F32.zeroOf (s && t)
      else F32.round (decide (F32.signed s m.val + F32.signed t n.val < 0))
        (F32.signed s m.val + F32.signed t n.val).natAbs 1 := by
  unfold F32.add F32.addCore
  by_cases hz : F32.signed s m.val + F32.signed t n.val = 0
  · rw [if_pos hz]; exact congrArg (F32.orNaN _ _ _) (if_pos hz)
  · rw [if_neg hz]; exact congrArg (F32.orNaN _ _ _) (if_neg hz)

/-- The sum of two finite numbers is the rounding of the exact sum. -/
theorem F32.add_finite {a b : F32} (ha : a.isFinite = true) (hb : b.isFinite = true) :
    ∃ s, (a.val + b.val = 0 ∧ a.add b = F32.zeroOf s) ∨
      (a.val + b.val ≠ 0 ∧ a.add b = F32.round (decide (a.val + b.val < 0)) (a.val + b.val).natAbs 1) := by
  obtain ⟨s, m, rfl⟩ := F32.finite_cases ha
  obtain ⟨t, n, rfl⟩ := F32.finite_cases hb
  refine ⟨s && t, ?_⟩
  rw [F32.add_fin]
  by_cases hz : F32.signed s m.val + F32.signed t n.val = 0
  · exact .inl ⟨hz, if_pos hz⟩
  · exact .inr ⟨hz, if_neg hz⟩

theorem F32.add_le {a b y : F32} (ha : a.isFinite = true) (hb : b.isFinite = true) (hy : y.isFinite = true)
    (h : a.val + b.val ≤ y.val) : (a.add b).le y = true := by
  obtain ⟨s, ⟨hz, he⟩ | ⟨hz, he⟩⟩ := F32.add_finite ha hb
  · rw [he, F32.le_iff_val rfl hy]
    have : (F32.zeroOf s).val = 0 := by cases s <;> rfl
    omega
  · rw [he]
    refine F32.round_le (by decide) hy ?_
    simp only [decide_eq_true_eq]; split <;> omega

theorem F32.le_add {a b y : F32} (ha : a.isFinite = true) (hb : b.isFinite = true) (hy : y.isFinite = true)
    (h : y.val ≤ a.val + b.val) : y.le (a.add b) = true := by
  obtain ⟨s, ⟨hz, he⟩ | ⟨hz, he⟩⟩ := F32.add_finite ha hb
  · rw [he, F32.le_iff_val hy rfl]
    have : (F32.zeroOf s).val = 0 := by cases s <;> rfl
    omega
  · rw [he]
    refine F32.le_round (by decide) hy ?_
    simp only [decide_eq_true_eq]; split <;> omega

theorem F32.sub_eq_add_neg {a b : F32} (ha : a.isFinite = true) (hb : b.isFinite = true) : a.sub b = a.add b.neg := by
  obtain ⟨s, m, rfl⟩ := F32.finite_cases ha
  obtain ⟨t, n, rfl⟩ := F32.finite_cases hb
  simp only [F32.sub, F32.add, F32.neg, F32.addCore]
  split <;> rfl

/-! ### Products -/

theorem F32.mul_fin (s t : Bool) (m n : Fin 2139095040) :
    (F32.fin s m).mul (.fin t n) = F32.round (s ^^ t) (F32.units m.val * F32.units n.val) (2 ^ 149) := by
  unfold F32.mul
  rw [F32.mulCore]
  rfl

/-- The product of two finite numbers is the rounding of the exact product. -/
theorem F32.mul_finite {a b : F32} (ha : a.isFinite = true) (hb : b.isFinite = true) :
    ∃ s num, a.mul b = F32.round s num (2 ^ 149) ∧ (if s then -(num : Int) else (num : Int)) = a.val * b.val := by
  obtain ⟨s, m, rfl⟩ := F32.finite_cases ha
  obtain ⟨t, n, rfl⟩ := F32.finite_cases hb
  refine ⟨s ^^ t, F32.units m.val * F32.units n.val, F32.mul_fin s t m n, ?_⟩
  cases s <;> cases t <;> simp [F32.val, F32.signed]

theorem F32.mul_le {a b y : F32} (ha : a.isFinite = true) (hb : b.isFinite = true) (hy : y.isFinite = true)
    (h : a.val * b.val ≤ y.val * 2 ^ 149) : (a.mul b).le y = true := by
  obtain ⟨s, num, he, hv⟩ := F32.mul_finite ha hb
  rw [he]
  exact F32.round_le (by positivity) hy (by rw [hv]; exact_mod_cast h)

theorem F32.le_mul {a b y : F32} (ha : a.isFinite = true) (hb : b.isFinite = true) (hy : y.isFinite = true)
    (h : y.val * 2 ^ 149 ≤ a.val * b.val) : y.le (a.mul b) = true := by
  obtain ⟨s, num, he, hv⟩ := F32.mul_finite ha hb
  rw [he]
  exact F32.le_round (by positivity) hy (by rw [hv]; exact_mod_cast h)

/-! ### Quotients and integers -/

theorem F32.div_fin (s t : Bool) (m n : Fin 2139095040) (h : n.val ≠ 0) :
    (F32.fin s m).div (.fin t n) = F32.round (s ^^ t) (F32.units m.val * 2 ^ 149) (F32.units n.val) := by
  unfold F32.div
  rw [F32.divCore, if_neg h]
  rfl

/-- The magnitude of a finite quotient lies below a bound that the exact quotient does not pass. -/
theorem F32.abs_round_le {s : Bool} {num den : Nat} {y : F32} (hd : 0 < den) (hy : y.isFinite = true)
    (h : (num : Int) ≤ y.val * den) : (F32.round s num den).abs.le y = true := by
  have h1 : (F32.round s num den).abs = F32.round false num den := by
    simp only [F32.round, F32.pack]; split <;> rfl
  rw [h1]
  exact F32.round_le hd hy (by simpa using h)

/-- An integer that a binary32 significand holds converts exactly. -/
theorem F32.ofNat_exact {n : Nat} (hn : n ≤ 16777216) : (F32.ofNat n).isFinite = true ∧ (F32.ofNat n).val = n * 2 ^ 149 := by
  rcases Nat.lt_or_ge n 16777216 with h | h
  · have hu := F32.expStep_upper (n * 2 ^ 149) 1
    have hl := F32.expStep_lower (n * 2 ^ 149) 1
    have hr := F32.roundCode_eq (n * 2 ^ 149) 1
    have he : F32.expStep (n * 2 ^ 149) 1 ≤ 149 := by
      by_contra hc
      have h1 := hl (by omega)
      rw [Nat.le_div_iff_mul_le (by positivity)] at h1
      have h2 : 2 ^ 150 ≤ 2 ^ F32.expStep (n * 2 ^ 149) 1 := Nat.pow_le_pow_right (by decide) (by omega)
      omega
    generalize F32.expStep (n * 2 ^ 149) 1 = e at *
    have hk : n * 2 ^ 149 = n * 2 ^ (149 - e) * (1 * 2 ^ e) := by
      rw [Nat.one_mul, Nat.mul_assoc, ← Nat.pow_add, Nat.sub_add_cancel he]
    have hs : F32.roundStep (n * 2 ^ 149) (1 * 2 ^ e) = n * 2 ^ (149 - e) := by
      rw [hk]; exact F32.roundStep_exact (by positivity)
    have hq : n * 2 ^ 149 / (1 * 2 ^ e) = n * 2 ^ (149 - e) := by
      rw [hk]; exact Nat.mul_div_cancel _ (by positivity)
    rw [hq] at hu hl
    rw [hs] at hr
    have hc : F32.roundCode (n * 2 ^ 149) 1 < 2139095040 := by omega
    rw [F32.ofNat, F32.round, F32.pack, dif_pos hc]
    refine ⟨rfl, ?_⟩
    have := F32.units_code (e := e) (by omega) hl
    simp only [F32.val, F32.signed, Bool.false_eq_true, if_false, hr, this]
    rw [Nat.mul_assoc, ← Nat.pow_add, Nat.sub_add_cancel he]; push_cast; rfl
  · have : n = 16777216 := by omega
    subst this
    exact ⟨by decide, by decide⟩

/-! ### Between two finite bounds -/

/-- A value between two finite values is finite. -/
theorem F32.isFinite_of_between {lo x hi : F32} (hlo : lo.isFinite = true) (hhi : hi.isFinite = true)
    (h1 : lo.le x = true) (h2 : x.le hi = true) : x.isFinite = true := by
  obtain ⟨s, m, rfl⟩ := F32.finite_cases hlo
  obtain ⟨t, n, rfl⟩ := F32.finite_cases hhi
  have hm := m.isLt
  have hn := n.isLt
  cases x with
  | fin _ _ => rfl
  | inf u => cases u <;> cases s <;> cases t <;> simp [F32.le, F32.rank] at h1 h2 <;> omega
  | nan _ _ => simp [F32.le, F32.rank] at h1

/-- A non-NaN value times 1.0 is that value, bit for bit. -/
theorem F32.mul_one {x : F32} (h : x.isNaN = false) : x.mul F32.one = x := by
  have h1 : F32.one = .fin false ⟨1065353216, by decide⟩ := by decide
  cases x with
  | nan s k => cases h
  | inf s => rw [h1]; cases s <;> rfl
  | fin s m =>
    rw [h1]
    have hu : F32.units 1065353216 = 2 ^ 149 := by decide
    rw [F32.mul_fin, F32.round, hu, F32.roundCode_units (by positivity), F32.pack, dif_pos m.isLt, Bool.xor_false]

end Sys2Proof
end

