-- ==== Sys2Proof/Laws/Framing.lean ====
section
/-! SUPPORT. What a decimation or interpolation stage, and a list of them, can do: `BLK.N`, `BLK.FS` and the number of samples change
together, the collaborator is called once per factor, nothing else changes (40_orchestrator_framing.md R140 to R146). -/

namespace Sys2Proof.Machine

@[simp] theorem State.setRate_blk (s : State) (n fs : Nat) : (s.setRate n fs).blk = { s.blk with n := n, fs := fs } := rfl

@[simp] theorem State.setRate_ext (s : State) (n fs : Nat) : (s.setRate n fs).ext = s.ext := rfl

@[simp] theorem State.setRate_par (s : State) (n fs : Nat) : (s.setRate n fs).par = s.par := rfl
@[simp] theorem State.setRate_seq (s : State) (n fs : Nat) : (s.setRate n fs).seq = s.seq := rfl
@[simp] theorem State.setRate_diag (s : State) (n fs : Nat) : (s.setRate n fs).diag = s.diag := rfl
@[simp] theorem State.setRate_inp (s : State) (n fs : Nat) : (s.setRate n fs).inp = s.inp := rfl
@[simp] theorem State.setRate_lat (s : State) (n fs : Nat) : (s.setRate n fs).lat = s.lat := rfl
@[simp] theorem State.setRate_cfg (s : State) (n fs : Nat) : (s.setRate n fs).cfg = s.cfg := rfl
@[simp] theorem State.setRate_agc (s : State) (n fs : Nat) : (s.setRate n fs).agc = s.agc := rfl
@[simp] theorem State.setRate_sam (s : State) (n fs : Nat) : (s.setRate n fs).sam = s.sam := rfl
@[simp] theorem State.setRate_nco (s : State) (n fs : Nat) : (s.setRate n fs).nco = s.nco := rfl
@[simp] theorem State.setRate_queues (s : State) (n fs : Nat) : (s.setRate n fs).queues = s.queues := rfl
@[simp] theorem State.setRate_host (s : State) (n fs : Nat) : (s.setRate n fs).host = s.host := rfl
@[simp] theorem State.setRate_sched (s : State) (n fs : Nat) : (s.setRate n fs).sched = s.sched := rfl
@[simp] theorem State.setRate_marks (s : State) (n fs : Nat) : (s.setRate n fs).marks = s.marks := rfl

section
variable (s : State) (c : ExtCall) (d : Nat)
@[simp] theorem State.decimate_blk : (s.decimate c d).blk =
    { x := (ExtPort.drawSamples (s.blk.n / d) (s.calls c).ext).1, n := s.blk.n / d, fs := s.blk.fs / d,
      valid := s.blk.valid } := rfl
@[simp] theorem State.decimate_calls : (s.decimate c d).ext.calls = s.ext.calls ++ [c] := by
  simp [State.decimate]
@[simp] theorem State.decimate_par : (s.decimate c d).par = s.par := rfl
@[simp] theorem State.decimate_seq : (s.decimate c d).seq = s.seq := rfl
@[simp] theorem State.decimate_diag : (s.decimate c d).diag = s.diag := rfl
@[simp] theorem State.decimate_inp : (s.decimate c d).inp = s.inp := rfl
@[simp] theorem State.decimate_lat : (s.decimate c d).lat = s.lat := rfl
@[simp] theorem State.decimate_cfg : (s.decimate c d).cfg = s.cfg := rfl
@[simp] theorem State.decimate_agc : (s.decimate c d).agc = s.agc := rfl
@[simp] theorem State.decimate_sam : (s.decimate c d).sam = s.sam := rfl
@[simp] theorem State.decimate_nco : (s.decimate c d).nco = s.nco := rfl
@[simp] theorem State.decimate_queues : (s.decimate c d).queues = s.queues := rfl
@[simp] theorem State.decimate_host : (s.decimate c d).host = s.host := rfl
@[simp] theorem State.decimate_sched : (s.decimate c d).sched = s.sched := rfl
@[simp] theorem State.decimate_marks : (s.decimate c d).marks = s.marks := rfl
end

section
variable (s : State) (c : ExtCall) (d : Nat)
@[simp] theorem State.interpolate_blk : (s.interpolate c d).blk =
    { x := (ExtPort.drawSamples (s.blk.n * d) (s.calls c).ext).1, n := s.blk.n * d, fs := s.blk.fs * d,
      valid := s.blk.valid } := rfl
@[simp] theorem State.interpolate_calls : (s.interpolate c d).ext.calls = s.ext.calls ++ [c] := by
  simp [State.interpolate]
@[simp] theorem State.interpolate_par : (s.interpolate c d).par = s.par := rfl
@[simp] theorem State.interpolate_seq : (s.interpolate c d).seq = s.seq := rfl
@[simp] theorem State.interpolate_diag : (s.interpolate c d).diag = s.diag := rfl
@[simp] theorem State.interpolate_inp : (s.interpolate c d).inp = s.inp := rfl
@[simp] theorem State.interpolate_lat : (s.interpolate c d).lat = s.lat := rfl
@[simp] theorem State.interpolate_cfg : (s.interpolate c d).cfg = s.cfg := rfl
@[simp] theorem State.interpolate_agc : (s.interpolate c d).agc = s.agc := rfl
@[simp] theorem State.interpolate_sam : (s.interpolate c d).sam = s.sam := rfl
@[simp] theorem State.interpolate_nco : (s.interpolate c d).nco = s.nco := rfl
@[simp] theorem State.interpolate_queues : (s.interpolate c d).queues = s.queues := rfl
@[simp] theorem State.interpolate_host : (s.interpolate c d).host = s.host := rfl
@[simp] theorem State.interpolate_sched : (s.interpolate c d).sched = s.sched := rfl
@[simp] theorem State.interpolate_marks : (s.interpolate c d).marks = s.marks := rfl
end

section
variable (call : Nat → SampleBlock → ExtCall) (j : Nat) (ds : List Nat) (s : State)
@[simp] theorem decimStages_par : (decimStages call j ds s).par = s.par := by
  induction ds generalizing j s with
  | nil => rfl
  | cons d ds ih => exact ih (j + 1) _
@[simp] theorem decimStages_seq : (decimStages call j ds s).seq = s.seq := by
  induction ds generalizing j s with
  | nil => rfl
  | cons d ds ih => exact ih (j + 1) _
@[simp] theorem decimStages_diag : (decimStages call j ds s).diag = s.diag := by
  induction ds generalizing j s with
  | nil => rfl
  | cons d ds ih => exact ih (j + 1) _
@[simp] theorem decimStages_inp : (decimStages call j ds s).inp = s.inp := by
  induction ds generalizing j s with
  | nil => rfl
  | cons d ds ih => exact ih (j + 1) _
@[simp] theorem decimStages_lat : (decimStages call j ds s).lat = s.lat := by
  induction ds generalizing j s with
  | nil => rfl
  | cons d ds ih => exact ih (j + 1) _
@[simp] theorem decimStages_cfg : (decimStages call j ds s).cfg = s.cfg := by
  induction ds generalizing j s with
  | nil => rfl
  | cons d ds ih => exact ih (j + 1) _
@[simp] theorem decimStages_agc : (decimStages call j ds s).agc = s.agc := by
  induction ds generalizing j s with
  | nil => rfl
  | cons d ds ih => exact ih (j + 1) _
@[simp] theorem decimStages_sam : (decimStages call j ds s).sam = s.sam := by
  induction ds generalizing j s with
  | nil => rfl
  | cons d ds ih => exact ih (j + 1) _
@[simp] theorem decimStages_nco : (decimStages call j ds s).nco = s.nco := by
  induction ds generalizing j s with
  | nil => rfl
  | cons d ds ih => exact ih (j + 1) _
@[simp] theorem decimStages_queues : (decimStages call j ds s).queues = s.queues := by
  induction ds generalizing j s with
  | nil => rfl
  | cons d ds ih => exact ih (j + 1) _
@[simp] theorem decimStages_host : (decimStages call j ds s).host = s.host := by
  induction ds generalizing j s with
  | nil => rfl
  | cons d ds ih => exact ih (j + 1) _
@[simp] theorem decimStages_sched : (decimStages call j ds s).sched = s.sched := by
  induction ds generalizing j s with
  | nil => rfl
  | cons d ds ih => exact ih (j + 1) _
@[simp] theorem decimStages_marks : (decimStages call j ds s).marks = s.marks := by
  induction ds generalizing j s with
  | nil => rfl
  | cons d ds ih => exact ih (j + 1) _
end

section
variable (call : Nat → SampleBlock → ExtCall) (j : Nat) (ds : List Nat) (s : State)
@[simp] theorem interpStages_par : (interpStages call j ds s).par = s.par := by
  induction ds generalizing j with
  | nil => rfl
  | cons d ds ih => exact ih (j + 1)
@[simp] theorem interpStages_seq : (interpStages call j ds s).seq = s.seq := by
  induction ds generalizing j with
  | nil => rfl
  | cons d ds ih => exact ih (j + 1)
@[simp] theorem interpStages_diag : (interpStages call j ds s).diag = s.diag := by
  induction ds generalizing j with
  | nil => rfl
  | cons d ds ih => exact ih (j + 1)
@[simp] theorem interpStages_inp : (interpStages call j ds s).inp = s.inp := by
  induction ds generalizing j with
  | nil => rfl
  | cons d ds ih => exact ih (j + 1)
@[simp] theorem interpStages_lat : (interpStages call j ds s).lat = s.lat := by
  induction ds generalizing j with
  | nil => rfl
  | cons d ds ih => exact ih (j + 1)
@[simp] theorem interpStages_cfg : (interpStages call j ds s).cfg = s.cfg := by
  induction ds generalizing j with
  | nil => rfl
  | cons d ds ih => exact ih (j + 1)
@[simp] theorem interpStages_agc : (interpStages call j ds s).agc = s.agc := by
  induction ds generalizing j with
  | nil => rfl
  | cons d ds ih => exact ih (j + 1)
@[simp] theorem interpStages_sam : (interpStages call j ds s).sam = s.sam := by
  induction ds generalizing j with
  | nil => rfl
  | cons d ds ih => exact ih (j + 1)
@[simp] theorem interpStages_nco : (interpStages call j ds s).nco = s.nco := by
  induction ds generalizing j with
  | nil => rfl
  | cons d ds ih => exact ih (j + 1)
@[simp] theorem interpStages_queues : (interpStages call j ds s).queues = s.queues := by
  induction ds generalizing j with
  | nil => rfl
  | cons d ds ih => exact ih (j + 1)
@[simp] theorem interpStages_host : (interpStages call j ds s).host = s.host := by
  induction ds generalizing j with
  | nil => rfl
  | cons d ds ih => exact ih (j + 1)
@[simp] theorem interpStages_sched : (interpStages call j ds s).sched = s.sched := by
  induction ds generalizing j with
  | nil => rfl
  | cons d ds ih => exact ih (j + 1)
@[simp] theorem interpStages_marks : (interpStages call j ds s).marks = s.marks := by
  induction ds generalizing j with
  | nil => rfl
  | cons d ds ih => exact ih (j + 1)
end

section
variable (call : Nat → SampleBlock → ExtCall)

@[simp] theorem decimStages_valid (j : Nat) (ds : List Nat) (s : State) :
    (decimStages call j ds s).blk.valid = s.blk.valid := by
  induction ds generalizing j s with
  | nil => rfl
  | cons d ds ih => exact ih (j + 1) _

@[simp] theorem interpStages_valid (j : Nat) (ds : List Nat) (s : State) :
    (interpStages call j ds s).blk.valid = s.blk.valid := by
  induction ds generalizing j with
  | nil => rfl
  | cons d ds ih => exact ih (j + 1)

/-- The samples stay as many as `BLK.N` says (10_state.md R22). -/
theorem decimStages_length (j : Nat) (ds : List Nat) {s : State} (h : s.blk.x.length = s.blk.n) :
    (decimStages call j ds s).blk.x.length = (decimStages call j ds s).blk.n := by
  induction ds generalizing j s with
  | nil => exact h
  | cons d ds ih => exact ih (j + 1) (by simp)

theorem interpStages_length (j : Nat) (ds : List Nat) {s : State} (h : s.blk.x.length = s.blk.n) :
    (interpStages call j ds s).blk.x.length = (interpStages call j ds s).blk.n := by
  cases ds with
  | nil => exact h
  | cons d ds => simp [interpStages]

/-- The length after the stages is the length before divided by each factor in turn. -/
theorem decimStages_n (j : Nat) (ds : List Nat) (s : State) :
    (decimStages call j ds s).blk.n = s.blk.n / factorProduct ds := by
  induction ds generalizing j s with
  | nil => simp [decimStages, factorProduct]
  | cons d ds ih =>
    show (decimStages call (j + 1) ds (s.decimate (call j s.blk) d)).blk.n = _
    rw [ih, State.decimate_blk, Nat.div_div_eq_div_mul, factorProduct]

theorem decimStages_fs (j : Nat) (ds : List Nat) (s : State) :
    (decimStages call j ds s).blk.fs = s.blk.fs / factorProduct ds := by
  induction ds generalizing j s with
  | nil => simp [decimStages, factorProduct]
  | cons d ds ih =>
    show (decimStages call (j + 1) ds (s.decimate (call j s.blk) d)).blk.fs = _
    rw [ih, State.decimate_blk, Nat.div_div_eq_div_mul, factorProduct]

theorem interpStages_n (j : Nat) (ds : List Nat) (s : State) :
    (interpStages call j ds s).blk.n = s.blk.n * factorProduct ds := by
  induction ds generalizing j with
  | nil => simp [interpStages, factorProduct]
  | cons d ds ih =>
    show (interpStages call (j + 1) ds s).blk.n * d = _
    rw [ih, factorProduct, Nat.mul_assoc, Nat.mul_comm (factorProduct ds) d]

theorem interpStages_fs (j : Nat) (ds : List Nat) (s : State) :
    (interpStages call j ds s).blk.fs = s.blk.fs * factorProduct ds := by
  induction ds generalizing j with
  | nil => simp [interpStages, factorProduct]
  | cons d ds ih =>
    show (interpStages call (j + 1) ds s).blk.fs * d = _
    rw [ih, factorProduct, Nat.mul_assoc, Nat.mul_comm (factorProduct ds) d]

end

/-- Factors that divide through multiply back to the number they divided (00_scope.md R10). -/
theorem dividesThrough_mul {ds : List Nat} {n : Nat} (h : dividesThrough ds n = true) :
    n / factorProduct ds * factorProduct ds = n := by
  induction ds generalizing n with
  | nil => simp [factorProduct]
  | cons d ds ih =>
    simp only [dividesThrough, Bool.and_eq_true, decide_eq_true_eq] at h
    have h2 := ih h.2
    rw [factorProduct, ← Nat.div_div_eq_div_mul, Nat.mul_comm d, ← Nat.mul_assoc, h2]
    exact Nat.div_mul_cancel (Nat.dvd_of_mod_eq_zero h.1.2)

theorem factorProduct_pos {ds : List Nat} {n : Nat} (h : dividesThrough ds n = true) : 0 < factorProduct ds := by
  induction ds generalizing n with
  | nil => decide
  | cons d ds ih =>
    simp only [dividesThrough, Bool.and_eq_true, decide_eq_true_eq] at h
    exact Nat.mul_pos (by omega) (ih h.2)

end Sys2Proof.Machine
end

