-- ==== Sys2Proof/Laws/Wrap.lean ====
section
/-! SUPPORT. What `WRAP2PI` can do (44_sam_demodulator.md R243): where it leaves a value, where it ends, where it never ends; and how far
`FSHIFT` moves the phase it wraps (42_frequency_translation.md R186). -/

namespace Sys2Proof.Machine

theorem twoPi_finite : F32.twoPiF.isFinite = true := by decide

theorem zero_finite : F32.zero.isFinite = true := by decide

theorem val_zero : F32.zero.val = 0 := by decide

theorem val_twoPi_pos : 0 < F32.twoPiF.val := by decide

theorem wrapDown_some {k : Nat} {x y : F32} (h : wrapDown k x = some y) : y.ge F32.twoPiF = false := by
  induction k generalizing x with
  | zero => cases h
  | succ k ih =>
    unfold wrapDown at h
    split at h
    · split at h
      · cases h
      · exact ih h
    · cases h
      exact Bool.eq_false_of_not_eq_true ‹_›

theorem wrapUp_some {k : Nat} {x y : F32} (h : wrapUp k x = some y) (hx : x.gt F32.twoPiF = false) :
    PhaseLegal y := by
  induction k generalizing x with
  | zero => cases h
  | succ k ih =>
    unfold wrapUp at h
    split at h
    · rename_i hneg
      split at h
      · cases h
      · refine ih h ?_
        cases x with
        | fin s m =>
          have hv := (F32.lt_iff_val (a := .fin s m) rfl zero_finite).mp hneg
          rw [val_zero] at hv
          have hle : ((F32.fin s m).add F32.twoPiF).le F32.twoPiF = true :=
            F32.add_le rfl twoPi_finite twoPi_finite (by omega)
          exact F32.not_lt_of_le hle
        | inf s =>
          cases s
          · cases hneg
          · rfl
        | nan s k => cases hneg
    · cases h
      exact ⟨Bool.eq_false_of_not_eq_true ‹_›, hx⟩

/-- A wrap that ends leaves the value at neither side of `[0, TWO_PI_F]`, both ends included (90_conflicts.md C4). -/
theorem wrap2pi_some {x y : F32} (h : wrap2pi x = some y) : PhaseLegal y := by
  obtain ⟨z, hz, hy⟩ := Option.bind_eq_some_iff.mp h
  refine wrapUp_some hy ?_
  have h1 := wrapDown_some hz
  by_contra hc
  have h2 : z.gt F32.twoPiF = true := by simpa using hc
  have h3 := F32.le_of_lt h2
  rw [F32.ge, h3] at h1
  cases h1

/-- Below `TWO_PI_F` (a NaN among them) the first loop does nothing. -/
theorem wrapDown_below {k : Nat} {x : F32} (h : x.ge F32.twoPiF = false) : wrapDown (k + 1) x = some x := by
  simp [wrapDown, h]

/-- From zero up (a NaN among them) the second loop does nothing. -/
theorem wrapUp_above {k : Nat} {x : F32} (h : x.lt F32.zero = false) : wrapUp (k + 1) x = some x := by
  simp [wrapUp, h]

theorem wrapFuel_eq : wrapFuel = 33554428 + 4 := rfl

/-- A value already in `[0, TWO_PI_F)`, or a NaN, is returned as it is. -/
theorem wrap2pi_inside {x : F32} (h1 : x.ge F32.twoPiF = false) (h2 : x.lt F32.zero = false) : wrap2pi x = some x := by
  unfold wrap2pi
  rw [wrapFuel_eq, wrapDown_below h1]
  exact wrapUp_above h2

/-- An infinite argument never ends (44_sam_demodulator.md R243, corner case 2). -/
theorem wrap2pi_inf (s : Bool) : wrap2pi (.inf s) = none := by
  unfold wrap2pi
  rw [wrapFuel_eq]
  cases s
  · have h1 : (F32.inf false).ge F32.twoPiF = true := by decide
    have h2 : (F32.inf false).sub F32.twoPiF = .inf false := by decide
    show (wrapDown (33554428 + 3 + 1) (.inf false)).bind _ = none
    rw [wrapDown, if_pos h1, if_pos h2]
    rfl
  · have h1 : (F32.inf true).ge F32.twoPiF = false := by decide
    have h2 : (F32.inf true).lt F32.zero = true := by decide
    have h3 : (F32.inf true).add F32.twoPiF = .inf true := by decide
    rw [wrapDown_below h1]
    show wrapUp (33554428 + 3 + 1) (.inf true) = none
    rw [wrapUp, if_pos h2, if_pos h3]

/-- One step of the first loop from within two turns lands in `[0, TWO_PI_F]` and moves. -/
theorem sub_twoPi_bounds {x : F32} (hx : x.isFinite = true) (h1 : F32.twoPiF.val ≤ x.val)
    (h2 : x.val ≤ 2 * F32.twoPiF.val) :
    F32.zero.le (x.sub F32.twoPiF) = true ∧ (x.sub F32.twoPiF).le F32.twoPiF = true ∧ x.sub F32.twoPiF ≠ x ∧
      (x.val = F32.twoPiF.val → (x.sub F32.twoPiF).le F32.zero = true) := by
  have hT := val_twoPi_pos
  have hn : F32.twoPiF.neg.isFinite = true := by decide
  have hv : F32.twoPiF.neg.val = -F32.twoPiF.val := F32.val_neg _
  rw [F32.sub_eq_add_neg hx twoPi_finite]
  have hlo : F32.zero.le (x.add F32.twoPiF.neg) = true :=
    F32.le_add hx hn zero_finite (by rw [val_zero]; omega)
  have hhi : (x.add F32.twoPiF.neg).le F32.twoPiF = true := F32.add_le hx hn twoPi_finite (by omega)
  have hz : x.val = F32.twoPiF.val → (x.add F32.twoPiF.neg).le F32.zero = true := fun he =>
    F32.add_le hx hn zero_finite (by rw [val_zero]; omega)
  refine ⟨hlo, hhi, fun heq => ?_, hz⟩
  rw [heq] at hhi hz
  have h3 := (F32.le_iff_val hx twoPi_finite).mp hhi
  have h4 := (F32.le_iff_val hx zero_finite).mp (hz (by omega))
  rw [val_zero] at h4
  omega

/-- Within one turn below and two turns above zero the wrap ends, in `[0, TWO_PI_F]` (44_sam_demodulator.md R243, corner case 5). -/
theorem wrap2pi_ends {x : F32} (hx : x.isFinite = true) (h1 : -F32.twoPiF.val ≤ x.val)
    (h2 : x.val ≤ 2 * F32.twoPiF.val) :
    ∃ y, wrap2pi x = some y ∧ F32.zero.le y = true ∧ y.le F32.twoPiF = true := by
  have hT := val_twoPi_pos
  have ge_iff : ∀ z : F32, z.isFinite = true → (z.ge F32.twoPiF = true ↔ F32.twoPiF.val ≤ z.val) := fun z hz =>
    F32.le_iff_val twoPi_finite hz
  have lt_iff : ∀ z : F32, z.isFinite = true → (z.lt F32.zero = true ↔ z.val < 0) := fun z hz => by
    rw [F32.lt_iff_val hz zero_finite, val_zero]
  have ge_false : ∀ z : F32, z.isFinite = true → z.val < F32.twoPiF.val → z.ge F32.twoPiF = false := fun z hz h => by
    cases hc : z.ge F32.twoPiF with
    | false => rfl
    | true => have := (ge_iff z hz).mp hc; omega
  have lt_false : ∀ z : F32, z.isFinite = true → 0 ≤ z.val → z.lt F32.zero = false := fun z hz h => by
    cases hc : z.lt F32.zero with
    | false => rfl
    | true => have := (lt_iff z hz).mp hc; omega
  by_cases hneg : x.val < 0
  · -- one addition
    have hfin : F32.zero.le (x.add F32.twoPiF) = true := F32.le_add hx twoPi_finite zero_finite (by
      rw [val_zero]; omega)
    have hle : (x.add F32.twoPiF).le F32.twoPiF = true := F32.add_le hx twoPi_finite twoPi_finite (by omega)
    have hf := F32.isFinite_of_between zero_finite twoPi_finite hfin hle
    have hv0 := (F32.le_iff_val zero_finite hf).mp hfin
    rw [val_zero] at hv0
    refine ⟨x.add F32.twoPiF, ?_, hfin, hle⟩
    unfold wrap2pi
    rw [wrapFuel_eq, wrapDown_below (ge_false x hx (by omega))]
    have hne : x.add F32.twoPiF ≠ x := fun he => by rw [he] at hv0; omega
    show wrapUp (33554428 + 3 + 1) x = _
    rw [wrapUp, if_pos ((lt_iff x hx).mpr hneg), if_neg hne]
    exact wrapUp_above (lt_false _ hf hv0)
  · by_cases hlow : x.val < F32.twoPiF.val
    · refine ⟨x, wrap2pi_inside (ge_false x hx hlow) (lt_false x hx (by omega)), ?_, ?_⟩
      · exact (F32.le_iff_val zero_finite hx).mpr (by rw [val_zero]; omega)
      · exact (F32.le_iff_val hx twoPi_finite).mpr (by omega)
    · -- one subtraction, or two
      obtain ⟨b1, b2, b3, _⟩ := sub_twoPi_bounds hx (by omega) h2
      have hf := F32.isFinite_of_between zero_finite twoPi_finite b1 b2
      have v0 := (F32.le_iff_val zero_finite hf).mp b1
      have v1 := (F32.le_iff_val hf twoPi_finite).mp b2
      rw [val_zero] at v0
      have hstep : wrapDown wrapFuel x = wrapDown (33554428 + 3) (x.sub F32.twoPiF) := by
        rw [wrapFuel_eq]
        show wrapDown (33554428 + 3 + 1) x = _
        rw [wrapDown, if_pos ((ge_iff x hx).mpr (by omega)), if_neg b3]
      by_cases hlow2 : (x.sub F32.twoPiF).val < F32.twoPiF.val
      · refine ⟨x.sub F32.twoPiF, ?_, b1, b2⟩
        unfold wrap2pi
        rw [hstep, wrapDown_below (ge_false _ hf hlow2)]
        exact wrapUp_above (k := 33554428 + 3) (lt_false _ hf v0)
      · obtain ⟨c1, c2, c3, c4⟩ := sub_twoPi_bounds hf (by omega) (by omega)
        have c5 := c4 (by omega)
        generalize x.sub F32.twoPiF = y at *
        have hf2 := F32.isFinite_of_between zero_finite zero_finite c1 c5
        have w0 := (F32.le_iff_val zero_finite hf2).mp c1
        have w1 := (F32.le_iff_val hf2 zero_finite).mp c5
        rw [val_zero] at w0 w1
        refine ⟨y.sub F32.twoPiF, ?_, c1, c2⟩
        unfold wrap2pi
        rw [hstep]
        show (wrapDown (33554428 + 2 + 1) y).bind _ = _
        rw [wrapDown, if_pos ((ge_iff y hf).mpr (by omega)), if_neg c3, wrapDown_below (ge_false _ hf2 (by omega))]
        exact wrapUp_above (k := 33554428 + 3) (lt_false _ hf2 w0)

/-! ### The step of the fine-tune oscillator -/

/-- A frequency below the rate turns the oscillator by at most one turn a sample (42_frequency_translation.md R186); the rate is one that
binary32 holds exactly. -/
theorem phaseStep_le_turn {f : F32} {fs : Nat} (hf : f.magnitudeBelow fs = true) (hs : fs ≤ 16777216) :
    (phaseStep f fs).abs.le F32.twoPiF = true := by
  cases f with
  | inf s => cases hf
  | nan s k => cases hf
  | fin s m =>
    have hm : F32.units m.val < fs * 2 ^ 149 := of_decide_eq_true hf
    have hg := F32.units_gap hs hm
    obtain ⟨h1, h2⟩ := F32.ofNat_exact hs
    have hT : F32.twoPiF = .fin false ⟨1086918619, by decide⟩ := by decide
    have huT : F32.units 1086918619 = 13176795 * 2 ^ 128 := by decide
    have hpos : 0 < fs := by by_contra hc; simp [show fs = 0 by omega] at hm
    have hr := F32.units_roundCode_le (num := F32.units 1086918619 * F32.units m.val) (den := 2 ^ 149) (by positivity)
    have hle : F32.units (F32.roundCode (F32.units 1086918619 * F32.units m.val) (2 ^ 149)) ≤ 13176795 * 2 ^ 128 * fs := by
      rw [huT] at hr ⊢
      generalize F32.units (F32.roundCode (13176795 * 2 ^ 128 * F32.units m.val) (2 ^ 149)) = p at *
      rcases hr with hr | hr
      · have : 13176795 * 2 ^ 128 * 1 ≤ 13176795 * 2 ^ 128 * fs := Nat.mul_le_mul_left _ hpos
        omega
      · generalize F32.units m.val = a at *
        omega
    have hc : F32.roundCode (F32.units 1086918619 * F32.units m.val) (2 ^ 149) < 2139095040 := by
      by_contra hc
      have h3 := F32.units_mono (Nat.le_of_not_lt hc)
      have h4 : F32.units 2139095040 = 8388608 * 2 ^ 254 := by decide
      have h5 : 13176795 * 2 ^ 128 * fs ≤ 13176795 * 2 ^ 128 * 16777216 := Nat.mul_le_mul_left _ hs
      omega
    obtain ⟨t, n, hn⟩ := F32.finite_cases h1
    have hn0 : (F32.units n.val : Int) = fs * 2 ^ 149 ∧ t = false := by
      rw [hn] at h2
      cases t <;> simp only [F32.val, F32.signed, if_true, if_false, Bool.false_eq_true] at h2
      · exact ⟨h2, rfl⟩
      · omega
    have hn1 : F32.units n.val = fs * 2 ^ 149 := by exact_mod_cast hn0.1
    have hnz : n.val ≠ 0 := fun h => by rw [h] at hn1; simp at hn1; omega
    rw [phaseStep, hn, hT, F32.mul_fin, F32.round, F32.pack, dif_pos hc, F32.div_fin _ _ _ _ hnz, hn1]
    refine F32.abs_round_le (by positivity) rfl ?_
    have hv : (F32.fin false ⟨1086918619, by decide⟩).val = 13176795 * 2 ^ 128 := by decide
    rw [hv]
    generalize F32.units (F32.roundCode (F32.units 1086918619 * F32.units m.val) (2 ^ 149)) = p at *
    push_cast
    omega

end Sys2Proof.Machine
end

