-- ==== Sys2Proof/Laws/Exec.lean ====
section
/-! SUPPORT. What each meaning can do, said once: if it answers a next state, that state is this one. A meaning without a condition
needs no lemma: it is its equation. -/

namespace Sys2Proof.Machine

variable {s t : State}

theorem execPull_next (h : execPull s = .next t) : (pullRx s = none ∧ t = s) ∨ pullRx s = some t := by
  unfold execPull at h
  split at h
  · rename_i hn
    cases h
    exact .inl ⟨hn, rfl⟩
  · rename_i u hu
    cases h
    exact .inr hu

theorem execTxpull_next (h : execTxpull s = .next t) : (pullTx s = none ∧ t = s) ∨ pullTx s = some t := by
  unfold execTxpull at h
  split at h
  · rename_i hn
    cases h
    exact .inl ⟨hn, rfl⟩
  · rename_i u hu
    cases h
    exact .inr hu

theorem execRfgain_next (h : execRfgain s = .next t) :
    s.lat.bandInRange s.par = true ∧
      t = (s.mapSamples (Sample.scale (combinedGain s.par s.lat.rfGainAllBandsDb s.lat.activeEntry.rfGainDb))).advance := by
  obtain ⟨hb, h⟩ := whenBand_next h
  cases h
  exact ⟨hb, rfl⟩

theorem execIqcorr_next (h : execIqcorr s = .next t) :
    s.lat.bandInRange s.par = true ∧
      t = ((s.markIqc s.lat.activeBand).mapSamples
        (iqCorrect (s.cfg.iqPair s.lat.activeBand).amp (s.cfg.iqPair s.lat.activeBand).phase)).advance := by
  obtain ⟨hb, h⟩ := whenBand_next h
  cases h
  exact ⟨hb, rfl⟩

theorem execConvfilt_next (h : execConvfilt s = .next t) :
    s.lat.bandInRange s.par = true ∧
      t = (s.filter (.convolve s.lat.filtCfg s.lat.activeEntry.filter s.blk)).advance := by
  obtain ⟨hb, h⟩ := whenBand_next h
  cases h
  exact ⟨hb, rfl⟩

theorem execFshift_next (h : execFshift s = .next t) :
    ∃ x theta, fshiftLoop s.par (phaseStep s.lat.fineFreqHz s.blk.fs) s.nco s.blk.x = some (x, theta) ∧
      t = ((s.setSamples x).setNco theta).advance := by
  unfold execFshift at h
  split at h
  · cases h
  · rename_i x theta hl
    cases h
    exact ⟨x, theta, hl, rfl⟩

/-- The loop of `FSHIFT` gives one sample per sample and leaves the phase as a wrap leaves it. -/
theorem fshiftLoop_some {par : Par} {dtheta theta last : F32} {zs x : List Sample}
    (h : fshiftLoop par dtheta theta zs = some (x, last)) :
    x.length = zs.length ∧ ((zs = [] ∧ last = theta) ∨ PhaseLegal last) := by
  induction zs generalizing theta x with
  | nil => cases h; exact ⟨rfl, .inl ⟨rfl, rfl⟩⟩
  | cons z zs ih =>
    unfold fshiftLoop at h
    split at h
    · cases h
    · rename_i theta' hw
      split at h
      · cases h
      · rename_i ys l hl
        cases h
        obtain ⟨h1, h2⟩ := ih hl
        refine ⟨by simp [h1], .inr ?_⟩
        rcases h2 with ⟨rfl, rfl⟩ | h2
        · exact wrap2pi_some hw
        · exact h2

theorem execAgc_next (h : execAgc s = .next t) :
    (s.cfg.agcMode = 0 ∧ t = (s.markAgc.mapSamples (agcOff s.agc.p.fixedGain)).advance) ∨
      (s.cfg.agcMode ≠ 0 ∧
        t = ((s.markAgc.setSamples (agcLoop s.par s.agc s.blk.x).2).setAgc (agcLoop s.par s.agc s.blk.x).1).advance) := by
  unfold execAgc at h
  dsimp only at h
  split at h
  · cases h; exact .inl ⟨‹_›, rfl⟩
  · cases h; exact .inr ⟨‹_›, rfl⟩

/-- The precondition check touches the log alone. -/
theorem samPrecond_cases (s : State) :
    samPrecond s = s ∨ samPrecond s = s.raise .precondViolation s.blk.n s.blk.fs := by
  unfold samPrecond
  split
  · exact .inr rfl
  · exact .inl rfl

theorem demodSam_next (h : demodSam s = .next t) :
    ∃ m x, samLoop s.par s.sam s.blk.x = some (m, x) ∧
      t = (((samPrecond s).setSamples x).setSam (samCarrier s.blk.fs m)).advance := by
  unfold demodSam at h
  split at h
  · cases h
  · rename_i m x hl
    cases h
    exact ⟨m, x, hl, rfl⟩

theorem execDemod_next (h : execDemod s = .next t) :
    (s.lat.demodMode = 0#3 ∧ t = (s.mapSamples usbSample).advance) ∨
      (s.lat.demodMode = 1#3 ∧ t = (s.mapSamples amSample).advance) ∨
      (s.lat.demodMode = 2#3 ∧ demodSam s = .next t) := by
  unfold execDemod at h
  split at h
  · cases h; exact .inl ⟨‹_›, rfl⟩
  · split at h
    · cases h; exact .inr (.inl ⟨‹_›, rfl⟩)
    · split at h
      · exact .inr (.inr ⟨‹_›, h⟩)
      · cases h

theorem samSample_some {par : Par} {m m' : SamState} {z : Sample} {audio : F32}
    (h : samSample par m z = some (m', audio)) :
    PhaseLegal m'.phase ∧ ∃ w, m'.omega = clampOmega par.sam.omegaLim w := by
  unfold samSample at h
  dsimp only at h
  split at h
  · cases h
  · rename_i phase hw
    cases h
    exact ⟨wrap2pi_some hw, _, rfl⟩

/-- The loop of `DEMOD.SAM` gives one sample per sample, both channels the same, and leaves phase and accumulator in range. -/
theorem samLoop_some {par : Par} {m m' : SamState} {zs x : List Sample} (h : samLoop par m zs = some (m', x)) :
    x.length = zs.length ∧ (∀ z ∈ x, z.q = z.i) ∧
      ((zs = [] ∧ m' = m) ∨ (PhaseLegal m'.phase ∧ ∃ w, m'.omega = clampOmega par.sam.omegaLim w)) := by
  induction zs generalizing m x with
  | nil => cases h; exact ⟨rfl, by simp, .inl ⟨rfl, rfl⟩⟩
  | cons z zs ih =>
    unfold samLoop at h
    split at h
    · cases h
    · rename_i m1 audio hs
      split at h
      · cases h
      · rename_i last ys hl
        cases h
        obtain ⟨h1, h2, h3⟩ := ih hl
        refine ⟨by simp [h1], ?_, .inr ?_⟩
        · intro w hw
          rcases List.mem_cons.mp hw with rfl | hw
          · rfl
          · exact h2 w hw
        · rcases h3 with ⟨rfl, rfl⟩ | h3
          · exact samSample_some hs
          · exact h3

/-- The loop of `DEMOD.SAM` over a block in two parts (44_sam_demodulator.md R231). -/
theorem samLoop_append (par : Par) (m : SamState) (xs ys : List Sample) :
    samLoop par m (xs ++ ys) =
      match samLoop par m xs with
      | none => none
      | some (m1, x1) =>
        match samLoop par m1 ys with
        | none => none
        | some (m2, x2) => some (m2, x1 ++ x2) := by
  induction xs generalizing m with
  | nil => simp only [List.nil_append, samLoop]; cases samLoop par m ys <;> rfl
  | cons z zs ih =>
    simp only [List.cons_append, samLoop]
    cases samSample par m z with
    | none => rfl
    | some p =>
      simp only [ih]
      cases samLoop par p.1 zs with
      | none => rfl
      | some q => simp only; cases samLoop par q.1 ys <;> rfl

/-- The two carrier fields take no part in the sample loop (44_sam_demodulator.md R244, R245). -/
theorem samLoop_carrier (par : Par) (m : SamState) (hz smooth : F32) (zs : List Sample) :
    samLoop par { m with carrierHz := hz, carrierSmooth := smooth } zs =
      (samLoop par m zs).map fun p => ({ p.1 with carrierHz := hz, carrierSmooth := smooth }, p.2) := by
  have one : ∀ (m : SamState) (z : Sample), samSample par { m with carrierHz := hz, carrierSmooth := smooth } z =
      (samSample par m z).map fun p => ({ p.1 with carrierHz := hz, carrierSmooth := smooth }, p.2) := by
    intro m z
    unfold samSample
    dsimp only
    generalize wrap2pi _ = o
    cases o
    · rfl
    · simp only [samFade, samLevelled, Option.map_some]; cases par.sam.fadeEn <;> rfl
  induction zs generalizing m with
  | nil => rfl
  | cons z zs ih =>
    simp only [samLoop, one]
    cases samSample par m z with
    | none => rfl
    | some p => simp only [Option.map_some, ih]; cases samLoop par p.1 zs <;> rfl

@[simp] theorem samCarrier_omega (fs : Nat) (m : SamState) : (samCarrier fs m).omega = m.omega := rfl

@[simp] theorem samCarrier_phase (fs : Nat) (m : SamState) : (samCarrier fs m).phase = m.phase := rfl

/-- The accumulator after the two clamps is not outside the bounds (44_sam_demodulator.md R240). -/
theorem clampOmega_bounds {lim : F32} (w : F32) (h : lim.isNonneg = true) :
    (clampOmega lim w).lt lim.neg = false ∧ (clampOmega lim w).gt lim = false := by
  simp only [F32.isNonneg, Bool.and_eq_true] at h
  have hle : lim.neg.le lim = true := by
    have h0 := (F32.le_iff_val zero_finite h.1).mp h.2
    rw [val_zero] at h0
    exact (F32.le_iff_val (by rw [F32.isFinite_neg]; exact h.1) h.1).mpr (by rw [F32.val_neg]; omega)
  unfold clampOmega
  dsimp only
  split
  · rw [F32.gt, F32.not_lt_of_le hle]
    exact ⟨F32.lt_irrefl _, F32.not_lt_of_le hle⟩
  · split
    · exact ⟨F32.not_lt_of_le hle, F32.lt_irrefl _⟩
    · exact ⟨Bool.eq_false_of_not_eq_true ‹_›, Bool.eq_false_of_not_eq_true ‹_›⟩

theorem execTick_next (h : execTick s = .next t) :
    s.seq.pass = .idle ∧
      ((s.inp.dispatchSel = 1#2 ∧ startRx false s = .next t) ∨ (s.inp.dispatchSel = 2#2 ∧ startTx false s = .next t) ∨
        (s.inp.dispatchSel ≠ 1#2 ∧ s.inp.dispatchSel ≠ 2#2 ∧ t = s)) := by
  obtain ⟨hi, h⟩ := whenIdle_next h
  refine ⟨hi, ?_⟩
  split at h
  · exact .inl ⟨‹_›, h⟩
  · split at h
    · exact .inr (.inl ⟨‹_›, h⟩)
    · cases h; exact .inr (.inr ⟨‹_›, ‹_›, rfl⟩)

theorem execCfgAgc_next {mode fs : Nat} (h : execCfgAgc mode fs s = .next t) :
    s.seq.pass = .idle ∧
      (((s.par.agcModeMax < mode ∨ fs = 0) ∧ t = s) ∨
        (mode ≤ s.par.agcModeMax ∧ fs ≠ 0 ∧ s.inp.ports.bandInRange s.par = true ∧
          (mode = 0 ∨ (loadedProfile s mode fs).wf fs = true) ∧ t = acceptAgc s mode fs)) := by
  obtain ⟨hi, h⟩ := whenIdle_next h
  refine ⟨hi, ?_⟩
  split at h
  · cases h; exact .inl ⟨‹_›, rfl⟩
  · rename_i hc
    obtain ⟨hb, h⟩ := whenBand_next h
    split at h
    · cases h; exact .inr ⟨by omega, by omega, hb, ‹_›, rfl⟩
    · cases h

theorem execCfgNr_next {option : Nat} (h : execCfgNr option s = .next t) :
    s.seq.pass = .idle ∧
      ((3 < option ∧ t = s) ∨
        (option ≤ 3 ∧ t = s.setCfg { s.cfg with nrOption := BitVec.ofNat 2 option, nrWritten := true })) := by
  obtain ⟨hi, h⟩ := whenIdle_next h
  refine ⟨hi, ?_⟩
  split at h
  · cases h; exact .inl ⟨‹_›, rfl⟩
  · cases h; exact .inr ⟨by omega, rfl⟩

theorem execSetIqc_next {band : Nat} {amp phase : F32} (h : execSetIqc band amp phase s = .next t) :
    s.seq.pass = .idle ∧
      ((s.par.numBands ≤ band ∧ t = s) ∨
        (band < s.par.numBands ∧ t = s.setCfg (s.cfg.setIqPair band amp phase))) := by
  obtain ⟨hi, h⟩ := whenIdle_next h
  refine ⟨hi, ?_⟩
  split at h
  · cases h; exact .inl ⟨‹_›, rfl⟩
  · cases h; exact .inr ⟨by omega, rfl⟩

theorem execRdIqc_next {band : Nat} (h : execRdIqc band s = .next t) :
    s.seq.pass = .idle ∧
      ((s.par.numBands ≤ band ∧ t = s.returns .nothing) ∨
        (band < s.par.numBands ∧
          t = (s.markIqc band).returns (.pair (s.cfg.iqPair band).amp (s.cfg.iqPair band).phase))) := by
  obtain ⟨hi, h⟩ := whenIdle_next h
  refine ⟨hi, ?_⟩
  split at h
  · cases h; exact .inl ⟨‹_›, rfl⟩
  · cases h; exact .inr ⟨by omega, rfl⟩

theorem execBulkClear_next {mask : Nat} (h : execBulkClear mask s = .next t) :
    s.seq.pass = .idle ∧
      ((3 < mask ∧ t = s) ∨
        (mask ≤ 3 ∧ t = s.setQueues
          { s.queues with
            capq := if mask.testBit 0 then [] else s.queues.capq
            playq := if mask.testBit 1 then [] else s.queues.playq })) := by
  obtain ⟨hi, h⟩ := whenIdle_next h
  refine ⟨hi, ?_⟩
  split at h
  · cases h; exact .inl ⟨‹_›, rfl⟩
  · cases h; exact .inr ⟨by omega, rfl⟩

/-! ### The step -/

theorem onNext_next {f : State → State} {r : Result} (h : onNext f r = .next t) : ∃ u, r = .next u ∧ t = f u := by
  cases r with
  | next u => cases h; exact ⟨u, rfl, rfl⟩
  | fault r => cases h
  | refused r => cases h

/-- All that a step of the idle block can do. -/
theorem hostStep_next (h : hostStep s = .next t) :
    (∃ i n, decode s.host.cmd = .op i n ∧ issue i (s.consume n) = .next t) ∨
      (∃ why, decode s.host.cmd = .reserved why ∧ t = s.consume 1) ∨ (decode s.host.cmd = .needMore ∧ t = s) := by
  unfold hostStep at h
  split at h
  · exact .inl ⟨_, _, ‹_›, h⟩
  · cases h; exact .inr (.inl ⟨_, ‹_›, rfl⟩)
  · cases h; exact .inr (.inr ⟨‹_›, rfl⟩)

theorem issue_next {i : Instr} (h : issue i s = .next t) :
    (stagePosition i = none ∧ exec i s = .next t) ∨
      (∃ p k u, stagePosition i = some (p, k) ∧ exec i (s.atStage p k) = .next u ∧ t = u.endPass) := by
  unfold issue at h
  split at h
  · exact .inl ⟨‹_›, h⟩
  · obtain ⟨u, hu, rfl⟩ := onNext_next h
    exact .inr ⟨_, _, u, ‹_›, hu, rfl⟩

theorem seqStep_next (h : seqStep s = .next t) :
    ∃ i u, stageAt s.seq.pass s.seq.sp = some i ∧ exec i s = .next u ∧ t = u.passEnd := by
  unfold seqStep at h
  split at h
  · obtain ⟨u, hu, rfl⟩ := onNext_next h
    exact ⟨_, u, ‹_›, hu, rfl⟩
  · cases h

/-- All that a step can do: a move of an outside agent, a step of the idle block, a stage of the running pass. -/
theorem step_next (h : step s = .next t) :
    s.par.wf = true ∧
      ((∃ m rest, s.sched = m :: rest ∧ m ≠ .run ∧ agentMove m (s.setSched rest) = .next t) ∨
        (∃ rest, (s.sched = rest ∨ s.sched = .run :: rest) ∧ coreStep (s.setSched rest) = .next t)) := by
  unfold step at h
  split at h
  · refine ⟨‹_›, ?_⟩
    split at h
    · rename_i hs
      refine .inr ⟨[], .inl hs, ?_⟩
      have : s.setSched [] = s := by rw [← hs]; rfl
      rw [this]; exact h
    · exact .inr ⟨_, .inr ‹_›, h⟩
    · exact .inl ⟨_, _, ‹_›, by assumption, h⟩
  · cases h

theorem appendWithin_next {cap : Nat} {q ps : List RawPair} {f : List RawPair → State}
    (h : appendWithin cap q ps f = .next t) : q.length + ps.length ≤ cap ∧ t = f (q ++ ps) := by
  unfold appendWithin at h
  split at h
  · cases h; exact ⟨‹_›, rfl⟩
  · cases h

end Sys2Proof.Machine
end

