-- ==== Sys2Proof/Laws/PerInstr.lean ====
section
/-! SUPPORT. One lemma per operation about its fields as syntax: its `op` and `arg` fit their eight bits and it is as many words long as
its `op` says (30_encoding.md R101, R103, R104). -/

namespace Sys2Proof.Laws.EncodeFields

/-- The number of words of an operation as a function of `op` alone (30_encoding.md R103). -/
def wordsOfOp (op : Nat) : Nat := if op = 0x4A then 3 else if op = 0x48 then 2 else 1

/-- What the fields of an operation's encoding are. -/
def Statement (i : Instr) : Prop :=
  i.wf = true → i.opNumber < 256 ∧ i.argField < 256 ∧ (encode i).length = wordsOfOp i.opNumber

/-- The command word of a well-formed operation holds its `op`, its `arg` and a zero field. -/
theorem commandWord_fields {op arg : Nat} (ho : op < 256) (ha : arg < 256) :
    wordOp (commandWord op arg) = op ∧ wordArg (commandWord op arg) = arg ∧ wordZero (commandWord op arg) = 0 := by
  have h : (commandWord op arg).toNat = op * 16777216 + arg * 65536 := by
    simp only [commandWord, BitVec.toNat_ofNat]; omega
  simp only [wordOp, wordArg, wordZero, h]
  omega

theorem pull : Statement (.pull) := fun _ => ⟨by decide, by decide, rfl⟩
theorem rfgain : Statement (.rfgain) := fun _ => ⟨by decide, by decide, rfl⟩
theorem iqcorr : Statement (.iqcorr) := fun _ => ⟨by decide, by decide, rfl⟩
theorem specfull : Statement (.specfull) := fun _ => ⟨by decide, by decide, rfl⟩
theorem qshift : Statement (.qshift) := fun _ => ⟨by decide, by decide, rfl⟩
theorem speczoom : Statement (.speczoom) := fun _ => ⟨by decide, by decide, rfl⟩
theorem fshift : Statement (.fshift) := fun _ => ⟨by decide, by decide, rfl⟩
theorem decim : Statement (.decim) := fun _ => ⟨by decide, by decide, rfl⟩
theorem volpre : Statement (.volpre) := fun _ => ⟨by decide, by decide, rfl⟩
theorem convfilt : Statement (.convfilt) := fun _ => ⟨by decide, by decide, rfl⟩
theorem agc : Statement (.agc) := fun _ => ⟨by decide, by decide, rfl⟩
theorem demod : Statement (.demod) := fun _ => ⟨by decide, by decide, rfl⟩
theorem equalizer : Statement (.equalizer) := fun _ => ⟨by decide, by decide, rfl⟩
theorem nr : Statement (.nr) := fun _ => ⟨by decide, by decide, rfl⟩
theorem notch : Statement (.notch) := fun _ => ⟨by decide, by decide, rfl⟩
theorem cwproc : Statement (.cwproc) := fun _ => ⟨by decide, by decide, rfl⟩
theorem interp : Statement (.interp) := fun _ => ⟨by decide, by decide, rfl⟩
theorem volpost : Statement (.volpost) := fun _ => ⟨by decide, by decide, rfl⟩
theorem push : Statement (.push) := fun _ => ⟨by decide, by decide, rfl⟩
theorem txpull : Statement (.txpull) := fun _ => ⟨by decide, by decide, rfl⟩
theorem txdecim : Statement (.txdecim) := fun _ => ⟨by decide, by decide, rfl⟩
theorem txeq : Statement (.txeq) := fun _ => ⟨by decide, by decide, rfl⟩
theorem txhilb : Statement (.txhilb) := fun _ => ⟨by decide, by decide, rfl⟩
theorem txssb : Statement (.txssb) := fun _ => ⟨by decide, by decide, rfl⟩
theorem txinterp : Statement (.txinterp) := fun _ => ⟨by decide, by decide, rfl⟩
theorem txpush : Statement (.txpush) := fun _ => ⟨by decide, by decide, rfl⟩
theorem tick : Statement (.tick) := fun _ => ⟨by decide, by decide, rfl⟩
theorem rxPass : Statement (.rxPass) := fun _ => ⟨by decide, by decide, rfl⟩
theorem txPass : Statement (.txPass) := fun _ => ⟨by decide, by decide, rfl⟩
theorem cfgAgc (mode fs : Nat) : Statement (.cfgAgc mode fs) := by
  intro h
  simp only [Instr.wf, argFits, Bool.and_eq_true, decide_eq_true_eq] at h
  exact ⟨by simp [Instr.opNumber], h.1, rfl⟩
theorem cfgNr (option : Nat) : Statement (.cfgNr option) := by
  intro h
  exact ⟨by simp [Instr.opNumber], of_decide_eq_true h, rfl⟩
theorem setIqc (band : Nat) (amp phase : F32) : Statement (.setIqc band amp phase) := by
  intro h
  exact ⟨by simp [Instr.opNumber], of_decide_eq_true h, rfl⟩
theorem rdAgcact : Statement (.rdAgcact) := fun _ => ⟨by decide, by decide, rfl⟩
theorem rdSamofs : Statement (.rdSamofs) := fun _ => ⟨by decide, by decide, rfl⟩
theorem rdIqc (band : Nat) : Statement (.rdIqc band) := by
  intro h
  exact ⟨by simp [Instr.opNumber], of_decide_eq_true h, rfl⟩
theorem bulkClear (mask : Nat) : Statement (.bulkClear mask) := by
  intro h
  exact ⟨by simp [Instr.opNumber], of_decide_eq_true h, rfl⟩

end Sys2Proof.Laws.EncodeFields
end

