-- ==== Sys2Proof/Tests/Slice0.lean ====
section
/-! SUPPORT. Own tests: the well-formedness smoke, a written-out word for every constructor, small meaning tests whose expected values are
vectors of 95_test_vectors.md or hand calculation from the cited rule, and for every statement with hypotheses a witness that
meets them. -/

namespace Sys2Proof.Tests

open Sys2Proof Sys2Proof.Machine

/-! ### Well-formedness: each check refuses an ill-formed term (30_encoding.md R101, R102) -/

theorem test_wf_cfg_agc_mode : (Instr.cfgAgc 256 1).wf = false := by decide
theorem test_wf_cfg_agc_rate : (Instr.cfgAgc 1 4294967296).wf = false := by decide
theorem test_wf_cfg_nr : (Instr.cfgNr 256).wf = false := by decide
theorem test_wf_set_iqc : (Instr.setIqc 256 F32.one F32.one).wf = false := by decide
theorem test_wf_rd_iqc : (Instr.rdIqc 256).wf = false := by decide
theorem test_wf_bulk_clear : (Instr.bulkClear 256).wf = false := by decide
theorem test_wf_boundary : (Instr.cfgAgc 255 4294967295).wf = true := by decide

/-! ### Decoding: a word of every constructor, from the table of 30_encoding.md R104 -/

theorem test_decode_receive_stages :
    decode [0x01000000#32] = .op .pull 1 ∧ decode [0x02000000#32] = .op .rfgain 1 ∧
    decode [0x03000000#32] = .op .iqcorr 1 ∧ decode [0x04000000#32] = .op .specfull 1 ∧
    decode [0x05000000#32] = .op .qshift 1 ∧ decode [0x06000000#32] = .op .speczoom 1 ∧
    decode [0x07000000#32] = .op .fshift 1 ∧ decode [0x08000000#32] = .op .decim 1 ∧
    decode [0x09000000#32] = .op .volpre 1 ∧ decode [0x0A000000#32] = .op .convfilt 1 ∧
    decode [0x0B000000#32] = .op .agc 1 ∧ decode [0x0C000000#32] = .op .demod 1 ∧
    decode [0x0D000000#32] = .op .equalizer 1 ∧ decode [0x0E000000#32] = .op .nr 1 ∧
    decode [0x0F000000#32] = .op .notch 1 ∧ decode [0x10000000#32] = .op .cwproc 1 ∧
    decode [0x11000000#32] = .op .interp 1 ∧ decode [0x12000000#32] = .op .volpost 1 ∧
    decode [0x13000000#32] = .op .push 1 := by decide

theorem test_decode_transmit_stages :
    decode [0x21000000#32] = .op .txpull 1 ∧ decode [0x22000000#32] = .op .txdecim 1 ∧
    decode [0x23000000#32] = .op .txeq 1 ∧ decode [0x24000000#32] = .op .txhilb 1 ∧
    decode [0x25000000#32] = .op .txssb 1 ∧ decode [0x26000000#32] = .op .txinterp 1 ∧
    decode [0x27000000#32] = .op .txpush 1 := by decide

theorem test_decode_host_operations :
    decode [0x40000000#32] = .op .tick 1 ∧ decode [0x41000000#32] = .op .rxPass 1 ∧
    decode [0x42000000#32] = .op .txPass 1 ∧ decode [0x48010000#32, 0x00005DC0#32] = .op (.cfgAgc 1 24000) 2 ∧
    decode [0x49030000#32] = .op (.cfgNr 3) 1 ∧
    decode [0x4A020000#32, 0x3F800000#32, 0xBC23D70A#32] =
      .op (.setIqc 2 F32.one (.fin true ⟨0x3C23D70A, by decide⟩)) 3 ∧
    decode [0x50000000#32] = .op .rdAgcact 1 ∧ decode [0x51000000#32] = .op .rdSamofs 1 ∧
    decode [0x52020000#32] = .op (.rdIqc 2) 1 ∧ decode [0x60030000#32] = .op (.bulkClear 3) 1 := by decide

/-- The reserved rows of vector V-DEC-W, and an operation whose operand words have not all arrived. -/
theorem test_decode_reserved :
    decode [0x00000000#32] = .reserved .unassignedOp ∧ decode [0xFF000000#32] = .reserved .unassignedOp ∧
    decode [0x02010000#32] = .reserved .argField ∧ decode [0x50010000#32] = .reserved .argField ∧
    decode [0x48010100#32, 0x01000000#32] = .reserved .zeroField ∧ decode [0x41000001#32] = .reserved .zeroField ∧
    decode [0x4A020000#32, 0x3F800000#32] = .needMore ∧ decode [] = .needMore := by decide

/-- The words of one operation of each format (30_encoding.md R101). -/
theorem test_encode :
    encode .agc = [0x0B000000#32] ∧ encode (.cfgAgc 1 24000) = [0x48010000#32, 0x00005DC0#32] ∧
    encode (.setIqc 2 F32.one F32.zero) = [0x4A020000#32, 0x3F800000#32, 0x00000000#32] := by decide

/-- Little-endian bytes (20_memory.md R71). -/
theorem test_decode_bytes : decodeBytes [0x00#8, 0x00#8, 0x03#8, 0x49#8] = .op (.cfgNr 3) 1 := by decide

theorem test_decode_table_word :
    decodeTableWord 96 (0x4A020000 + 0x3F800000 * 2 ^ 32) = some (.setIqc 2 F32.one F32.zero) ∧
    decodeTableWord 32 0x02010000 = none := by decide

/-! ### A small block -/

/-- Profile T of 95_test_vectors.md part 2.5, its `HANGTIME` such that `HANG_SAMPLES = 3` at the rate 48. -/
def profileT : AgcParams :=
  { fixedGain := F32.ofBits 0x41A00000#32, pmodeRoot := false, attackLen := 2, ringSize := 2
    attackMult := F32.ofBits 0x3F000000#32, decayMult := F32.ofBits 0x3E800000#32
    fastDecayMult := F32.ofBits 0x3F000000#32, hangDecayMult := F32.ofBits 0x3E000000#32
    fastBackmult := F32.ofBits 0x3F000000#32, hangBackmult := F32.ofBits 0x3E800000#32
    popRatio := F32.ofBits 0x40800000#32, hangEnable := true, hangLevel := F32.ofBits 0x3E000000#32
    hangtime := F32.ofBits 0x3D800000#32, hangSamples := 3, minVolts := F32.ofBits 0x3D800000#32
    maxInput := F32.one, target := F32.one, slopeConstant := F32.zero }

/-- A small parameter record: blocks of 4 pairs, a factor 2 in both directions, profile T for mode 1 at the rate 48 and the
points of `PAR.NUM` the vectors give. -/
def smallPar : Par :=
  { Par.initial with
    nNative := 4, fsNative := 24000, dfList := [2], txDfList := [2], queueCap := 8, samNReq := 1
    agcProfiles := [{ mode := 1, fs := 48, band := BandEntry.zero, p := profileT },
      { mode := 0, fs := 48, band := BandEntry.zero, p := profileT },
      { mode := 2, fs := 48, band := BandEntry.zero, p := { profileT with attackLen := 0 } }]
    nrScale := { spectral := F32.ofBits 0x40000000#32, lms := F32.one, kim := F32.one }
    num := [{ fn := .pow10, x := F32.ofBits 0x3F000000#32, y := F32.zero, r := F32.ofBits 0x404A62C2#32 },
      { fn := .pow10, x := F32.ofBits 0xBF000000#32, y := F32.zero, r := F32.ofBits 0x3EA1E89B#32 },
      { fn := .log10, x := F32.ofBits 0x3F080000#32, y := F32.zero, r := F32.ofBits 0xBF000000#32 },
      { fn := .atan2a, x := F32.zero, y := F32.ofBits 0x3F000000#32, r := F32.zero }] }

/-- A value that is a short name for a bit pattern. -/
abbrev f (w : Word) : F32 := F32.ofBits w

abbrev half : F32 := F32.ofBits 0x3F000000#32

def pair (i q : BitVec 16) : RawPair := { i := i, q := q }

/-- The idle block after a power-on with `smallPar` and with `ws` issued. -/
def idleWith (ws : List Word) : State :=
  State.powerOn smallPar { dispatchSel := 0#2, ports := Ports.initial } { feed := [], count := 0, calls := [] } ws []

/-- The same with the block holding `x`. -/
def holding (x : List Sample) : State :=
  { idleWith [] with blk := { x := x, n := x.length, fs := 24000, valid := true } }

/-- The same with a mode latched. -/
def demodulating (mode : BitVec 3) (x : List Sample) : State :=
  { holding x with lat := { Ports.initial with demodMode := mode } }

/-- The active AGC right after an accepted `CFG_AGC 1, 48`, the block holding `x`. -/
def agcReady (x : List Sample) : State :=
  { holding x with
    cfg := { (Cfg.initial 4) with agcMode := 1, agcFs := 48, agcWritten := true }, agc := agcReset 1 profileT }

/-- The block with pairs in three queues. -/
def queued : State :=
  { idleWith [] with
    queues :=
      { capq := [pair 16384 57344, pair 0 32767, pair 5 5, pair 6 6, pair 7 7], playq := [pair 7 7]
        txsrc := [pair 16384 0, pair 0 0, pair 0 0, pair 32768 0], txsink := [] } }

/-- What a check says of the next state, `false` where there is none. -/
def after (r : Result) (check : State → Bool) : Bool :=
  match r with
  | .next t => check t
  | .fault _ => false
  | .refused _ => false

def samplesAre (x : List Sample) (t : State) : Bool := decide (t.blk.x = x)

/-! ### Meanings on the vectors of 95_test_vectors.md -/

/-- V-PULL-1, V-PULL-3: 16384 is 0.5, -8192 is -0.25, 32767 is 0.999969482421875. -/
theorem test_pull :
    after (exec .pull queued) (fun t =>
      decide (t.queues.capq = [pair 7 7]) && decide (t.blk.n = 4) && decide (t.seq.sp = 1) &&
        decide ((t.blk.x.map (·.i))[0]? = some half) && decide ((t.blk.x.map (·.q))[0]? = some (f 0xBE800000#32)) &&
        decide ((t.blk.x.map (·.q))[1]? = some (f 0x3F7FFE00#32))) = true := by decide

/-- V-PUSH-2: a NaN gives 0, 2.0 saturates, -1.0 is -32768. -/
theorem test_push :
    after (exec .push { holding [⟨half, f 0xBF800000#32⟩, ⟨f 0x7FC00000#32, f 0x40000000#32⟩] with queues := queued.queues })
      (fun t => decide (t.queues.playq = [pair 7 7, pair 16384 32768, pair 0 32767]) &&
        decide (t.seq = { sp := 0, pass := .idle, lastDemod := none })) = true := by decide

/-- V-RFG-2: the two conversions and their product, 1.0 with the given points. -/
theorem test_rfgain :
    after (exec .rfgain { holding [⟨half, f 0xBE800000#32⟩] with
        lat := { Ports.initial with
          rfGainAllBandsDb := f 0x41200000#32, band := [{ BandEntry.zero with rfGainDb := f 0xC1200000#32 }] } })
      (samplesAre [⟨half, f 0xBE800000#32⟩]) = true := by decide

/-- V-IQC-1: the I mixed into Q is the scaled I. -/
theorem test_iqcorr_negative_phase :
    after (exec .iqcorr { holding [⟨F32.one, f 0x40000000#32⟩] with
        cfg := { Cfg.initial 4 with iq := [{ amp := half, phase := f 0xBE800000#32, written := true }] } })
      (fun t => samplesAre [⟨half, f 0x3FF00000#32⟩] t && decide (t.marks = [])) = true := by decide

/-- V-IQC-2: Q is mixed into the scaled I, Q untouched. -/
theorem test_iqcorr_positive_phase :
    after (exec .iqcorr { holding [⟨F32.one, f 0x40000000#32⟩] with
        cfg := { Cfg.initial 4 with iq := [{ amp := half, phase := f 0x3E800000#32, written := true }] } })
      (samplesAre [⟨F32.one, f 0x40000000#32⟩]) = true := by decide

/-- V-HOOK-1. -/
theorem test_specfull :
    after (exec .specfull { holding [] with lat := { Ports.initial with specFullEn := true } })
      (fun t => decide (t.ext.calls.length = 1) && decide (t.seq.sp = 1)) = true := by decide

/-- V-HOOK-1, the hook disabled. -/
theorem test_speczoom :
    after (exec .speczoom (holding [])) (fun t => decide (t.ext.calls = []) && decide (t.seq.sp = 1)) = true := by decide

/-- V-QS-3: exact on special values. -/
theorem test_qshift :
    after (exec .qshift (holding
        [⟨f 0x7FC00000#32, F32.one⟩, ⟨f 0x7F800000#32, f 0x80000000#32⟩, ⟨f 0x80000000#32, F32.zero⟩,
          ⟨f 0x3DCCCCCD#32, f 0x7FC00000#32⟩]))
      (samplesAre
        [⟨f 0x7FC00000#32, F32.one⟩, ⟨f 0x80000000#32, f 0xFF800000#32⟩, ⟨F32.zero, f 0x80000000#32⟩,
          ⟨f 0xFFC00000#32, f 0x3DCCCCCD#32⟩]) = true := by decide

/-- V-FS-1: no offset, phase zero. -/
theorem test_fshift :
    after (exec .fshift (holding [⟨half, f 0xBE800000#32⟩, ⟨f 0xBE000000#32, f 0x3D800000#32⟩]))
      (fun t => samplesAre [⟨half, f 0xBE800000#32⟩, ⟨f 0xBE000000#32, f 0x3D800000#32⟩] t &&
        decide (t.nco = F32.zero)) = true := by decide

/-- V-DEC-1 at a small size: one call, both fields halved, as many samples as the new length. -/
theorem test_decim :
    after (exec .decim { queued with blk := freshBlock smallPar queued.queues.capq.tail })
      (fun t => decide (t.blk.n = 2) && decide (t.blk.fs = 12000) && decide (t.blk.x.length = 2) &&
        decide (t.ext.calls.length = 1)) = true := by decide

/-- V-INT-1 at a small size. -/
theorem test_interp :
    after (exec .interp { holding [⟨F32.one, F32.one⟩, ⟨F32.one, F32.one⟩] with ext := { feed := [half], count := 0, calls := [] } })
      (fun t => decide (t.blk.n = 4) && decide (t.blk.fs = 48000) && decide (t.blk.x.length = 4) &&
        decide (t.ext.count = 7)) = true := by decide

/-- V-VOL-1. -/
theorem test_volpre :
    after (exec .volpre { holding [⟨half, f 0xBF800000#32⟩] with lat := { Ports.initial with volPre := f 0x3E800000#32 } })
      (samplesAre [⟨f 0x3E000000#32, f 0xBE800000#32⟩]) = true := by decide

/-- V-VOL-1. -/
theorem test_volpost :
    after (exec .volpost
        { holding [⟨f 0xBF000000#32, f 0x3F400000#32⟩] with lat := { Ports.initial with volPost := f 0x40000000#32 } })
      (samplesAre [⟨f 0xBF800000#32, f 0x3FC00000#32⟩]) = true := by decide

/-- The answer of the collaborator becomes the block (45_demod_dispatch_external.md R270). -/
theorem test_convfilt :
    after (exec .convfilt { holding [⟨F32.one, F32.one⟩] with ext := { feed := [half, F32.zero], count := 0, calls := [] } })
      (fun t => samplesAre [⟨half, F32.zero⟩] t && decide (t.ext.feed = []) && decide (t.ext.calls.length = 1)) = true := by
  decide

/-- V-AGC-1: the fixed gain 20.0. -/
theorem test_agc_off :
    after (exec .agc { agcReady [⟨half, f 0xBE800000#32⟩] with cfg := Cfg.initial 4 })
      (fun t => samplesAre [⟨f 0x41200000#32, f 0xC0A00000#32⟩] t && decide (t.agc = agcReset 1 profileT)) = true := by decide

/-- V-AGC-2, t = 0: the envelope after (1.0, 0.0) is 0.53125 and the peak 1.0. -/
theorem test_agc_attack :
    after (exec .agc (agcReady [⟨F32.one, F32.zero⟩]))
      (fun t => decide (t.agc.volts = f 0x3F080000#32) && decide (t.agc.ringMax = F32.one) &&
        decide (t.agc.state = .attack) && t.agc.agcAction) = true := by decide

/-- DEMOD.USB: Q becomes a copy of I (45_demod_dispatch_external.md R261). -/
theorem test_demod_usb :
    after (exec .demod (demodulating 0#3 [⟨half, F32.one⟩])) (samplesAre [⟨half, half⟩]) = true := by decide

/-- DEMOD.AM: the envelope of (3, 4) is 5, and a NaN is scrubbed to `+0` (45_demod_dispatch_external.md R263). -/
theorem test_demod_am :
    after (exec .demod (demodulating 1#3 [⟨f 0x40400000#32, f 0x40800000#32⟩, ⟨f 0x7FC00000#32, F32.one⟩]))
      (samplesAre [⟨f 0x40A00000#32, f 0x40A00000#32⟩, ⟨F32.zero, F32.zero⟩]) = true := by decide +kernel

/-- V-SAM-2: from reset on the sample (0.0, 0.5). -/
theorem test_demod_sam :
    after (exec .demod (demodulating 2#3 [⟨F32.zero, half⟩]))
      (fun t => samplesAre [⟨half, half⟩] t && decide (t.sam.omega = f 0x3E490FDB#32) &&
        decide (t.sam.phase = f 0x3F7B53D2#32) && decide (t.sam.filPrev = f 0x3F7B53D2#32) &&
        decide (t.sam.carrierHz = f 0x443B8000#32) && decide (t.sam.carrierSmooth = f 0x42160000#32) &&
        decide (t.diag = [])) = true := by decide

/-- A wrong block size is logged once and processing goes on (44_sam_demodulator.md R247). -/
theorem test_sam_precondition :
    after (exec .demod (demodulating 2#3 []))
      (fun t => decide (t.diag = [{ code := 1, n := 0, fs := 24000 }]) && decide (t.seq.sp = 1)) = true := by decide

theorem test_equalizer :
    after (exec .equalizer { holding [⟨F32.one, F32.one⟩] with ext := { feed := [half, half], count := 0, calls := [] } })
      (samplesAre [⟨half, half⟩]) = true := by decide

/-- The spectral implementation's answer times its scale 2.0 (45_demod_dispatch_external.md R273). -/
theorem test_nr :
    after (exec .nr { holding [⟨F32.one, F32.one⟩] with
        cfg := { Cfg.initial 4 with nrOption := 1#2, nrWritten := true }, ext := { feed := [half, half], count := 0, calls := [] } })
      (fun t => samplesAre [⟨F32.one, F32.one⟩] t && decide (t.marks = [])) = true := by decide

theorem test_notch_disabled :
    after (exec .notch (holding [⟨F32.one, half⟩])) (samplesAre [⟨F32.one, half⟩]) = true := by decide

theorem test_cwproc :
    after (exec .cwproc { holding [⟨F32.one, half⟩] with
        lat := { Ports.initial with cwActive := true }, ext := { feed := [half, half], count := 0, calls := [] } })
      (fun t => samplesAre [⟨half, half⟩] t && decide (t.ext.calls.length = 2)) = true := by decide

/-- V-TXIO-1: no SAM reset and no remembered mode. -/
theorem test_txpull :
    after (exec .txpull queued) (fun t =>
      decide (t.queues.txsrc = []) && decide (t.seq = { sp := 1, pass := .tx, lastDemod := none }) &&
        decide (t.blk.x[3]? = some ⟨f 0xBF800000#32, F32.zero⟩)) = true := by decide

theorem test_txdecim :
    after (exec .txdecim { queued with blk := freshBlock smallPar queued.queues.txsrc })
      (fun t => decide (t.blk.n = 2) && decide (t.blk.fs = 12000)) = true := by decide

theorem test_txeq :
    after (exec .txeq { holding [⟨F32.one, F32.one⟩] with ext := { feed := [half, F32.zero], count := 0, calls := [] } })
      (samplesAre [⟨half, F32.zero⟩]) = true := by decide

theorem test_txhilb :
    after (exec .txhilb { holding [⟨F32.one, F32.one⟩] with ext := { feed := [F32.zero, half], count := 0, calls := [] } })
      (samplesAre [⟨F32.zero, half⟩]) = true := by decide

theorem test_txssb :
    after (exec .txssb { holding [⟨F32.one, F32.one⟩] with ext := { feed := [half, half], count := 0, calls := [] } })
      (samplesAre [⟨half, half⟩]) = true := by decide

theorem test_txinterp :
    after (exec .txinterp (holding [⟨F32.one, F32.one⟩])) (fun t => decide (t.blk.n = 2) && decide (t.blk.fs = 48000)) = true := by
  decide

theorem test_txpush :
    after (exec .txpush (holding [⟨half, F32.one⟩])) (fun t => decide (t.queues.txsink = [pair 16384 32767])) = true := by decide

/-- The next state is `t` itself. -/
def becomes (r : Result) (t : State) : Bool := after r fun u => decide (u = t)

/-- V-TICK-1: the selections 0 and 3 change nothing. -/
theorem test_tick :
    becomes (exec .tick (idleWith [])) (idleWith []) = true ∧
    becomes (exec .tick (queued.setInp { dispatchSel := 3#2, ports := Ports.initial }))
      (queued.setInp { dispatchSel := 3#2, ports := Ports.initial }) = true := by decide

/-- V-PULL-2: an unavailable block, `None` from `RX_PASS`, nothing from `TICK` (46_host_operations.md R290). -/
theorem test_rx_pass_unavailable :
    after (exec .rxPass (idleWith [])) (fun t => decide (t.host.result = .passNone) && decide (t.seq.pass = .idle)) = true ∧
    becomes (exec .tick ((idleWith []).setInp { dispatchSel := 1#2, ports := Ports.initial }))
      ((idleWith []).setInp { dispatchSel := 1#2, ports := Ports.initial }) = true := by decide

/-- The first step of a transmit pass pulls a block (46_host_operations.md R282). -/
theorem test_tx_pass :
    after (exec .txPass queued) (fun t => decide (t.seq.pass = .tx) && decide (t.blk.x.length = 4) && t.host.awaited) = true := by
  decide

/-- V-CFG-1. -/
theorem test_cfg_agc :
    after (exec (.cfgAgc 1 48) (idleWith [])) (fun t =>
      decide (t.cfg.agcMode = 1) && decide (t.agc = agcReset 1 profileT) && decide (t.agc.volts = f 0x3D800000#32) &&
        decide (t.agc.ring.length = 2)) = true ∧
    becomes (exec (.cfgAgc 5 48) (idleWith [])) (idleWith []) = true := by decide

/-- V-CFG-2. -/
theorem test_cfg_nr :
    after (exec (.cfgNr 2) (idleWith [])) (fun t => decide (t.cfg.nrOption = 2#2)) = true ∧
    becomes (exec (.cfgNr 4) (idleWith [])) (idleWith []) = true := by decide

/-- V-CFG-3: stored and returned bit for bit, a NaN payload and a negative zero included. -/
theorem test_set_iqc :
    after (exec (.setIqc 1 (f 0x7FC00001#32) (f 0x80000000#32)) (idleWith [])) (fun t =>
      after (exec (.rdIqc 1) t) (fun u => decide (u.host.result = .pair (f 0x7FC00001#32) (f 0x80000000#32)) &&
        decide (u.marks = []))) = true := by decide

theorem test_rd_iqc_invalid :
    after (exec (.rdIqc 4) (idleWith [])) (fun t => decide (t.host.result = .nothing)) = true := by decide

theorem test_rd_agcact :
    after (exec .rdAgcact (agcReady [])) (fun t => decide (t.host.result = .bit false)) = true := by decide

theorem test_rd_samofs :
    after (exec .rdSamofs { idleWith [] with sam := { SamState.initial with carrierSmooth := half } })
      (fun t => decide (t.host.result = .real half)) = true := by decide

/-- V-CFG-4. -/
theorem test_bulk_clear :
    after (exec (.bulkClear 1) queued) (fun t => decide (t.queues.capq = []) && decide (t.queues.playq = [pair 7 7])) = true ∧
    after (exec (.bulkClear 2) queued) (fun t => decide (t.queues.capq.length = 5) && decide (t.queues.playq = [])) = true := by
  decide

/-! ### The step and the interface of the host -/

/-- A reserved word is skipped (30_encoding.md R106). -/
theorem test_step_reserved :
    after (step (idleWith [0x14000000#32, 0x40000000#32])) (fun t => decide (t.host.cmd = [0x40000000#32])) = true := by decide

/-- The last stage of a pass returns `Some(&BLK)` where the host awaits a result, and nothing where `TICK` began the pass
(46_host_operations.md R281, R290). -/
theorem test_pass_end :
    after (step (((holding []).atStage .rx 18).setHost { cmd := [], result := .notYet, awaited := true })) (fun t =>
      decide (t.host = { cmd := [], result := .passSome, awaited := false })) = true ∧
    after (step ((holding []).atStage .rx 18)) (fun t => decide (t.host.result = .notYet)) = true := by decide

/-- The instruction placed is the one the next step runs. -/
theorem test_with_fetch_word :
    after (step (State.reset.withFetchWord 32 0x49030000)) (fun t => decide (t.cfg.nrOption = 3#2) && t.cfg.nrWritten) = true := by
  decide

/-- V-WRAP-1 and its neighbours: below zero, at one turn, a tiny negative value. -/
theorem test_wrap :
    wrap2pi (f 0x40D00000#32) = some (f 0x3E5E04A0#32) ∧ wrap2pi F32.twoPiF = some F32.zero ∧
    wrap2pi (f 0xB089705F#32) = some F32.twoPiF ∧ wrap2pi (f 0x41490FDB#32) = some F32.zero := by decide

/-! ### Witnesses: for each statement with hypotheses, a state and operands that meet them, clause by clause -/

/-- DecodeOfEncode at the largest operands. -/
theorem witness_DecodeOfEncode :
    (Instr.cfgAgc 255 4294967295).wf = true ∧ (Instr.setIqc 255 (f 0xFFFFFFFF#32) F32.zero).wf = true := by decide

theorem witness_EncodeOfDecode : ∃ i n, decode [0x4A030000#32, 0#32, 0xFFFFFFFF#32, 7#32] = .op i n := ⟨_, _, rfl⟩

theorem smallPar_wf : smallPar.wf = true := by decide

theorem idle_listens (ws : List Word) : (idleWith ws).Listening ws := ⟨smallPar_wf, rfl, rfl, rfl⟩

/-- ReservedWordsDoNothing: both ends of each unassigned range, the `zero` field, the `arg` field. -/
theorem witness_ReservedWordsDoNothing :
    (∀ ws, (idleWith ws).Listening ws) ∧
    (∀ w ∈ [0x00000000#32, 0x14000000#32, 0x20FF0000#32, 0x28000000#32, 0x3F000000#32, 0x43000000#32, 0x47000000#32,
        0x4B000000#32, 0x4F000000#32, 0x53000000#32, 0x5F000000#32, 0x61000000#32, 0xFFFFFFFF#32, 0x40000001#32,
        0x41008000#32, 0x01010000#32, 0x27FF0000#32],
      (let op := w.toNat / 2 ^ 24
       op = 0x00 ∨ (0x14 ≤ op ∧ op ≤ 0x20) ∨ (0x28 ≤ op ∧ op ≤ 0x3F) ∨ (0x43 ≤ op ∧ op ≤ 0x47) ∨ (0x4B ≤ op ∧ op ≤ 0x4F) ∨
         (0x53 ≤ op ∧ op ≤ 0x5F) ∨ 0x61 ≤ op ∨ w.toNat % 2 ^ 16 ≠ 0 ∨ (op ≤ 0x27 ∧ w.toNat / 2 ^ 16 % 2 ^ 8 ≠ 0))) :=
  ⟨idle_listens, by
    intro w hw
    simp only [List.mem_cons, List.not_mem_nil, or_false] at hw
    rcases hw with rfl | rfl | rfl | rfl | rfl | rfl | rfl | rfl | rfl | rfl | rfl | rfl | rfl | rfl | rfl | rfl | rfl <;>
      decide⟩

/-- IllegalOperandsAreNoOps: the first illegal value of each operand. -/
theorem witness_IllegalOperandsAreNoOps :
    (idleWith []).seq.pass = .idle ∧ (idleWith []).par.agcModeMax < 5 ∧ (3 : Nat) < 4 ∧ (idleWith []).par.numBands ≤ 4 := by
  decide

/-- StepRunsIssuedCommand: a host operation and a stage operation, unscheduled and scheduled. -/
theorem witness_StepRunsIssuedCommand :
    (idleWith []).par.wf = true ∧ (idleWith []).seq.pass = .idle ∧
    decode (idleWith [0x49030000#32]).host.cmd = .op (.cfgNr 3) 1 ∧ stagePosition (.cfgNr 3) = none ∧
    decode (idleWith [0x0B000000#32]).host.cmd = .op .agc 1 ∧ stagePosition .agc = some (.rx, 10) ∧
    (idleWith []).sched = [] ∧ ((idleWith []).setSched [.run]).sched = .run :: [] := by decide

/-- A receive pass at its last stage. -/
def lastStage : State := (holding [⟨half, half⟩]).atStage .rx 18

/-- A transmit pass at its last stage. -/
def lastTxStage : State := (holding [⟨half, half⟩]).atStage .tx 6

/-- StepRunsStageOfPass: the last stages, awaited and not, and a stage in between. -/
theorem witness_StepRunsStageOfPass :
    lastStage.par.wf = true ∧ stageAt lastStage.seq.pass lastStage.seq.sp = some .push ∧ lastStage.sched = [] ∧
    lastStage.host.awaited = false ∧ stageAt lastTxStage.seq.pass lastTxStage.seq.sp = some .txpush ∧
    (lastTxStage.setHost { cmd := [], result := .notYet, awaited := true }).host.awaited = true ∧
    ((holding []).atStage .rx 1).par.wf = true ∧ stageAt ((holding []).atStage .rx 1).seq.pass 1 = some .rfgain := by decide

theorem witness_FixedStageOrder :
    (stagePosition .push = some (.rx, 18) ∧ ∃ t, exec .push lastStage = .next t) ∧
    (stagePosition .txpush = some (.tx, 6) ∧ ∃ t, exec .txpush lastTxStage = .next t) ∧
    (stagePosition .qshift = some (.rx, 4) ∧ ∃ t, exec .qshift (holding []) = .next t) :=
  ⟨⟨rfl, _, rfl⟩, ⟨rfl, _, rfl⟩, ⟨rfl, _, rfl⟩⟩

/-- Everything configured, every band. -/
def configured : State :=
  { agcReady [] with
    cfg :=
      { iq := List.replicate 4 { amp := F32.one, phase := F32.zero, written := true }, nrOption := 0#2, nrWritten := true
        agcMode := 1, agcFs := 48, agcWritten := true } }

/-- The queued block with words issued: exactly one block in the transmit source, one and one pair in the capture queue. -/
def queuedWith (ws : List Word) : State := queued.setHost { cmd := ws, result := .notYet, awaited := false }

/-- One pair less than a block in each source queue. -/
def shortWith (ws : List Word) : State :=
  { queuedWith ws with
    queues :=
      { capq := [pair 1 1, pair 2 2, pair 3 3], playq := [], txsrc := [pair 1 1, pair 2 2, pair 3 3], txsink := [] } }

theorem queued_listens (ws : List Word) : (queuedWith ws).Listening ws := ⟨smallPar_wf, rfl, rfl, rfl⟩

/-- The queued block with words issued and ports driven. -/
def drivenWith (ws : List Word) (v : InPorts) : State := (queuedWith ws).setInp v

theorem driven_listens (ws : List Word) (v : InPorts) : (drivenWith ws v).Listening ws := ⟨smallPar_wf, rfl, rfl, rfl⟩

/-- TransmitPassCompletes: exactly one block, and one pair less, by `TX_PASS` and by `TICK`. -/
theorem witness_TransmitPassCompletes :
    ((queuedWith [0x42000000#32]).Listening [0x42000000#32] ∧
      (queuedWith [0x42000000#32]).par.nNative = (queuedWith [0x42000000#32]).queues.txsrc.length) ∧
    ((drivenWith [0x40000000#32] { dispatchSel := 2#2, ports := Ports.initial }).Listening [0x40000000#32] ∧
      (drivenWith [0x40000000#32] { dispatchSel := 2#2, ports := Ports.initial }).inp.dispatchSel = 2#2) ∧
    ((shortWith [0x42000000#32]).Listening [0x42000000#32] ∧
      (shortWith [0x42000000#32]).queues.txsrc.length + 1 = (shortWith [0x42000000#32]).par.nNative) :=
  ⟨⟨queued_listens _, by decide⟩, ⟨driven_listens _ _, rfl⟩, ⟨smallPar_wf, rfl, rfl, rfl⟩, by decide⟩

/-- The ports with a fine-tune offset. -/
def tunedTo (hz : F32) : Ports := { Ports.initial with fineFreqHz := hz }

/-- 10_state.md R29 and 70_reset_and_hazards.md R332, item 4, at the native rate 24000: the last values inside, the first outside. -/
theorem test_portsLegal :
    (tunedTo (f 0x46BB7FFF#32)).Legal smallPar ∧ (tunedTo (f 0xC6BB7FFF#32)).Legal smallPar ∧
    ¬ (tunedTo (f 0x46BB8000#32)).Legal smallPar ∧ ¬ (tunedTo (f 0xC6BB8000#32)).Legal smallPar ∧
    ¬ (tunedTo (.inf false)).Legal smallPar ∧ ¬ (tunedTo (f 0x7FC00000#32)).Legal smallPar ∧
    ¬ Ports.Legal { Ports.initial with activeBand := smallPar.numBands } smallPar ∧
    ¬ Ports.Legal { Ports.initial with demodMode := 3#3 } smallPar := by
  unfold Ports.Legal; decide

/-- ReceivePassCompletesOrHangs: by `RX_PASS` in mode USB with no offset and with the largest, by `TICK` in mode SAM, configured and not. -/
theorem witness_ReceivePassCompletesOrHangs :
    (let s := queuedWith [0x41000000#32]
     s.Listening [0x41000000#32] ∧ s.par.nNative ≤ s.queues.capq.length ∧ s.inp.ports.activeBand < s.par.numBands ∧
      s.inp.ports.demodMode.toNat ≤ 1 ∧ s.inp.ports.fineFreqHz.isZero = true ∧ PhaseLegal s.nco) ∧
    (let s := drivenWith [0x41000000#32] { dispatchSel := 0#2, ports := tunedTo (f 0xC6BB7FFF#32) }
     s.Listening [0x41000000#32] ∧ s.par.nNative ≤ s.queues.capq.length ∧ s.inp.ports.demodMode.toNat ≤ 1 ∧
      s.inp.ports.Legal s.par ∧ s.par.fsNative ≤ 16777216 ∧ PhaseLegal s.nco) ∧
    (let s := (drivenWith [0x40000000#32] { dispatchSel := 1#2, ports := { Ports.initial with demodMode := 2#3 } }).setCfg
        configured.cfg
     s.Listening [0x40000000#32] ∧ s.inp.dispatchSel = 1#2 ∧ s.par.nNative ≤ s.queues.capq.length ∧
      s.inp.ports.activeBand < s.par.numBands ∧ s.inp.ports.demodMode.toNat = 2 ∧
      s.cfg.Configured s.inp.ports.activeBand) :=
  ⟨⟨queued_listens _, by decide, by decide, by decide, by decide, by decide, by decide⟩,
    ⟨driven_listens _ _, by decide, by decide, test_portsLegal.2.1, by decide, by decide, by decide⟩,
    ⟨smallPar_wf, rfl, rfl, rfl⟩, rfl, by decide, by decide, by decide, by decide, by decide, by decide⟩

/-- UnavailableChangesNothing: one pair less than a block in each direction, each selection. -/
theorem witness_UnavailableChangesNothing :
    (shortWith []).queues.capq.length + 1 = (shortWith []).par.nNative ∧
    (shortWith []).queues.txsrc.length + 1 = (shortWith []).par.nNative ∧ (shortWith []).seq.pass = .idle ∧
    ∀ sel : BitVec 2, ((shortWith []).setInp { dispatchSel := sel, ports := Ports.initial }).inp.dispatchSel = sel :=
  ⟨by decide, by decide, rfl, fun _ => rfl⟩

theorem witness_HostOperationsWaitForIdle :
    (stagePosition .rdSamofs = none ∧ lastStage.seq.pass ≠ .idle) ∧
    (lastStage.sched = [] ∧ ∃ t, step lastStage = .next t) ∧
    (lastStage.setSched [.run]).sched = .run :: [] ∧ ∃ t, step (lastStage.setSched [.run]) = .next t :=
  ⟨by decide, ⟨rfl, _, rfl⟩, rfl, _, rfl⟩

theorem witness_TickDispatches :
    ∀ sel : BitVec 2, (idleWith []).seq.pass = .idle ∧ (idleWith []).host.awaited = false ∧
      ((idleWith []).setInp { dispatchSel := sel, ports := Ports.initial }).inp.dispatchSel = sel :=
  fun _ => ⟨rfl, rfl, rfl⟩

theorem witness_PowerOnResetValues :
    (queued.setSched [.powerOn]).par.wf = true ∧ (queued.setSched [.powerOn]).sched = .powerOn :: [] := by decide

/-- The active AGC in the middle of a receive pass, a state that is not the reset state. -/
def midPass : State := (agcReady [⟨half, half⟩]).atStage .rx 10

def midPassBelow : State :=
  { midPass with blk := { x := [⟨half, half⟩, ⟨half, half⟩], n := 2, fs := 12000, valid := true } }

theorem midPass_inv : State.Inv midPassBelow where
  pointer := by show 1 ≤ 10 ∧ 10 ≤ 18; decide
  valid := fun _ => rfl
  blockLength := rfl
  rate := by show _ ∧ _; decide
  captureCap := by decide
  txsrcCap := by decide
  iqBands := by decide
  agcModeLegal := by decide
  agcLegal := fun _ => ⟨by decide, by decide, by decide, by decide, by decide⟩
  omegaBound := by decide
  awaited := by decide

theorem witness_StepKeepsInv : State.Inv midPassBelow ∧ ∃ t, step midPassBelow = .next t := ⟨midPass_inv, _, rfl⟩

/-- Both phases at the ends of their interval. -/
def turned : State := { holding [] with nco := F32.twoPiF, sam := { SamState.initial with phase := F32.zero } }

theorem witness_StepKeepsPhases : State.PhasesLegal turned ∧ ∃ t, step turned = .next t :=
  ⟨⟨⟨by decide, by decide⟩, by decide, by decide⟩, _, rfl⟩

theorem witness_StepKeepsParametersAndLog :
    (∃ t, step lastStage = .next t) ∧ lastStage.sched.head? ≠ some .powerOn ∧ lastStage.blk.valid = true :=
  ⟨⟨_, rfl⟩, by decide, rfl⟩

/-- V-DEC-3: 2048 and 3; a fractional rate; the boundary of 10_state.md R52 (`OMEGA_LIM = TWO_PI_F` with `G1 = 0`). -/
theorem witness_IllFormedParametersRefused :
    ({ Par.initial with dfList := [3] } : Par).wf = false ∧ ({ Par.initial with fsNative := 44100 } : Par).wf = false ∧
    ({ Par.initial.sam with g1 := F32.zero, omegaLim := F32.twoPiF } : SamParams).wf = false ∧
    Par.initial.wf = true ∧ smallPar.wf = true := by decide

/-- OutsideMoves: appends that just fit and just do not (the capacity is 8, five pairs in `CAPQ` and four in `TXSRC`). -/
theorem witness_OutsideMoves :
    queued.par.wf = true ∧ queued.queues.capq.length + 3 = queued.par.queueCap ∧
    queued.par.queueCap < queued.queues.capq.length + 4 ∧ queued.queues.txsrc.length + 4 = queued.par.queueCap ∧
    queued.par.queueCap < queued.queues.txsrc.length + 5 ∧
    (∀ m ∈ [Move.capture [pair 0 0, pair 0 0, pair 0 0], .capture [pair 0 0, pair 0 0, pair 0 0, pair 0 0],
        .txFeed [pair 0 0, pair 0 0, pair 0 0, pair 0 0],
        .txFeed [pair 0 0, pair 0 0, pair 0 0, pair 0 0, pair 0 0], .playDrain 1, .sinkDrain 1,
        .drive { dispatchSel := 1#2, ports := Ports.initial }, .issue [0x40000000#32]],
      (queued.setSched [m]).sched = m :: []) := by decide

theorem witness_ConfiguredRunsUnmarked :
    configured.cfg.agcWritten = true ∧ configured.cfg.nrWritten = true ∧
    (∀ b, b < configured.par.numBands → (configured.cfg.iqPair b).written = true) ∧
    (∃ t, exec .agc configured = .next t) ∧ ∃ t, exec .iqcorr configured = .next t :=
  ⟨rfl, rfl, by decide, ⟨_, rfl⟩, ⟨_, rfl⟩⟩

theorem witness_BlockStateFrame :
    (∃ t, exec .agc (agcReady []) = .next t) ∧ (∃ t, exec .fshift (holding []) = .next t) ∧
    (∃ t, exec .demod (demodulating 2#3 []) = .next t) ∧ (∃ t, exec (.cfgAgc 0 48) (idleWith []) = .next t) ∧
    (∃ t, exec .pull (queued.setInp { dispatchSel := 0#2, ports := { Ports.initial with demodMode := 2#3 } }) = .next t) :=
  ⟨⟨_, rfl⟩, ⟨_, rfl⟩, ⟨_, rfl⟩, ⟨_, rfl⟩, ⟨_, rfl⟩⟩

theorem witness_PortConfigQueueFrame :
    (∃ t, exec .push queued = .next t) ∧ (∃ t, exec .txpull queued = .next t) ∧ (∃ t, exec (.bulkClear 3) queued = .next t) ∧
    (∃ t, exec (.setIqc 3 F32.one F32.zero) queued = .next t) ∧ (∃ t, exec .rxPass (shortWith []) = .next t) ∧
    (∃ t, exec (.rdIqc 3) queued = .next t) :=
  ⟨⟨_, rfl⟩, ⟨_, rfl⟩, ⟨_, rfl⟩, ⟨_, rfl⟩, ⟨_, rfl⟩, ⟨_, rfl⟩⟩

theorem witness_TransmitIgnoresReceiveState :
    Instr.txpull ∈ txStages ∧ Instr.txpush ∈ txStages ∧ ∃ t, exec .txpush queued = .next t :=
  ⟨by decide, by decide, _, rfl⟩

/-- PullTakesABlock: with a SAM re-entry and without, each entry point selected. -/
theorem witness_PullTakesABlock :
    queued.par.nNative ≤ queued.queues.capq.length ∧ queued.par.nNative ≤ queued.queues.txsrc.length ∧
    queued.seq.pass = .idle ∧
    (queued.setInp { dispatchSel := 1#2, ports := { Ports.initial with demodMode := 2#3 } }).inp.dispatchSel = 1#2 ∧
    (queued.setInp { dispatchSel := 2#2, ports := Ports.initial }).inp.dispatchSel = 2#2 := by decide

/-- OutputConversion: V-PUSH-1 at both saturation ends, and just inside them. -/
theorem witness_OutputConversion :
    (f 0x7FC00000#32).isNaN = true ∧
    ((f 0x3F7FFE00#32).isNaN = false ∧ ((f 0x3F7FFE00#32).mul F32.scale16).ge F32.max16 = true) ∧
    ((f 0xBF800000#32).isNaN = false ∧ ((f 0xBF800000#32).mul F32.scale16).le F32.min16 = true) ∧
    (∃ sg m, (f 0x3F7FFDFF#32).mul F32.scale16 = .fin sg m ∧ (F32.fin sg m).lt F32.max16 = true ∧
      F32.min16.lt (.fin sg m) = true) :=
  ⟨by decide, by decide, by decide, false, ⟨0x46FFFDFF, by decide⟩, by decide, by decide, by decide⟩

/-- RfGainScalesBothChannels: the last band, the first that does not exist, both zeros. -/
theorem witness_RfGainScalesBothChannels :
    (let s := { holding [⟨half, F32.one⟩] with
        lat := { Ports.initial with activeBand := 3, rfGainAllBandsDb := f 0x80000000#32 } }
     s.lat.activeBand < s.par.numBands ∧ s.lat.rfGainAllBandsDb.isZero = true ∧
     (s.lat.band.getD s.lat.activeBand { rfGainDb := F32.zero, agcThresh := F32.zero, filter := 0 }).rfGainDb.isZero = true ∧
     ∀ z ∈ s.blk.x, z.i.isNaN = false ∧ z.q.isNaN = false) ∧
    (holding []).par.numBands ≤ ({ holding [] with lat := { Ports.initial with activeBand := 4 } } : State).lat.activeBand := by
  decide

theorem witness_IqCorrectionMixesOneWay :
    configured.lat.activeBand < configured.par.numBands ∧
    ((configured.cfg.iq.getD 0 { amp := F32.zero, phase := F32.zero, written := false }).amp = F32.one ∧
      (configured.cfg.iq.getD 0 { amp := F32.zero, phase := F32.zero, written := false }).phase.isZero = true) ∧
    (f 0x80000000#32).isFinite = true ∧ (f 0x7F7FFFFF#32).isFinite = true ∧
    (holding []).par.numBands ≤ ({ holding [] with lat := { Ports.initial with activeBand := 4 } } : State).lat.activeBand := by
  decide

theorem witness_QuarterShiftTwice :
    ∃ t u, exec .qshift (holding [⟨half, F32.one⟩, ⟨half, F32.one⟩]) = .next t ∧ exec .qshift t = .next u :=
  ⟨_, _, rfl, rfl⟩

/-- FineShiftRotates: a block of two samples with no offset. -/
theorem witness_FineShiftRotates :
    let s := holding [⟨half, F32.one⟩, ⟨half, F32.one⟩]
    [F32.zero, F32.zero, F32.zero].length = s.blk.x.length + 1 ∧ ([F32.zero, F32.zero, F32.zero])[0]? = some s.nco ∧
    wrap2pi (F32.zero.add ((F32.twoPiF.mul s.lat.fineFreqHz).div (F32.ofNat s.blk.fs))) = some F32.zero := by decide

/-- FineShiftEndsOrHangs: the largest offset below the rate 24000 and a step of exactly one turn, both from the largest phase, an infinite
offset, a NaN offset. -/
theorem witness_FineShiftEndsOrHangs :
    (let s := { holding [⟨half, half⟩] with lat := tunedTo (f 0x46BB7FFF#32), nco := F32.twoPiF }
     PhaseLegal s.nco ∧ s.nco.isNaN = false ∧ s.lat.fineFreqHz.magnitudeBelow s.blk.fs = true ∧ s.blk.fs ≤ 16777216) ∧
    (let s := { holding [⟨half, half⟩] with lat := tunedTo (f 0x46BB8000#32), nco := F32.twoPiF }
     PhaseLegal s.nco ∧ s.nco.isNaN = false ∧
      ((F32.twoPiF.mul s.lat.fineFreqHz).div (F32.ofNat s.blk.fs)).abs.le F32.twoPiF = true) ∧
    (let s := { holding [⟨half, half⟩] with lat := tunedTo (.inf false) }
     s.blk.x ≠ [] ∧ s.nco.isFinite = true ∧ (F32.ofNat s.blk.fs).isFinite = true ∧ s.lat.fineFreqHz.isFinite = false ∧
      s.lat.fineFreqHz.isNaN = false) ∧
    (let s := { holding [⟨half, half⟩] with lat := tunedTo (f 0x7FC00000#32) }
     s.blk.x ≠ [] ∧ s.lat.fineFreqHz.isNaN = true) :=
  ⟨⟨⟨by decide, by decide⟩, by decide, by decide, by decide⟩, ⟨⟨by decide, by decide⟩, by decide, by decide⟩, by decide, by decide⟩

/-- WrapLaw: both ends of the interval from one turn below to two turns above zero. -/
theorem witness_WrapLaw :
    (f 0x7FC00000#32).isNaN = true ∧ (∃ y, wrap2pi F32.twoPiF = some y) ∧
    (F32.twoPiF.neg.le F32.twoPiF.neg = true ∧ F32.twoPiF.neg.le (F32.twoPiF.add F32.twoPiF) = true) ∧
    (F32.twoPiF.neg.le (F32.twoPiF.add F32.twoPiF) = true ∧
      (F32.twoPiF.add F32.twoPiF).le (F32.twoPiF.add F32.twoPiF) = true) :=
  ⟨by decide, ⟨F32.zero, by decide⟩, by decide, by decide⟩

/-- FramingStages: the answers of two interpolation stages by 3 and 2 in the feed, with a value to spare. -/
theorem witness_FramingStages :
    let s : State :=
      { holding [⟨half, half⟩] with
        par := { smallPar with dfList := [3, 2] }, ext := { feed := List.replicate 17 half, count := 0, calls := [] } }
    let z : Sample := ⟨half, half⟩
    let answers := [List.replicate 2 z, List.replicate 6 z]
    (answers.length = (List.range s.par.dfList.length).reverse.length ∧
      ∀ k < 2, ∀ a, answers[k]? = some a →
        a.length = s.blk.n * (s.par.dfList.drop (s.par.dfList.length - (k + 1))).prod) ∧
    s.ext.feed = answers.flatten.flatMap (fun z => [z.i, z.q]) ++ [half] := by
  refine ⟨⟨rfl, fun k hk a ha => ?_⟩, by decide⟩
  rcases (by omega : k = 0 ∨ k = 1) with rfl | rfl <;> cases ha <;> rfl

theorem witness_VolumeScales :
    let s := { holding [⟨half, F32.one⟩] with lat := { Ports.initial with volPre := F32.one, volPost := F32.one } }
    (∀ z ∈ s.blk.x, z.i.isNaN = false ∧ z.q.isNaN = false) ∧ s.lat.volPre = F32.one ∧ s.lat.volPost = F32.one := by decide

/-- FiltersReplaceTheBlock: an answer of the right length at the front of the answer port. -/
theorem witness_FiltersReplaceTheBlock :
    let s := { holding [⟨F32.one, F32.one⟩] with ext := { feed := [half, F32.zero, half], count := 0, calls := [] } }
    s.lat.activeBand < s.par.numBands ∧ [({ i := half, q := F32.zero } : Sample)].length = s.blk.n ∧
    s.ext.feed = [({ i := half, q := F32.zero } : Sample)].flatMap (fun z => [z.i, z.q]) ++ [half] ∧
    s.par.numBands ≤ ({ s with lat := { Ports.initial with activeBand := 4 } } : State).lat.activeBand := by decide

/-- ConditionalStages: disabled, and enabled with an answer of the right length at the front of the answer port. -/
theorem witness_ConditionalStages :
    (holding []).lat.notchEn = false ∧ (holding []).lat.cwActive = false ∧
    (let s : State :=
      { holding [⟨F32.one, half⟩] with
        lat := { Ports.initial with notchEn := true, cwActive := true }
        ext := { feed := [half, F32.zero, half], count := 0, calls := [] } }
     s.lat.notchEn = true ∧ s.lat.cwActive = true ∧ [({ i := half, q := F32.zero } : Sample)].length = s.blk.n ∧
      s.ext.feed = [({ i := half, q := F32.zero } : Sample)].flatMap (fun z => [z.i, z.q]) ++ [half]) := by decide

/-- NoiseReductionRoutes: every option, and an answer of the right length at the front of the answer port. -/
theorem witness_NoiseReductionRoutes :
    (∀ o : BitVec 2, ((holding []).setCfg { Cfg.initial 4 with nrOption := o }).cfg.nrOption = o) ∧
    (let s : State := { holding [⟨F32.one, half⟩] with ext := { feed := [half, F32.zero], count := 0, calls := [] } }
     [({ i := half, q := F32.zero } : Sample)].length = s.blk.n ∧
      s.ext.feed = [({ i := half, q := F32.zero } : Sample)].flatMap (fun z => [z.i, z.q]) ++ []) :=
  ⟨fun _ => rfl, by decide⟩

theorem witness_AgcOffIsFixedGain : (holding [⟨half, half⟩]).cfg.agcMode = 0 := rfl

theorem witness_AgcOneSample :
    (agcReady [⟨half, F32.one⟩]).cfg.agcMode ≠ 0 ∧ (agcReady [⟨half, F32.one⟩]).blk.x = [⟨half, F32.one⟩] := by decide

theorem witness_AgcCarriesAcrossBlocks :
    (agcReady [⟨half, F32.one⟩, ⟨F32.one, half⟩]).cfg.agcMode ≠ 0 ∧
    (agcReady [⟨half, F32.one⟩, ⟨F32.one, half⟩]).blk.x = [⟨half, F32.one⟩] ++ [⟨F32.one, half⟩] := by decide

/-- An AgcState of profile T at a point of the transition table. -/
def ctl (st : AgcCtl) (peak volts fast hang save : F32) (count : Nat) (dHang : Bool) : AgcState :=
  { agcReset 1 profileT with
    state := st, ringMax := peak, volts := volts, fastBack := fast, hangBack := hang, saveVolts := save, hangCounter := count
    decayHang := dHang }

/-- AgcTransitionTable: the state after each of the sixteen rows, in the order of the statement (43_agc.md R219). -/
theorem witness_AgcTransitionTable :
    [ctl .attack F32.one F32.one F32.zero F32.zero F32.zero 0 false,
     ctl .attack F32.zero half F32.zero F32.zero F32.zero 0 false,
     ctl .attack F32.zero half half half F32.zero 0 false,
     ctl .attack F32.zero half half (f 0x3E000000#32) F32.zero 0 false,
     ctl .fastDecay half half F32.zero F32.zero F32.zero 0 false,
     ctl .fastDecay F32.zero half F32.zero F32.zero F32.zero 0 false,
     ctl .fastDecay F32.zero half F32.zero F32.zero half 1 false,
     ctl .fastDecay F32.zero half F32.zero F32.zero half 0 false,
     ctl .fastDecay F32.zero half F32.zero F32.zero half 0 true,
     ctl .hang half half F32.zero F32.zero F32.zero 1 true,
     ctl .hang F32.zero half F32.zero F32.zero F32.zero 0 true,
     ctl .hang F32.zero half F32.zero F32.zero F32.zero 1 true,
     ctl .normalDecay half half F32.zero F32.zero F32.zero 0 false,
     ctl .normalDecay F32.zero half F32.zero F32.zero F32.zero 0 false,
     ctl .hangDecay half half F32.zero F32.zero F32.zero 0 true,
     ctl .hangDecay F32.zero half F32.zero F32.zero F32.zero 0 true].map (fun a => (agcTransition a).state) =
    [.attack, .fastDecay, .hang, .normalDecay, .attack, .fastDecay, .hang, .normalDecay, .hangDecay, .attack, .hangDecay, .hang,
     .attack, .normalDecay, .attack, .hangDecay] := by decide

theorem witness_AgcFloorAndFlag :
    (agcReady [⟨F32.zero, F32.zero⟩]).cfg.agcMode ≠ 0 ∧ (agcReady [⟨F32.zero, F32.zero⟩]).blk.x ≠ [] ∧
    (∃ t, exec .agc (agcReady [⟨F32.zero, F32.zero⟩]) = .next t) ∧
    after (exec .agc (agcReady [⟨F32.zero, F32.zero⟩])) (fun t => !t.agc.agcAction) = true :=
  ⟨by decide, by decide, ⟨_, rfl⟩, by decide⟩

/-- AgcGroupDelay, AgcPeakIsWindowMax: profile T right after its reset. -/
theorem witness_AgcGroupDelay :
    let s := agcReady [⟨half, F32.one⟩, ⟨half, half⟩, ⟨half, half⟩]
    (1 : Nat) ≠ 0 ∧ profileT.wf 48 = true ∧ s.cfg.agcMode = 1 ∧ s.agc = agcReset 1 profileT := by decide

theorem witness_AgcPeakIsWindowMax :
    let s := agcReady [⟨half, F32.one⟩, ⟨half, half⟩, ⟨half, half⟩]
    profileT.wf 48 = true ∧ s.cfg.agcMode = 1 ∧ s.agc = agcReset 1 profileT ∧
      ∀ z ∈ s.blk.x, (magnitude profileT z).isNaN = false := by decide

/-- AgcRingSizeIndependent: the sizes 2 (the least) and 7. -/
theorem witness_AgcRingSizeIndependent :
    (agcReady []).cfg.agcMode = 1 ∧ profileT.wf 48 = true ∧ ({ profileT with ringSize := 7 } : AgcParams).wf 48 = true := by
  decide

theorem witness_AgcSilence :
    let s := agcReady (List.replicate (2 + 1) { i := F32.zero, q := F32.zero })
    profileT.wf 48 = true ∧ s.cfg.agcMode = 1 ∧ s.agc = agcReset 1 profileT ∧
      (profileT.minVolts.add ((F32.zero.sub profileT.minVolts).mul profileT.fastDecayMult)).lt profileT.minVolts = true := by
  decide

theorem witness_UsbCopiesUnassignedRefused :
    (demodulating 0#3 []).lat.demodMode = 0#3 ∧ 3 ≤ (demodulating 3#3 []).lat.demodMode.toNat ∧
    3 ≤ (demodulating 7#3 []).lat.demodMode.toNat := by decide

theorem witness_AmEnvelopeScrubsNaN : (demodulating 1#3 [⟨f 0x7FC00000#32, half⟩]).lat.demodMode = 1#3 := rfl

theorem witness_DemodChannelsEqualAndLog :
    ∀ m ∈ [0#3, 1#3, 2#3], ∃ t, exec .demod (demodulating m []) = .next t := by
  intro m hm
  simp only [List.mem_cons, List.not_mem_nil, or_false] at hm
  rcases hm with rfl | rfl | rfl <;> exact ⟨_, rfl⟩

/-- SamOneSample at rest on an in-phase carrier (V-SAM-1): the phase stays zero. -/
theorem witness_SamOneSample :
    let s := demodulating 2#3 [⟨half, F32.zero⟩]
    let z : Sample := ⟨half, F32.zero⟩
    let det := s.par.atan2a (((s.par.cos s.sam.phase).mul z.q).sub ((s.par.sin s.sam.phase).mul z.i))
      (((s.par.cos s.sam.phase).mul z.i).add ((s.par.sin s.sam.phase).mul z.q))
    s.lat.demodMode = 2#3 ∧ s.blk.x = [z] ∧
      wrap2pi (s.sam.phase.add ((s.par.sam.g1.mul det).add (s.sam.omega.add (s.par.sam.g2.mul det)))) = some F32.zero := by
  decide

/-- SamCarriesAcrossSamples: a block cut in two where both parts complete; with the phase delay and an infinite previous loop-filter output,
a part that hangs on its first sample (the front of one sample, the back after an empty front). -/
theorem witness_SamCarriesAcrossSamples :
    (let s := demodulating 2#3 ([⟨half, F32.zero⟩] ++ [⟨half, F32.zero⟩])
     s.lat.demodMode = 2#3 ∧ after (exec .demod { s with blk := { s.blk with x := [⟨half, F32.zero⟩] } }) (fun t =>
      after (exec .demod { s with blk := { s.blk with x := [⟨half, F32.zero⟩] }, sam := t.sam }) fun _ => true) = true) ∧
    (let s : State :=
      { demodulating 2#3 [⟨half, F32.zero⟩] with
        par := { smallPar with samPhaseDelay := true }, sam := { SamState.initial with filPrev := .inf false } }
     s.lat.demodMode = 2#3 ∧ exec .demod s = .fault .wrapDoesNotEnd ∧
      ∃ t, exec .demod { s with blk := { s.blk with x := [] } } = .next t) :=
  ⟨by decide, rfl, rfl, _, rfl⟩

/-- SamCompletesOnBoundedInput: samples at the bound, the phase at one turn. -/
theorem witness_SamCompletesOnBoundedInput :
    let s := { demodulating 2#3 [⟨f 0x5F800000#32, f 0xDF800000#32⟩] with
      sam := { SamState.initial with phase := F32.twoPiF, omega := f 0x3E800000#32, filPrev := F32.twoPiF } }
    s.lat.demodMode = 2#3 ∧ s.par.sam.wf = true ∧
      (F32.zero.le s.sam.phase = true ∧ s.sam.phase.le F32.twoPiF = true ∧ s.par.sam.omegaLim.neg.le s.sam.omega = true ∧
        s.sam.omega.le s.par.sam.omegaLim = true ∧ s.sam.filPrev.abs.le F32.twoPiF = true) ∧
      ∀ z ∈ s.blk.x, z.i.abs.le (f 0x5F800000#32) = true ∧ z.q.abs.le (f 0x5F800000#32) = true := by decide

/-- CfgAgcLoadsAndResets: mode Off, an active mode, a profile with an empty window, a band that does not exist. -/
theorem witness_CfgAgcLoadsAndResets :
    (idleWith []).seq.pass = .idle ∧ 2 ≤ (idleWith []).par.agcModeMax ∧ (48 : Nat) ≠ 0 ∧
    (idleWith []).inp.ports.activeBand < (idleWith []).par.numBands ∧
    ((idleWith []).par.agcProfile 1 48 BandEntry.zero).wf 48 = true ∧
    ((idleWith []).par.agcProfile 2 48 BandEntry.zero).wf 48 = false ∧
    (idleWith []).par.numBands ≤
      ((idleWith []).setInp { dispatchSel := 0#2, ports := { Ports.initial with activeBand := 4 } }).inp.ports.activeBand := by
  decide

/-- SettersStore, AccessorsReturn, BulkClearEmpties: the largest accepted operands, and the least refused mask. -/
theorem witness_SettersStore : (idleWith []).seq.pass = .idle ∧ (3 : Nat) ≤ 3 ∧ 3 < (idleWith []).par.numBands := by decide

theorem witness_AccessorsReturn : (agcReady []).seq.pass = .idle ∧ 3 < (agcReady []).par.numBands := by decide

theorem witness_BulkClearEmpties : queued.seq.pass = .idle ∧ (3 : Nat) ≤ 3 ∧ (3 : Nat) < 4 := by decide

end Sys2Proof.Tests
end

/-! PROOFS. 00_scope.md: what every step keeps of `PAR`, of `DIAG.LOG` and of `BLK.VALID` (R9; 10_state.md R21, R28), and what a
well-formed `PAR` is (R9, R10; 10_state.md R52). -/

namespace Sys2Proof.Machine

/-! ### What is kept: a preorder on states -/

/-- From `s` to `t` the parameters stay, the log only grows and a valid block stays valid. -/
structure State.Keeps (s t : State) : Prop where
  par : t.par = s.par
  diag : s.diag <+: t.diag
  valid : s.blk.valid = true → t.blk.valid = true

namespace State.Keeps

variable {s t u : State}

theorem of_eq (hpar : t.par = s.par) (hdiag : t.diag = s.diag) (hvalid : t.blk.valid = s.blk.valid) : s.Keeps t :=
  ⟨hpar, by rw [hdiag], fun h => hvalid.trans h⟩

theorem refl (s : State) : s.Keeps s := of_eq rfl rfl rfl

theorem trans (h : s.Keeps t) (k : t.Keeps u) : s.Keeps u :=
  ⟨k.par.trans h.par, h.diag.trans k.diag, k.valid ∘ h.valid⟩

theorem ite {c : Prop} [Decidable c] (h : s.Keeps t) (k : s.Keeps u) : s.Keeps (if c then t else u) := by
  split
  · exact h
  · exact k

/-! ### The shared operations keep it -/

theorem advance (h : s.Keeps t) : s.Keeps t.advance := h.trans (of_eq rfl rfl rfl)

theorem mapSamples (h : s.Keeps t) (f : Sample → Sample) : s.Keeps (t.mapSamples f) := h.trans (of_eq rfl rfl rfl)

theorem setSamples (h : s.Keeps t) (x : List Sample) : s.Keeps (t.setSamples x) := h.trans (of_eq rfl rfl rfl)

theorem setAgc (h : s.Keeps t) (a : AgcState) : s.Keeps (t.setAgc a) := h.trans (of_eq rfl rfl rfl)

theorem setSam (h : s.Keeps t) (m : SamState) : s.Keeps (t.setSam m) := h.trans (of_eq rfl rfl rfl)

theorem returns (h : s.Keeps t) (r : HostResult) : s.Keeps (t.returns r) := h.trans (of_eq rfl rfl rfl)

theorem filter (h : s.Keeps t) (c : ExtCall) : s.Keeps (t.filter c) := h.trans (of_eq rfl rfl rfl)

theorem calls (h : s.Keeps t) (c : ExtCall) : s.Keeps (t.calls c) := h.trans (of_eq rfl rfl rfl)

theorem markIf (s : State) (c : Bool) (m : Mark) : s.Keeps (s.markIf c m) := of_eq (by simp) (by simp) (by simp)

theorem raise (s : State) (a : Anomaly) (n fs : Nat) : s.Keeps (s.raise a n fs) := ⟨rfl, List.prefix_append _ _, id⟩

theorem passEnd (s : State) : s.Keeps s.passEnd := of_eq (by simp) (by simp) (by simp)

theorem atStage (s : State) (p : Pass) (k : Nat) : s.Keeps (s.atStage p k) := of_eq rfl rfl rfl

theorem endPass (s : State) : s.Keeps s.endPass := of_eq rfl rfl rfl

theorem consume (s : State) (n : Nat) : s.Keeps (s.consume n) := of_eq rfl rfl rfl

theorem setSched (s : State) (rest : List Move) : s.Keeps (s.setSched rest) := of_eq rfl rfl rfl

theorem decimStages (s : State) (call : Nat → SampleBlock → ExtCall) (ds : List Nat) :
    s.Keeps (decimStages call 0 ds s) := of_eq (by simp) (by simp) (by simp)

theorem interpStages (s : State) (call : Nat → SampleBlock → ExtCall) (ds : List Nat) :
    s.Keeps (interpStages call 0 ds s) := of_eq (by simp) (by simp) (by simp)

/-- The check of a SAM block is the one operation that adds to the log (44_sam_demodulator.md R247). -/
theorem samPrecond (s : State) : s.Keeps (samPrecond s) := (raise s _ _ _).ite (refl s)

theorem nrRoute (s : State) : s.Keeps (nrRoute s) := (refl s).ite (((refl s).filter _).mapSamples _)

theorem cwChain (s : State) : s.Keeps (cwChain s) := ((refl s).filter _).calls _

/-! ### Pulls and entry points: the block a pull creates is valid -/

theorem of_pullRx (h : pullRx s = some t) : s.Keeps t := by
  rw [pullRx_of_le (pullRx_some h)] at h
  obtain rfl := Option.some.inj h
  exact ⟨rfl, List.prefix_refl _, fun _ => rfl⟩

theorem of_pullTx (h : pullTx s = some t) : s.Keeps t := by
  rw [pullTx_of_le (pullTx_some h)] at h
  obtain rfl := Option.some.inj h
  exact ⟨rfl, List.prefix_refl _, fun _ => rfl⟩

theorem of_beginPass {awaited : Bool} {o : Option State} (ho : ∀ u, o = some u → s.Keeps u)
    (h : beginPass awaited s o = .next t) : s.Keeps t := by
  rcases beginPass_next h with ⟨-, rfl⟩ | ⟨u, hu, rfl⟩
  · exact ((refl s).returns _).ite (refl s)
  · exact (ho u hu).trans (of_eq rfl rfl rfl)

theorem of_startRx {awaited : Bool} (h : startRx awaited s = .next t) : s.Keeps t :=
  of_beginPass (fun _ hu => of_pullRx hu) h

theorem of_startTx {awaited : Bool} (h : startTx awaited s = .next t) : s.Keeps t :=
  of_beginPass (fun _ hu => of_pullTx hu) h

/-! ### Every operation, every move and every step keeps it -/

theorem of_execAgc (h : execAgc s = .next t) : s.Keeps t := by
  rcases execAgc_next h with ⟨-, rfl⟩ | ⟨-, rfl⟩
  · exact ((markIf s _ _).mapSamples _).advance
  · exact (((markIf s _ _).setSamples _).setAgc _).advance

theorem of_execDemod (h : execDemod s = .next t) : s.Keeps t := by
  rcases execDemod_next h with ⟨-, rfl⟩ | ⟨-, rfl⟩ | ⟨-, hsam⟩
  · exact ((refl s).mapSamples _).advance
  · exact ((refl s).mapSamples _).advance
  · obtain ⟨m, x, -, rfl⟩ := demodSam_next hsam
    exact (((samPrecond s).setSamples x).setSam _).advance

theorem of_exec {i : Instr} (h : exec i s = .next t) : s.Keeps t := by
  cases i with
  | pull =>
    rcases execPull_next h with ⟨-, rfl⟩ | hp
    · exact refl _
    · exact of_pullRx hp
  | txpull =>
    rcases execTxpull_next h with ⟨-, rfl⟩ | hp
    · exact refl _
    · exact of_pullTx hp
  | rfgain =>
    obtain ⟨-, rfl⟩ := execRfgain_next h
    exact ((refl s).mapSamples _).advance
  | iqcorr =>
    obtain ⟨-, rfl⟩ := execIqcorr_next h
    exact ((markIf s _ _).mapSamples _).advance
  | convfilt =>
    obtain ⟨-, rfl⟩ := execConvfilt_next h
    exact ((refl s).filter _).advance
  | fshift =>
    obtain ⟨x, theta, -, rfl⟩ := execFshift_next h
    exact of_eq rfl rfl rfl
  | agc => exact of_execAgc h
  | demod => exact of_execDemod h
  | qshift | volpre | volpost | equalizer | txeq | txhilb | txssb | push | txpush =>
    obtain rfl := Host.Outcome.next.inj h
    exact of_eq rfl rfl rfl
  | specfull | speczoom =>
    obtain rfl := Host.Outcome.next.inj h
    exact advance (((refl s).calls _).ite (refl s))
  | notch =>
    obtain rfl := Host.Outcome.next.inj h
    exact advance (((refl s).filter _).ite (refl s))
  | cwproc =>
    obtain rfl := Host.Outcome.next.inj h
    exact advance ((cwChain s).ite (refl s))
  | decim | txdecim =>
    obtain rfl := Host.Outcome.next.inj h
    exact (decimStages s _ _).advance
  | interp | txinterp =>
    obtain rfl := Host.Outcome.next.inj h
    exact (interpStages s _ _).advance
  | nr =>
    obtain rfl := Host.Outcome.next.inj h
    exact ((markIf s _ _).trans (nrRoute _)).advance
  | tick =>
    obtain ⟨-, ⟨-, hrx⟩ | ⟨-, htx⟩ | ⟨-, -, rfl⟩⟩ := execTick_next h
    · exact of_startRx hrx
    · exact of_startTx htx
    · exact refl _
  | rxPass => exact of_startRx (whenIdle_next h).2
  | txPass => exact of_startTx (whenIdle_next h).2
  | cfgAgc mode fs =>
    obtain ⟨-, ⟨-, rfl⟩ | ⟨-, -, -, -, rfl⟩⟩ := execCfgAgc_next h
    · exact refl _
    · exact of_eq rfl rfl rfl
  | cfgNr option =>
    obtain ⟨-, ⟨-, rfl⟩ | ⟨-, rfl⟩⟩ := execCfgNr_next h
    · exact refl _
    · exact of_eq rfl rfl rfl
  | setIqc band amp phase =>
    obtain ⟨-, ⟨-, rfl⟩ | ⟨-, rfl⟩⟩ := execSetIqc_next h
    · exact refl _
    · exact of_eq rfl rfl rfl
  | bulkClear mask =>
    obtain ⟨-, ⟨-, rfl⟩ | ⟨-, rfl⟩⟩ := execBulkClear_next h
    · exact refl _
    · exact of_eq rfl rfl rfl
  | rdAgcact =>
    obtain rfl := Host.Outcome.next.inj (whenIdle_next h).2
    exact (markIf s _ _).returns _
  | rdSamofs =>
    obtain rfl := Host.Outcome.next.inj (whenIdle_next h).2
    exact (refl s).returns _
  | rdIqc band =>
    obtain ⟨-, ⟨-, rfl⟩ | ⟨-, rfl⟩⟩ := execRdIqc_next h
    · exact (refl s).returns _
    · exact (markIf s _ _).returns _

theorem of_issue {i : Instr} (h : issue i s = .next t) : s.Keeps t := by
  rcases issue_next h with ⟨-, he⟩ | ⟨p, k, u, -, he, rfl⟩
  · exact of_exec he
  · exact ((atStage s p k).trans (of_exec he)).trans (endPass u)

theorem of_coreStep (h : coreStep s = .next t) : s.Keeps t := by
  unfold coreStep at h
  split at h
  · rcases hostStep_next h with ⟨i, n, -, hi⟩ | ⟨-, -, rfl⟩ | ⟨-, rfl⟩
    · exact (consume s n).trans (of_issue hi)
    · exact consume s 1
    · exact refl _
  · obtain ⟨i, u, -, he, rfl⟩ := seqStep_next h
    exact (of_exec he).trans (passEnd u)

/-- The moves of the outside agents but for power-on reset, which clears the log and the block (10_state.md R60). -/
theorem of_agentMove {m : Move} (hm : m ≠ .powerOn) (h : agentMove m s = .next t) : s.Keeps t := by
  cases m with
  | powerOn => exact absurd rfl hm
  | capture ps | txFeed ps =>
    rw [agentMove] at h
    obtain ⟨-, rfl⟩ := appendWithin_next h
    exact of_eq rfl rfl rfl
  | run | playDrain n | sinkDrain n | drive v | issue ws =>
    obtain rfl := Host.Outcome.next.inj h
    exact of_eq rfl rfl rfl

end State.Keeps

theorem agentMove_par {m : Move} {s t : State} (h : agentMove m s = .next t) : t.par = s.par := by
  by_cases hm : m = .powerOn
  · subst hm
    obtain rfl := Host.Outcome.next.inj h
    rfl
  · exact (State.Keeps.of_agentMove hm h).par

theorem step_par {s t : State} (h : step s = .next t) : t.par = s.par := by
  obtain ⟨-, ⟨m, rest, -, -, hm⟩ | ⟨rest, -, hc⟩⟩ := step_next h
  · exact (agentMove_par hm).trans (State.setSched_par s rest)
  · exact ((State.Keeps.setSched s rest).trans (.of_coreStep hc)).par

/-- A step that is not power-on reset. -/
theorem step_keeps {s t : State} (hp : s.sched.head? ≠ some .powerOn) (h : step s = .next t) : s.Keeps t := by
  obtain ⟨-, ⟨m, rest, hs, -, hm⟩ | ⟨rest, -, hc⟩⟩ := step_next h
  · have hne : m ≠ .powerOn := by
      rintro rfl
      exact hp (by rw [hs, List.head?_cons])
    exact (State.Keeps.setSched s rest).trans (.of_agentMove hne hm)
  · exact (State.Keeps.setSched s rest).trans (.of_coreStep hc)

/-- Settles O18: power-on reset keeps `PAR`, and every other step is a chain of operations that keep all three. -/
theorem stepKeepsParametersAndLog : Obligations.StepKeepsParametersAndLog := by
  intro s t h
  exact ⟨step_par h, fun hp => ⟨(step_keeps hp h).diag, (step_keeps hp h).valid⟩⟩

/-! ### Well-formed parameters -/

theorem step_refuses_illFormed {s : State} (h : s.par.wf = false) : step s = .refused .parIllFormed :=
  if_neg (by simp [h])

end Sys2Proof.Machine

namespace Sys2Proof

/-- The model's running division is the divisibility by every running product (00_scope.md R10): where `d` divides `n`, a product that
starts with `d` divides `n` exactly when the rest of it divides `n / d`. -/
theorem dividesThrough_iff (ds : List Nat) (n : Nat) :
    dividesThrough ds n = true ↔ (∀ d ∈ ds, 2 ≤ d) ∧ ∀ pre : List Nat, pre <+: ds → pre.prod ∣ n := by
  induction ds generalizing n with
  | nil => simp [dividesThrough]
  | cons d ds ih =>
    simp only [dividesThrough, Bool.and_eq_true, decide_eq_true_eq, ← Nat.dvd_iff_mod_eq_zero, ih, List.forall_mem_cons]
    constructor
    · rintro ⟨⟨h2, hd⟩, hds, hpre⟩
      refine ⟨⟨h2, hds⟩, fun pre hp => ?_⟩
      rcases List.prefix_cons_iff.mp hp with rfl | ⟨rest, rfl, hrest⟩
      · simp
      · rw [List.prod_cons]
        exact (Nat.dvd_div_iff_mul_dvd hd).mp (hpre rest hrest)
    · rintro ⟨⟨h2, hds⟩, hpre⟩
      have hd : d ∣ n := by simpa using hpre [d] (by simp)
      refine ⟨⟨h2, hd⟩, hds, fun rest hrest => (Nat.dvd_div_iff_mul_dvd hd).mpr ?_⟩
      rw [← List.prod_cons]
      exact hpre (d :: rest) (List.prefix_cons_inj d |>.mpr hrest)

theorem F32.isNonneg_iff (x : F32) : x.isNonneg = true ↔ x.isFinite = true ∧ F32.zero.le x = true := by
  rw [F32.isNonneg, Bool.and_eq_true]

theorem F32.inUnit_iff (x : F32) :
    x.inUnit = true ↔ x.isFinite = true ∧ F32.zero.le x = true ∧ x.le F32.one = true := by
  rw [F32.inUnit, Bool.and_eq_true, Bool.and_eq_true, and_assoc]

/-- The clauses of 10_state.md R52, the finiteness of the five values taken out of each. -/
theorem SamParams.wf_iff (p : SamParams) :
    p.wf = true ↔
      (p.g1.isFinite = true ∧ p.g2.isFinite = true ∧ p.omegaLim.isFinite = true ∧ p.mtauR.isFinite = true ∧
        p.mtauI.isFinite = true) ∧
      F32.zero.le p.omegaLim = true ∧ F32.zero.le p.g1 = true ∧ F32.zero.le p.g2 = true ∧
      (F32.zero.le p.mtauR = true ∧ p.mtauR.le F32.one = true) ∧ (F32.zero.le p.mtauI = true ∧ p.mtauI.le F32.one = true) ∧
      ((p.g1.mul F32.piF).add p.omegaLim).lt F32.twoPiF = true := by
  simp only [SamParams.wf, Bool.and_eq_true, F32.isNonneg_iff, F32.inUnit_iff]
  constructor
  · rintro ⟨⟨⟨⟨⟨⟨f1, n1⟩, f2, n2⟩, fo, no⟩, fr, ur⟩, fi, ui⟩, hlim⟩
    exact ⟨⟨f1, f2, fo, fr, fi⟩, no, n1, n2, ur, ui, hlim⟩
  · rintro ⟨⟨f1, f2, fo, fr, fi⟩, no, n1, n2, ur, ui, hlim⟩
    exact ⟨⟨⟨⟨⟨⟨f1, n1⟩, f2, n2⟩, fo, no⟩, fr, ur⟩, fi, ui⟩, hlim⟩

theorem Par.wf_iff (p : Par) :
    p.wf = true ↔
      (0 < p.nNative ∧ 0 < p.fsNative ∧ 0 < p.numBands ∧ 0 < p.samNReq ∧ 0 < p.samFsReq) ∧ p.nNative ≤ p.queueCap ∧
      dividesThrough p.dfList p.nNative = true ∧ dividesThrough p.dfList p.fsNative = true ∧
      dividesThrough p.txDfList p.nNative = true ∧ dividesThrough p.txDfList p.fsNative = true ∧ p.sam.wf = true := by
  simp only [Par.wf, Bool.and_eq_true, decide_eq_true_eq, and_assoc]

/-- Settles O19: the refusal, then each check of the model as the rules state it. -/
theorem illFormedParametersRefused : Obligations.IllFormedParametersRefused :=
  ⟨fun _ h => Machine.step_refuses_illFormed h, dividesThrough_iff, SamParams.wf_iff, Par.wf_iff⟩

end Sys2Proof

/-! PROOFS. 10_state.md, the inversion of `exec`: what each kind of operation can do to every group of the state. The frames, the
invariants and the whole receive pass below are read off it. -/

namespace Sys2Proof.Machine

/-! ### The kinds of stages -/

/-- The stages between a pull and a push that keep the length and the rate of the block. -/
def sampleStages : List Instr :=
  [.rfgain, .iqcorr, .specfull, .qshift, .speczoom, .fshift, .volpre, .convfilt, .agc, .demod, .equalizer, .nr, .notch, .cwproc,
    .volpost, .txeq, .txhilb, .txssb]

/-- Every register a stage reads has been written (10_state.md R33), the correction pair where the latched band exists. -/
def State.StageConfigured (s : State) : Prop :=
  s.cfg.agcWritten = true ∧ s.cfg.nrWritten = true ∧
    (s.lat.activeBand < s.par.numBands → (s.cfg.iqPair s.lat.activeBand).written = true)

/-- Nothing around the block has changed. -/
structure State.SameAround (s t : State) : Prop where
  par : t.par = s.par
  inp : t.inp = s.inp
  lat : t.lat = s.lat
  cfg : t.cfg = s.cfg
  queues : t.queues = s.queues
  host : t.host = s.host
  sched : t.sched = s.sched

/-- What every stage between a pull and a push does: the stage pointer moves by one, the block stays well formed. -/
structure Staged (s t : State) : Prop extends s.SameAround t where
  seq : t.seq = { s.seq with sp := s.seq.sp + 1 }
  valid : t.blk.valid = s.blk.valid
  length : s.blk.x.length = s.blk.n → t.blk.x.length = t.blk.n
  marks : s.StageConfigured → t.marks = s.marks

/-- `DEMOD` in mode SAM ran its loop to the end (44_sam_demodulator.md R231). -/
def SamLoopRan (s t : State) : Prop :=
  s.lat.demodMode = 2#3 ∧ ∃ m x, samLoop s.par s.sam s.blk.x = some (m, x) ∧ t.sam = samCarrier s.blk.fs m

/-- What a stage of `sampleStages` does. -/
structure Processed (i : Instr) (s t : State) : Prop extends Staged s t where
  n : t.blk.n = s.blk.n
  fs : t.blk.fs = s.blk.fs
  agc : t.agc = s.agc ∨ (i = .agc ∧ s.cfg.agcMode ≠ 0 ∧ t.agc = (agcLoop s.par s.agc s.blk.x).1)
  nco : t.nco = s.nco ∨ (i = .fshift ∧ PhaseLegal t.nco)
  loop : (t.sam = s.sam ∧ t.diag = s.diag) ∨ (i = .demod ∧ SamLoopRan s t)

/-- What a decimation or interpolation stage does that leaves the block `n` samples long at the rate `fs`. -/
structure Rerated (n fs : Nat) (s t : State) : Prop extends Staged s t where
  n : t.blk.n = n
  fs : t.blk.fs = fs
  agc : t.agc = s.agc
  nco : t.nco = s.nco
  sam : t.sam = s.sam
  diag : t.diag = s.diag

/-- What a host operation other than the setters returns (30_encoding.md R117). -/
inductive Returns : Instr → HostResult → Prop
  | rxPass : Returns .rxPass .passNone
  | txPass : Returns .txPass .passNone
  | agcAction (b : Bool) : Returns .rdAgcact (.bit b)
  | samOffset (x : F32) : Returns .rdSamofs (.real x)
  | noPair (band : Nat) : Returns (.rdIqc band) .nothing
  | pair (band : Nat) (amp phase : F32) : Returns (.rdIqc band) (.pair amp phase)

/-- Every register a read accessor reads has been written (10_state.md R33). -/
def State.AllWritten (s : State) : Prop :=
  s.cfg.agcWritten = true ∧ s.cfg.nrWritten = true ∧ ∀ b, b < s.par.numBands → (s.cfg.iqPair b).written = true

/-- The state after a receive pull that found a block (40_orchestrator_framing.md R136). -/
def rxPulled (awaited : Bool) (s : State) : State :=
  { s with
    queues := { s.queues with capq := s.queues.capq.drop s.par.nNative }
    lat := s.inp.ports
    sam := if s.inp.ports.demodMode = 2#3 ∧ s.seq.lastDemod ≠ some 2#3 then SamState.initial else s.sam
    blk := freshBlock s.par (s.queues.capq.take s.par.nNative)
    seq := { sp := 1, pass := .rx, lastDemod := some s.inp.ports.demodMode }
    host := { s.host with awaited := awaited } }

/-- The state after a transmit pull that found a block (40_orchestrator_framing.md R151). -/
def txPulled (awaited : Bool) (s : State) : State :=
  { s with
    queues := { s.queues with txsrc := s.queues.txsrc.drop s.par.nNative }
    lat := s.inp.ports
    blk := freshBlock s.par (s.queues.txsrc.take s.par.nNative)
    seq := { s.seq with sp := 1, pass := .tx }
    host := { s.host with awaited := awaited } }

/-- All that an operation which answers a next state can have done. -/
inductive Effect (s t : State) : Instr → Prop
  | processed {i : Instr} (hi : i ∈ sampleStages) (h : Processed i s t) : Effect s t i
  | decimated {i : Instr} {ds : List Nat} (hi : (i, ds) ∈ [(.decim, s.par.dfList), (.txdecim, s.par.txDfList)])
      (h : Rerated (s.blk.n / factorProduct ds) (s.blk.fs / factorProduct ds) s t) : Effect s t i
  | interpolated {i : Instr} {ds : List Nat} (hi : (i, ds) ∈ [(.interp, s.par.dfList), (.txinterp, s.par.txDfList)])
      (h : Rerated (s.blk.n * factorProduct ds) (s.blk.fs * factorProduct ds) s t) : Effect s t i
  | pushed (q : List RawPair) (h : t = (s.setQueues { s.queues with playq := q }).endPass) : Effect s t .push
  | txPushed (q : List RawPair) (h : t = (s.setQueues { s.queues with txsink := q }).endPass) : Effect s t .txpush
  | pulled {i : Instr} (awaited : Bool) (hi : i ∈ [.pull, .tick, .rxPass]) (ha : i = .pull → awaited = s.host.awaited)
      (hn : s.par.nNative ≤ s.queues.capq.length) (h : t = rxPulled awaited s) : Effect s t i
  | sourced {i : Instr} (awaited : Bool) (hi : i ∈ [.txpull, .tick, .txPass]) (ha : i = .txpull → awaited = s.host.awaited)
      (hn : s.par.nNative ≤ s.queues.txsrc.length) (h : t = txPulled awaited s) : Effect s t i
  | skipped {i : Instr} (hi : stagePosition i = none ∨ i = .pull ∨ i = .txpull) (h : t = s) : Effect s t i
  | returned {i : Instr} {r : HostResult} (marks : List Mark) (hr : Returns i r) (hm : s.AllWritten → marks = s.marks)
      (h : t = (s.setMarks marks).returns r) : Effect s t i
  | agcSet {mode fs : Nat} (hmode : mode ≤ s.par.agcModeMax) (hp : mode = 0 ∨ (loadedProfile s mode fs).wf fs = true)
      (h : t = acceptAgc s mode fs) : Effect s t (.cfgAgc mode fs)
  | nrSet {option : Nat} (o : BitVec 2) (h : t = s.setCfg { s.cfg with nrOption := o, nrWritten := true }) :
      Effect s t (.cfgNr option)
  | iqSet {band : Nat} {amp phase : F32} (hb : band < s.par.numBands) (h : t = s.setCfg (s.cfg.setIqPair band amp phase)) :
      Effect s t (.setIqc band amp phase)
  | cleared {mask : Nat} (h : t = s.setQueues
      { s.queues with
        capq := if mask.testBit 0 then [] else s.queues.capq
        playq := if mask.testBit 1 then [] else s.queues.playq }) : Effect s t (.bulkClear mask)

/-! ### What each stage does -/

section
variable {i : Instr} {s t u : State}

/-- From `s` to `t` at most answers were drawn, a mark was added and the block got new samples. -/
def Resampled (s t : State) : Prop :=
  ∃ (x : List Sample) (e : ExtPort) (m : List Mark), (s.blk.x.length = s.blk.n → x.length = s.blk.n) ∧
    (s.StageConfigured → m = s.marks) ∧ t = { s with blk := { s.blk with x := x }, ext := e, marks := m }

namespace Resampled

theorem refl (s : State) : Resampled s s := ⟨s.blk.x, s.ext, s.marks, id, fun _ => rfl, rfl⟩

theorem ite {c : Prop} [Decidable c] (ht : Resampled s t) (hu : Resampled s u) : Resampled s (if c then t else u) := by
  split
  · exact ht
  · exact hu

theorem setSamples (h : Resampled s t) {x : List Sample} (hx : t.blk.x.length = t.blk.n → x.length = t.blk.n) :
    Resampled s (t.setSamples x) := by
  obtain ⟨y, e, m, hy, hm, rfl⟩ := h
  exact ⟨x, e, m, fun hl => hx (hy hl), hm, rfl⟩

theorem mapSamples (h : Resampled s t) (g : Sample → Sample) : Resampled s (t.mapSamples g) :=
  h.setSamples fun hl => (List.length_map g).trans hl

theorem calls (h : Resampled s t) (c : ExtCall) : Resampled s (t.calls c) := by
  obtain ⟨x, e, m, hx, hm, rfl⟩ := h
  exact ⟨x, _, m, hx, hm, rfl⟩

theorem filter (h : Resampled s t) (c : ExtCall) : Resampled s (t.filter c) := by
  obtain ⟨x, e, m, -, hm, rfl⟩ := h
  exact ⟨_, _, m, fun _ => drawSamples_length _ _, hm, rfl⟩

/-- A mark is added only where a register is unwritten. -/
theorem markIf (s : State) {c : Bool} (m : Mark) (hc : s.StageConfigured → c = false) : Resampled s (s.markIf c m) := by
  cases c with
  | false => exact refl s
  | true => exact ⟨s.blk.x, s.ext, s.marks ++ [m], id, fun h => absurd (hc h) (by decide), rfl⟩

theorem nrRoute (h : Resampled s t) : Resampled s (nrRoute t) := h.ite ((h.filter _).mapSamples _)

theorem cwChain (s : State) : Resampled s (cwChain s) := ((refl s).filter _).calls _

/-- The stage pointer moves on: the stage is done. -/
theorem processed (h : Resampled s t) : Processed i s t.advance := by
  obtain ⟨x, e, m, hx, hm, rfl⟩ := h
  exact
    { par := rfl, inp := rfl, lat := rfl, cfg := rfl, queues := rfl, host := rfl, sched := rfl, seq := rfl, valid := rfl
      length := hx, marks := hm, n := rfl, fs := rfl, agc := .inl rfl, nco := .inl rfl, loop := .inl ⟨rfl, rfl⟩ }

end Resampled

theorem execIqcorr_processed (h : execIqcorr s = .next t) : Processed i s t := by
  obtain ⟨hb, rfl⟩ := execIqcorr_next h
  have hm : s.StageConfigured → (!(s.cfg.iqPair s.lat.activeBand).written) = false := fun ⟨_, _, hw⟩ => by
    rw [hw (of_decide_eq_true hb)]; rfl
  exact ((Resampled.markIf s _ hm).mapSamples _).processed

theorem execNr_processed (h : execNr s = .next t) : Processed i s t := by
  obtain rfl := Host.Outcome.next.inj h
  have hm : s.StageConfigured → (!s.cfg.nrWritten) = false := fun ⟨_, hw, _⟩ => by rw [hw]; rfl
  exact (Resampled.markIf s _ hm).nrRoute.processed

theorem execFshift_processed (h : execFshift s = .next t) : Processed .fshift s t := by
  obtain ⟨x, theta, hl, rfl⟩ := execFshift_next h
  obtain ⟨hlen, htheta⟩ := fshiftLoop_some hl
  have hs : Processed .fshift s (s.setSamples x).advance :=
    ((Resampled.refl s).setSamples fun h => hlen.trans h).processed
  exact { hs with nco := htheta.imp And.right fun h => ⟨rfl, h⟩ }

theorem execAgc_processed (h : execAgc s = .next t) : Processed .agc s t := by
  have hm : s.StageConfigured → (!s.cfg.agcWritten) = false := fun ⟨hw, _⟩ => by rw [hw]; rfl
  have hr : Resampled s s.markAgc := .markIf s _ hm
  rcases execAgc_next h with ⟨-, rfl⟩ | ⟨hmode, rfl⟩
  · exact (hr.mapSamples _).processed
  · have hs : Processed .agc s (s.markAgc.setSamples (agcLoop s.par s.agc s.blk.x).2).advance :=
      (hr.setSamples fun h => by simpa [State.markAgc] using h).processed
    exact { hs with agc := .inr ⟨rfl, hmode, rfl⟩ }

theorem samPrecond_eq (s : State) : samPrecond s = s.setDiag (samPrecond s).diag := by
  rcases samPrecond_cases s with h | h <;> rw [h] <;> rfl

theorem execDemod_processed (h : execDemod s = .next t) : Processed .demod s t := by
  rcases execDemod_next h with ⟨-, rfl⟩ | ⟨-, rfl⟩ | ⟨hmode, h⟩
  · exact ((Resampled.refl s).mapSamples _).processed
  · exact ((Resampled.refl s).mapSamples _).processed
  · obtain ⟨m, x, hl, rfl⟩ := demodSam_next h
    obtain ⟨hlen, -, -⟩ := samLoop_some hl
    have hs : Processed .demod s (s.setSamples x).advance :=
      ((Resampled.refl s).setSamples fun h => hlen.trans h).processed
    rw [samPrecond_eq]
    exact { hs with loop := .inr ⟨rfl, hmode, m, x, hl, rfl⟩ }

/-- The operations of `sampleStages` by their meanings. -/
theorem exec_processed (hi : i ∈ sampleStages) (h : exec i s = .next t) : Processed i s t := by
  have hr := Resampled.refl s
  cases i with
  | rfgain =>
    obtain ⟨-, rfl⟩ := execRfgain_next h
    exact (hr.mapSamples _).processed
  | convfilt =>
    obtain ⟨-, rfl⟩ := execConvfilt_next h
    exact (hr.filter _).processed
  | iqcorr => exact execIqcorr_processed h
  | nr => exact execNr_processed h
  | fshift => exact execFshift_processed h
  | agc => exact execAgc_processed h
  | demod => exact execDemod_processed h
  | volpre | volpost =>
    obtain rfl := Host.Outcome.next.inj h
    exact (hr.mapSamples _).processed
  | qshift =>
    obtain rfl := Host.Outcome.next.inj h
    exact (hr.setSamples fun hl => List.length_mapIdx.trans hl).processed
  | equalizer | txeq | txhilb | txssb =>
    obtain rfl := Host.Outcome.next.inj h
    exact (hr.filter _).processed
  | specfull | speczoom =>
    obtain rfl := Host.Outcome.next.inj h
    exact ((hr.calls _).ite hr).processed
  | notch =>
    obtain rfl := Host.Outcome.next.inj h
    exact ((hr.filter _).ite hr).processed
  | cwproc =>
    obtain rfl := Host.Outcome.next.inj h
    exact ((Resampled.cwChain s).ite hr).processed
  | _ => simp [sampleStages] at hi

theorem decimStages_rerated (call : Nat → SampleBlock → ExtCall) (ds : List Nat) (s : State) :
    Rerated (s.blk.n / factorProduct ds) (s.blk.fs / factorProduct ds) s (decimStages call 0 ds s).advance where
  par := decimStages_par call 0 ds s
  inp := decimStages_inp call 0 ds s
  lat := decimStages_lat call 0 ds s
  cfg := decimStages_cfg call 0 ds s
  queues := decimStages_queues call 0 ds s
  host := decimStages_host call 0 ds s
  sched := decimStages_sched call 0 ds s
  seq := by simp
  valid := decimStages_valid call 0 ds s
  length := decimStages_length call 0 ds
  marks := fun _ => decimStages_marks call 0 ds s
  n := decimStages_n call 0 ds s
  fs := decimStages_fs call 0 ds s
  agc := decimStages_agc call 0 ds s
  nco := decimStages_nco call 0 ds s
  sam := decimStages_sam call 0 ds s
  diag := decimStages_diag call 0 ds s

theorem interpStages_rerated (call : Nat → SampleBlock → ExtCall) (ds : List Nat) (s : State) :
    Rerated (s.blk.n * factorProduct ds) (s.blk.fs * factorProduct ds) s (interpStages call 0 ds s).advance where
  par := interpStages_par call 0 ds s
  inp := interpStages_inp call 0 ds s
  lat := interpStages_lat call 0 ds s
  cfg := interpStages_cfg call 0 ds s
  queues := interpStages_queues call 0 ds s
  host := interpStages_host call 0 ds s
  sched := interpStages_sched call 0 ds s
  seq := by simp
  valid := interpStages_valid call 0 ds s
  length := interpStages_length call 0 ds
  marks := fun _ => interpStages_marks call 0 ds s
  n := interpStages_n call 0 ds s
  fs := interpStages_fs call 0 ds s
  agc := interpStages_agc call 0 ds s
  nco := interpStages_nco call 0 ds s
  sam := interpStages_sam call 0 ds s
  diag := interpStages_diag call 0 ds s

/-! ### What each operation does -/

theorem pullRx_eq (h : pullRx s = some t) :
    s.par.nNative ≤ s.queues.capq.length ∧ t = rxPulled s.host.awaited s := by
  have hn := pullRx_some h
  rw [pullRx_of_le hn] at h
  exact ⟨hn, (Option.some.inj h).symm⟩

theorem pullTx_eq (h : pullTx s = some t) :
    s.par.nNative ≤ s.queues.txsrc.length ∧ t = txPulled s.host.awaited s := by
  have hn := pullTx_some h
  rw [pullTx_of_le hn] at h
  exact ⟨hn, (Option.some.inj h).symm⟩

/-- What `RX_PASS` and a selected `TICK` do: nothing but the answer `None` that is awaited, or the pull. -/
theorem startRx_eq {awaited : Bool} (h : startRx awaited s = .next t) :
    (t = if awaited then s.returns .passNone else s) ∨
      (s.par.nNative ≤ s.queues.capq.length ∧ t = rxPulled awaited s) := by
  rcases startRx_next h with ⟨-, rfl⟩ | ⟨u, hu, rfl⟩
  · exact .inl rfl
  · obtain ⟨hn, rfl⟩ := pullRx_eq hu
    exact .inr ⟨hn, rfl⟩

theorem startTx_eq {awaited : Bool} (h : startTx awaited s = .next t) :
    (t = if awaited then s.returns .passNone else s) ∨
      (s.par.nNative ≤ s.queues.txsrc.length ∧ t = txPulled awaited s) := by
  rcases startTx_next h with ⟨-, rfl⟩ | ⟨u, hu, rfl⟩
  · exact .inl rfl
  · obtain ⟨hn, rfl⟩ := pullTx_eq hu
    exact .inr ⟨hn, rfl⟩

/-- A read accessor that may have marked an unwritten register. -/
theorem Effect.of_returns {c : Bool} (m : Mark) {r : HostResult} (hr : Returns i r) (hc : s.AllWritten → c = false) :
    Effect s ((s.markIf c m).returns r) i := by
  cases c with
  | false => exact .returned s.marks hr (fun _ => rfl) rfl
  | true => exact .returned _ hr (fun h => absurd (hc h) (by decide)) rfl

theorem execTick_effect (h : execTick s = .next t) : Effect s t .tick := by
  obtain ⟨-, ⟨-, hrx⟩ | ⟨-, htx⟩ | ⟨-, -, rfl⟩⟩ := execTick_next h
  · rcases startRx_eq hrx with rfl | ⟨hn, rfl⟩
    · exact .skipped (.inl rfl) rfl
    · exact .pulled false (by decide) nofun hn rfl
  · rcases startTx_eq htx with rfl | ⟨hn, rfl⟩
    · exact .skipped (.inl rfl) rfl
    · exact .sourced false (by decide) nofun hn rfl
  · exact .skipped (.inl rfl) rfl

/-- The inversion of `exec`: an operation that answers a next state has had one of the effects listed. -/
theorem exec_effect (h : exec i s = .next t) : Effect s t i := by
  by_cases hi : i ∈ sampleStages
  · exact .processed hi (exec_processed hi h)
  cases i with
  | decim | txdecim =>
    obtain rfl := Host.Outcome.next.inj h
    exact .decimated (by simp) (decimStages_rerated _ _ s)
  | interp | txinterp =>
    obtain rfl := Host.Outcome.next.inj h
    exact .interpolated (by simp) (interpStages_rerated _ _ s)
  | push => exact .pushed _ (Host.Outcome.next.inj h).symm
  | txpush => exact .txPushed _ (Host.Outcome.next.inj h).symm
  | pull =>
    rcases execPull_next h with ⟨-, rfl⟩ | hp
    · exact .skipped (.inr (.inl rfl)) rfl
    · obtain ⟨hn, rfl⟩ := pullRx_eq hp
      exact .pulled _ (by decide) (fun _ => rfl) hn rfl
  | txpull =>
    rcases execTxpull_next h with ⟨-, rfl⟩ | hp
    · exact .skipped (.inr (.inr rfl)) rfl
    · obtain ⟨hn, rfl⟩ := pullTx_eq hp
      exact .sourced _ (by decide) (fun _ => rfl) hn rfl
  | tick => exact execTick_effect h
  | rxPass =>
    rcases startRx_eq (whenIdle_next h).2 with rfl | ⟨hn, rfl⟩
    · exact .returned s.marks .rxPass (fun _ => rfl) rfl
    · exact .pulled true (by decide) nofun hn rfl
  | txPass =>
    rcases startTx_eq (whenIdle_next h).2 with rfl | ⟨hn, rfl⟩
    · exact .returned s.marks .txPass (fun _ => rfl) rfl
    · exact .sourced true (by decide) nofun hn rfl
  | cfgAgc mode fs =>
    obtain ⟨-, ⟨-, rfl⟩ | ⟨hmode, -, -, hp, rfl⟩⟩ := execCfgAgc_next h
    · exact .skipped (.inl rfl) rfl
    · exact .agcSet hmode hp rfl
  | cfgNr option =>
    obtain ⟨-, ⟨-, rfl⟩ | ⟨-, rfl⟩⟩ := execCfgNr_next h
    · exact .skipped (.inl rfl) rfl
    · exact .nrSet _ rfl
  | setIqc band amp phase =>
    obtain ⟨-, ⟨-, rfl⟩ | ⟨hb, rfl⟩⟩ := execSetIqc_next h
    · exact .skipped (.inl rfl) rfl
    · exact .iqSet hb rfl
  | bulkClear mask =>
    obtain ⟨-, ⟨-, rfl⟩ | ⟨-, rfl⟩⟩ := execBulkClear_next h
    · exact .skipped (.inl rfl) rfl
    · exact .cleared rfl
  | rdAgcact =>
    obtain rfl := Host.Outcome.next.inj (whenIdle_next h).2
    exact .of_returns _ (.agcAction _) fun ⟨hw, _⟩ => by rw [hw]; rfl
  | rdSamofs =>
    obtain rfl := Host.Outcome.next.inj (whenIdle_next h).2
    exact .returned s.marks (.samOffset _) (fun _ => rfl) rfl
  | rdIqc band =>
    obtain ⟨-, ⟨-, rfl⟩ | ⟨hb, rfl⟩⟩ := execRdIqc_next h
    · exact .returned s.marks (.noPair band) (fun _ => rfl) rfl
    · exact .of_returns _ (.pair band _ _) fun ⟨_, _, hw⟩ => by rw [hw band hb]; rfl
  | _ => exact absurd (by decide) hi

end

end Sys2Proof.Machine

/-! PROOFS. 10_state.md: what no other operation writes (R24, R29 to R33, R40, R46, R55, R56), and power-on reset (R60). -/

namespace Sys2Proof.Machine

variable {i : Instr} {s t : State}

/-! ### Marks -/

theorem State.AllWritten.stageConfigured (h : s.AllWritten) : s.StageConfigured := ⟨h.1, h.2.1, h.2.2 _⟩

theorem Effect.marks (he : Effect s t i) (hw : s.AllWritten) : t.marks = s.marks := by
  cases he with
  | processed _ h => exact h.marks hw.stageConfigured
  | decimated _ h | interpolated _ h => exact h.marks hw.stageConfigured
  | returned marks _ hm h => subst h; exact hm hw
  | pushed _ h | txPushed _ h | pulled _ _ _ _ h | sourced _ _ _ _ h | skipped _ h | agcSet _ _ h | nrSet _ h | iqSet _ h
    | cleared h => subst h; rfl

/-- Settles O21: the five operations that mark a run do so where the register they read is unwritten. -/
theorem configuredRunsUnmarked : Obligations.ConfiguredRunsUnmarked :=
  fun _ _ _ hagc hnr hiq h => (exec_effect h).marks ⟨hagc, hnr, hiq⟩

/-! ### The block's own state -/

theorem Effect.blkFrame (he : Effect s t i)
    (hi : i ∉ [.decim, .interp, .txdecim, .txinterp, .pull, .txpull, .tick, .rxPass, .txPass]) :
    t.blk.n = s.blk.n ∧ t.blk.fs = s.blk.fs ∧ t.blk.valid = s.blk.valid := by
  cases he with
  | processed _ h => exact ⟨h.n, h.fs, h.valid⟩
  | decimated hd _ | interpolated hd _ => grind
  | pulled _ hp _ _ _ | sourced _ hp _ _ _ => grind
  | pushed _ h | txPushed _ h | skipped _ h | returned _ _ _ h | agcSet _ _ h | nrSet _ h | iqSet _ h | cleared h =>
    subst h; exact ⟨rfl, rfl, rfl⟩

/-- AgcState is written by the `AGC` stage in an active mode, which keeps the profile, and by `CFG_AGC`. -/
theorem Effect.agcFrame (he : Effect s t i) (hi : ∀ mode fs, i ≠ .cfgAgc mode fs) :
    t.agc.p = s.agc.p ∧ (i ≠ .agc ∨ s.cfg.agcMode = 0 → t.agc = s.agc) := by
  have same (h : t.agc = s.agc) : t.agc.p = s.agc.p ∧ (i ≠ .agc ∨ s.cfg.agcMode = 0 → t.agc = s.agc) :=
    ⟨congrArg AgcState.p h, fun _ => h⟩
  cases he with
  | processed _ h =>
    rcases h.agc with ha | ⟨rfl, hmode, ha⟩
    · exact same ha
    · exact ⟨by rw [ha, agcLoop_p], fun hc => by simp [hmode] at hc⟩
  | decimated _ h | interpolated _ h => exact same h.agc
  | agcSet _ _ _ => exact absurd rfl (hi _ _)
  | pushed _ h | txPushed _ h | pulled _ _ _ _ h | sourced _ _ _ _ h | skipped _ h | returned _ _ _ h | nrSet _ h | iqSet _ h
    | cleared h => exact same (by subst h; rfl)

/-- The oscillator phase is written by a wrap of `FSHIFT`. -/
theorem Effect.ncoFrame (he : Effect s t i) : t.nco = s.nco ∨ (i = .fshift ∧ PhaseLegal t.nco) := by
  cases he with
  | processed _ h => exact h.nco
  | decimated _ h | interpolated _ h => exact .inl h.nco
  | pushed _ h | txPushed _ h | pulled _ _ _ _ h | sourced _ _ _ _ h | skipped _ h | returned _ _ _ h | agcSet _ _ h | nrSet _ h
    | iqSet _ h | cleared h => exact .inl (by subst h; rfl)

theorem Effect.diagFrame (he : Effect s t i) (hi : i ≠ .demod ∨ s.lat.demodMode ≠ 2#3) : t.diag = s.diag := by
  cases he with
  | processed _ h =>
    rcases h.loop with ⟨-, hd⟩ | ⟨rfl, hmode, -⟩
    · exact hd
    · simp [hmode] at hi
  | decimated _ h | interpolated _ h => exact h.diag
  | pushed _ h | txPushed _ h | pulled _ _ _ _ h | sourced _ _ _ _ h | skipped _ h | returned _ _ _ h | agcSet _ _ h | nrSet _ h
    | iqSet _ h | cleared h => subst h; rfl

/-- SamLoopState is written by the loop, and cleared by the re-entry reset of a receive pull (10_state.md R55). -/
theorem Effect.samFrame (he : Effect s t i) :
    t.sam = s.sam ∨ (i = .demod ∧ SamLoopRan s t) ∨
      (i ∈ [.pull, .tick, .rxPass] ∧ t.sam = SamState.initial ∧ s.inp.ports.demodMode = 2#3 ∧
        s.seq.lastDemod ≠ some 2#3) := by
  cases he with
  | processed _ h => exact h.loop.imp And.left .inl
  | decimated _ h | interpolated _ h => exact .inl h.sam
  | pulled _ hi _ _ h =>
    by_cases hc : s.inp.ports.demodMode = 2#3 ∧ s.seq.lastDemod ≠ some 2#3
    · exact .inr (.inr ⟨hi, by subst h; exact if_pos hc, hc⟩)
    · exact .inl (by subst h; exact if_neg hc)
  | pushed _ h | txPushed _ h | sourced _ _ _ _ h | skipped _ h | returned _ _ _ h | agcSet _ _ h | nrSet _ h | iqSet _ h
    | cleared h => exact .inl (by subst h; rfl)

/-- Settles O22, one frame at a time. -/
theorem blockStateFrame : Obligations.BlockStateFrame := by
  intro i s t h
  have he := exec_effect h
  refine ⟨he.blkFrame, he.agcFrame, fun hi => he.ncoFrame.resolve_right fun h => hi h.1, he.diagFrame, ?_⟩
  refine he.samFrame.imp id (.imp (fun ⟨hi, hmode, _⟩ => ⟨hi, hmode⟩) fun ⟨hi, hs⟩ => ⟨?_, hs⟩)
  simpa [or_comm, or_left_comm] using hi

/-! ### Ports, configuration, queues and the host port -/

/-- The fields no operation writes. -/
theorem Effect.constant (he : Effect s t i) :
    t.inp = s.inp ∧ t.par = s.par ∧ t.sched = s.sched ∧ t.host.cmd = s.host.cmd := by
  cases he with
  | processed _ h => exact ⟨h.inp, h.par, h.sched, congrArg HostPort.cmd h.host⟩
  | decimated _ h | interpolated _ h => exact ⟨h.inp, h.par, h.sched, congrArg HostPort.cmd h.host⟩
  | pushed _ h | txPushed _ h | pulled _ _ _ _ h | sourced _ _ _ _ h | skipped _ h | returned _ _ _ h | agcSet _ _ h | nrSet _ h
    | iqSet _ h | cleared h => subst h; exact ⟨rfl, rfl, rfl, rfl⟩

theorem Effect.cfgFrame (he : Effect s t i) :
    t.cfg = s.cfg ∨ (∃ mode fs, i = .cfgAgc mode fs) ∨ (∃ option, i = .cfgNr option) ∨ ∃ b a f, i = .setIqc b a f := by
  cases he with
  | processed _ h => exact .inl h.cfg
  | decimated _ h | interpolated _ h => exact .inl h.cfg
  | agcSet _ _ _ => exact .inr (.inl ⟨_, _, rfl⟩)
  | nrSet _ _ => exact .inr (.inr (.inl ⟨_, rfl⟩))
  | iqSet _ _ => exact .inr (.inr (.inr ⟨_, _, _, rfl⟩))
  | pushed _ h | txPushed _ h | pulled _ _ _ _ h | sourced _ _ _ _ h | skipped _ h | returned _ _ _ h | cleared h =>
    exact .inl (by subst h; rfl)

theorem Effect.latFrame (he : Effect s t i) :
    t.lat = s.lat ∨ (i ∈ [.pull, .txpull, .tick, .rxPass, .txPass] ∧ t.lat = s.inp.ports) := by
  cases he with
  | processed _ h => exact .inl h.lat
  | decimated _ h | interpolated _ h => exact .inl h.lat
  | pulled _ hi _ _ h | sourced _ hi _ _ h => exact .inr ⟨by grind, by subst h; rfl⟩
  | pushed _ h | txPushed _ h | skipped _ h | returned _ _ _ h | agcSet _ _ h | nrSet _ h | iqSet _ h | cleared h =>
    exact .inl (by subst h; rfl)

/-- Each queue is written by the operations 20_memory.md R70 lists for it. -/
def QueueFrame (i : Instr) (q r : Queues) : Prop :=
  (i ∉ [.pull, .rxPass, .tick] → (∀ m, i ≠ .bulkClear m) → r.capq = q.capq) ∧
    (i ≠ .push → (∀ m, i ≠ .bulkClear m) → r.playq = q.playq) ∧
    (i ∉ [.txpull, .txPass, .tick] → r.txsrc = q.txsrc) ∧ (i ≠ .txpush → r.txsink = q.txsink)

theorem QueueFrame.of_eq {q r : Queues} (h : r = q) : QueueFrame i q r := by
  subst h
  exact ⟨fun _ _ => rfl, fun _ _ => rfl, fun _ => rfl, fun _ => rfl⟩

theorem Effect.queueFrame (he : Effect s t i) : QueueFrame i s.queues t.queues := by
  cases he with
  | processed _ h => exact .of_eq h.queues
  | decimated _ h | interpolated _ h => exact .of_eq h.queues
  | pushed _ h => subst h; exact ⟨fun _ _ => rfl, fun hi => absurd rfl hi, fun _ => rfl, fun _ => rfl⟩
  | txPushed _ h => subst h; exact ⟨fun _ _ => rfl, fun _ _ => rfl, fun _ => rfl, fun hi => absurd rfl hi⟩
  | pulled _ hi _ _ h =>
    subst h; exact ⟨fun hn => absurd hi (by grind), fun _ _ => rfl, fun _ => rfl, fun _ => rfl⟩
  | sourced _ hi _ _ h =>
    subst h; exact ⟨fun _ _ => rfl, fun _ _ => rfl, fun hn => absurd hi (by grind), fun _ => rfl⟩
  | cleared h =>
    subst h; exact ⟨fun _ hi => absurd rfl (hi _), fun _ hi => absurd rfl (hi _), fun _ => rfl, fun _ => rfl⟩
  | skipped _ h | returned _ _ _ h | agcSet _ _ h | nrSet _ h | iqSet _ h => exact .of_eq (by subst h; rfl)

theorem Effect.resultFrame (he : Effect s t i) : t.host.result = s.host.result ∨ Returns i t.host.result := by
  cases he with
  | processed _ h => exact .inl (congrArg HostPort.result h.host)
  | decimated _ h | interpolated _ h => exact .inl (congrArg HostPort.result h.host)
  | returned _ hr _ h => exact .inr (by subst h; exact hr)
  | pushed _ h | txPushed _ h | pulled _ _ _ _ h | sourced _ _ _ _ h | skipped _ h | agcSet _ _ h | nrSet _ h | iqSet _ h
    | cleared h => exact .inl (by subst h; rfl)

theorem Effect.awaitedFrame (he : Effect s t i) (hi : i ∉ [.tick, .rxPass, .txPass]) : t.host.awaited = s.host.awaited := by
  cases he with
  | processed _ h => exact congrArg HostPort.awaited h.host
  | decimated _ h | interpolated _ h => exact congrArg HostPort.awaited h.host
  | pulled _ hp ha _ h | sourced _ hp ha _ h => subst h; exact ha (by grind)
  | pushed _ h | txPushed _ h | skipped _ h | returned _ _ _ h | agcSet _ _ h | nrSet _ h | iqSet _ h | cleared h =>
    subst h; rfl

/-- Settles O23, one frame at a time; the results come case by case from `Returns`. -/
theorem portConfigQueueFrame : Obligations.PortConfigQueueFrame := by
  intro i s t h
  have he := exec_effect h
  obtain ⟨hinp, hpar, hsched, hcmd⟩ := he.constant
  obtain ⟨hcap, hplay, hsrc, hsink⟩ := he.queueFrame
  refine ⟨hinp, hpar, hsched, hcmd, he.cfgFrame, he.latFrame, hcap, hplay, hsrc, hsink, ?_, he.awaitedFrame⟩
  refine he.resultFrame.imp id fun hr => ?_
  generalize t.host.result = r at hr ⊢
  cases hr with
  | rxPass | txPass => exact .inl ⟨by decide, rfl⟩
  | agcAction b => exact .inr (.inl ⟨rfl, b, rfl⟩)
  | samOffset x => exact .inr (.inr (.inl ⟨rfl, x, rfl⟩))
  | noPair band => exact .inr (.inr (.inr ⟨band, rfl, .inl rfl⟩))
  | pair band amp phase => exact .inr (.inr (.inr ⟨band, rfl, .inr ⟨amp, phase, rfl⟩⟩))

/-! ### Power-on reset -/

theorem cfgInitial_unwritten (bands b : Nat) : ((Cfg.initial bands).iqPair b).written = false :=
  congrArg IqEntry.written (bankRead_replicate (d := IqEntry.unwritten) bands b)

/-- Settles O14: both states are `State.powerOn` of their own parameters and ports. -/
theorem powerOnResetValues : Obligations.PowerOnResetValues := by
  refine ⟨⟨rfl, rfl, rfl, rfl, rfl, rfl, rfl, rfl, rfl, rfl, rfl, rfl, cfgInitial_unwritten _, rfl, rfl⟩, ?_⟩
  intro s rest hw hs
  refine ⟨State.powerOn s.par s.inp s.ext s.host.cmd rest, ?_,
    ⟨rfl, rfl, rfl, rfl, rfl, rfl, rfl, rfl, rfl, rfl, rfl, rfl, cfgInitial_unwritten _, rfl, rfl⟩, rfl, rfl⟩
  rw [step, if_pos hw, hs]
  rfl

end Sys2Proof.Machine

/-! PROOFS. 10_state.md, the invariant: its part about the data, which every operation keeps wherever it runs, and its part about the
sequencer, which the stage order keeps (R22, R25, R44, R45; 20_memory.md R77; 40_orchestrator_framing.md R142, R146; 44_sam_demodulator.md
R240), and the range of the two phases (R53; 44_sam_demodulator.md R248). -/

namespace Sys2Proof.Machine

variable {i : Instr} {p : Pass} {k : Nat} {s t : State}

/-! ### A property every operation keeps is kept by every step -/

/-- What holds of a state and does not depend on the sequencer, the host port or the schedule. -/
structure Portable (P : State → Prop) : Prop where
  setSeq : ∀ s v, P s → P (s.setSeq v)
  setHost : ∀ s v, P s → P (s.setHost v)
  setSched : ∀ s v, P s → P (s.setSched v)

theorem Portable.passEnd {P : State → Prop} (hP : Portable P) (h : P s) : P s.passEnd := by
  unfold State.passEnd
  split
  · exact hP.setHost _ _ h
  · exact h

theorem Portable.coreStep {P : State → Prop} (hP : Portable P) (hexec : ∀ i s t, P s → Effect s t i → P t) (hs : P s)
    (h : coreStep s = .next t) : P t := by
  unfold Machine.coreStep at h
  split at h
  · rcases hostStep_next h with ⟨i, n, -, h⟩ | ⟨-, -, rfl⟩ | ⟨-, rfl⟩
    · have hc : P (s.consume n) := hP.setHost _ _ hs
      rcases issue_next h with ⟨-, h⟩ | ⟨p, k, u, -, he, rfl⟩
      · exact hexec _ _ _ hc (exec_effect h)
      · exact hP.setSeq _ _ (hexec _ _ _ (hP.setSeq _ _ hc) (exec_effect he))
    · exact hP.setHost _ _ hs
    · exact hs
  · obtain ⟨i, u, -, he, rfl⟩ := seqStep_next h
    exact hP.passEnd (hexec _ _ _ hs (exec_effect he))

/-! ### Phases -/

theorem phaseLegal_zero : PhaseLegal F32.zero := by unfold PhaseLegal; decide

theorem samLoopRan_phase (h : SamLoopRan s t) (hp : PhaseLegal s.sam.phase) : PhaseLegal t.sam.phase := by
  obtain ⟨-, m, x, hl, hm⟩ := h
  rw [hm, samCarrier_phase]
  obtain ⟨-, -, ⟨-, rfl⟩ | ⟨hphase, -⟩⟩ := samLoop_some hl
  · exact hp
  · exact hphase

theorem Effect.ncoLegal (he : Effect s t i) (hs : PhaseLegal s.nco) : PhaseLegal t.nco :=
  he.ncoFrame.elim (fun h => h ▸ hs) And.right

theorem Effect.phases (he : Effect s t i) (hs : s.PhasesLegal) : t.PhasesLegal := by
  refine ⟨?_, he.ncoLegal hs.2⟩
  rcases he.samFrame with h | ⟨-, h⟩ | ⟨-, h, -⟩
  · rw [h]; exact hs.1
  · exact samLoopRan_phase h hs.1
  · rw [h]; exact phaseLegal_zero

theorem agentMove_phases {m : Move} (hs : s.PhasesLegal) (h : agentMove m s = .next t) : t.PhasesLegal := by
  cases m with
  | powerOn =>
    obtain rfl := Host.Outcome.next.inj h
    exact ⟨phaseLegal_zero, phaseLegal_zero⟩
  | capture ps | txFeed ps =>
    rw [agentMove] at h
    obtain ⟨-, rfl⟩ := appendWithin_next h
    exact hs
  | run | playDrain n | sinkDrain n | drive v | issue ws =>
    obtain rfl := Host.Outcome.next.inj h
    exact hs

theorem phasesLegal_portable : Portable State.PhasesLegal := ⟨fun _ _ h => h, fun _ _ h => h, fun _ _ h => h⟩

/-- Settles O17: a phase is written by a wrap that ended, by a reset to zero, or not at all. -/
theorem stepKeepsPhases : Obligations.StepKeepsPhases := by
  intro s t hs h
  obtain ⟨-, ⟨m, rest, -, -, hm⟩ | ⟨rest, -, hc⟩⟩ := step_next h
  · exact agentMove_phases (s := s.setSched rest) hs hm
  · exact phasesLegal_portable.coreStep (s := s.setSched rest) (fun _ _ _ hs he => he.phases hs) hs hc

/-! ### The data part of the invariant -/

/-- The accumulator is not outside its bounds (44_sam_demodulator.md R240). -/
def OmegaLegal (par : Par) (m : SamState) : Prop :=
  m.omega.lt par.sam.omegaLim.neg = false ∧ m.omega.gt par.sam.omegaLim = false

/-- The part of `State.Inv` that holds wherever the sequencer stands. -/
structure State.Sound (s : State) : Prop where
  parameters : s.par.wf = true
  blockLength : s.blk.x.length = s.blk.n
  captureCap : s.queues.capq.length ≤ s.par.queueCap
  txsrcCap : s.queues.txsrc.length ≤ s.par.queueCap
  iqBands : s.cfg.iq.length = s.par.numBands
  agcModeLegal : s.cfg.agcMode ≤ s.par.agcModeMax
  agcLegal : s.cfg.agcMode ≠ 0 → s.agc.Legal s.cfg.agcFs
  omegaBound : OmegaLegal s.par s.sam

theorem Par.wf_omegaLim {par : Par} (h : par.wf = true) : par.sam.omegaLim.isNonneg = true := by
  obtain ⟨-, -, -, -, -, -, hsam⟩ := (Par.wf_iff par).mp h
  obtain ⟨⟨-, -, hf, -, -⟩, h0, -⟩ := (SamParams.wf_iff par.sam).mp hsam
  exact (F32.isNonneg_iff _).mpr ⟨hf, h0⟩

theorem omegaLegal_initial {par : Par} (h : par.wf = true) : OmegaLegal par SamState.initial := by
  obtain ⟨hf, h0⟩ := (F32.isNonneg_iff _).mp (Par.wf_omegaLim h)
  have hv := (F32.le_iff_val zero_finite hf).mp h0
  rw [val_zero] at hv
  have hneg : par.sam.omegaLim.neg.le F32.zero = true :=
    (F32.le_iff_val (by rw [F32.isFinite_neg]; exact hf) zero_finite).mpr (by rw [F32.val_neg, val_zero]; omega)
  exact ⟨F32.not_lt_of_le hneg, F32.not_lt_of_le h0⟩

theorem samLoopRan_omega (h : SamLoopRan s t) (hw : s.par.wf = true) (hs : OmegaLegal s.par s.sam) :
    OmegaLegal s.par t.sam := by
  obtain ⟨-, m, x, hl, hm⟩ := h
  unfold OmegaLegal
  rw [hm, samCarrier_omega]
  obtain ⟨-, -, ⟨-, rfl⟩ | ⟨-, w, hw'⟩⟩ := samLoop_some hl
  · exact hs
  · rw [hw']
    exact clampOmega_bounds w (Par.wf_omegaLim hw)

theorem Effect.omega (he : Effect s t i) (hs : s.Sound) : OmegaLegal t.par t.sam := by
  obtain ⟨-, hpar, -, -⟩ := he.constant
  rw [hpar]
  rcases he.samFrame with h | ⟨-, h⟩ | ⟨-, h, -⟩
  · rw [h]; exact hs.omegaBound
  · exact samLoopRan_omega h hs.parameters hs.omegaBound
  · rw [h]; exact omegaLegal_initial hs.parameters

theorem Effect.agcLegal (he : Effect s t i) (hs : s.Sound) : t.cfg.agcMode ≠ 0 → t.agc.Legal t.cfg.agcFs := by
  intro hmode
  cases he with
  | processed _ h =>
    rw [h.cfg] at hmode ⊢
    rcases h.agc with ha | ⟨-, -, ha⟩ <;> rw [ha]
    · exact hs.agcLegal hmode
    · exact agcLoop_legal _ _ (hs.agcLegal hmode)
  | decimated _ h | interpolated _ h =>
    rw [h.cfg] at hmode ⊢
    rw [h.agc]; exact hs.agcLegal hmode
  | agcSet _ hp h =>
    subst h
    exact agcReset_legal hmode (hp.resolve_left hmode)
  | pushed _ h | txPushed _ h | pulled _ _ _ _ h | sourced _ _ _ _ h | skipped _ h | returned _ _ _ h | nrSet _ h | iqSet _ h
    | cleared h =>
    subst h; exact hs.agcLegal hmode

theorem Effect.blockLength (he : Effect s t i) (hs : s.blk.x.length = s.blk.n) : t.blk.x.length = t.blk.n := by
  cases he with
  | processed _ h => exact h.length hs
  | decimated _ h | interpolated _ h => exact h.length hs
  | pulled _ _ _ hn h | sourced _ _ _ hn h => subst h; exact (freshBlock_length _ _).trans (List.length_take_of_le hn)
  | pushed _ h | txPushed _ h | skipped _ h | returned _ _ _ h | agcSet _ _ h | nrSet _ h | iqSet _ h | cleared h =>
    subst h; exact hs

/-- No operation of the block adds to a source queue. -/
theorem Effect.sources_le (he : Effect s t i) :
    t.queues.capq.length ≤ s.queues.capq.length ∧ t.queues.txsrc.length ≤ s.queues.txsrc.length := by
  cases he with
  | processed _ h => rw [h.queues]; exact ⟨le_rfl, le_rfl⟩
  | decimated _ h | interpolated _ h => rw [h.queues]; exact ⟨le_rfl, le_rfl⟩
  | pulled _ _ _ _ h | sourced _ _ _ _ h => subst h; simp [rxPulled, txPulled]
  | cleared h => subst h; simp only [State.setQueues_queues]; split <;> simp
  | pushed _ h | txPushed _ h | skipped _ h | returned _ _ _ h | agcSet _ _ h | nrSet _ h | iqSet _ h =>
    subst h; exact ⟨le_rfl, le_rfl⟩

theorem Effect.cfgLegal (he : Effect s t i) (hs : s.Sound) :
    t.cfg.iq.length = s.par.numBands ∧ t.cfg.agcMode ≤ s.par.agcModeMax := by
  cases he with
  | processed _ h => rw [h.cfg]; exact ⟨hs.iqBands, hs.agcModeLegal⟩
  | decimated _ h | interpolated _ h => rw [h.cfg]; exact ⟨hs.iqBands, hs.agcModeLegal⟩
  | agcSet hmode _ h => subst h; exact ⟨hs.iqBands, hmode⟩
  | iqSet hb h => subst h; exact ⟨(bankWrite_length _ _ (by rw [hs.iqBands]; exact hb)).trans hs.iqBands, hs.agcModeLegal⟩
  | pushed _ h | txPushed _ h | pulled _ _ _ _ h | sourced _ _ _ _ h | skipped _ h | returned _ _ _ h | nrSet _ h | cleared h =>
    subst h; exact ⟨hs.iqBands, hs.agcModeLegal⟩

theorem Effect.sound (he : Effect s t i) (hs : s.Sound) : t.Sound := by
  obtain ⟨-, hpar, -, -⟩ := he.constant
  obtain ⟨hcap, hsrc⟩ := he.sources_le
  obtain ⟨hiq, hmode⟩ := he.cfgLegal hs
  exact
    { parameters := by rw [hpar]; exact hs.parameters
      blockLength := he.blockLength hs.blockLength
      captureCap := by rw [hpar]; exact hcap.trans hs.captureCap
      txsrcCap := by rw [hpar]; exact hsrc.trans hs.txsrcCap
      iqBands := by rw [hpar]; exact hiq
      agcModeLegal := by rw [hpar]; exact hmode
      agcLegal := he.agcLegal hs
      omegaBound := he.omega hs }

theorem sound_portable : Portable State.Sound where
  setSeq := fun _ _ ⟨h1, h2, h3, h4, h5, h6, h7, h8⟩ => ⟨h1, h2, h3, h4, h5, h6, h7, h8⟩
  setHost := fun _ _ ⟨h1, h2, h3, h4, h5, h6, h7, h8⟩ => ⟨h1, h2, h3, h4, h5, h6, h7, h8⟩
  setSched := fun _ _ ⟨h1, h2, h3, h4, h5, h6, h7, h8⟩ => ⟨h1, h2, h3, h4, h5, h6, h7, h8⟩

theorem sound_powerOn {par : Par} (hw : par.wf = true) (inp : InPorts) (ext : ExtPort) (cmd : List Word) (sched : List Move) :
    (State.powerOn par inp ext cmd sched).Sound where
  parameters := hw
  blockLength := rfl
  captureCap := Nat.zero_le _
  txsrcCap := Nat.zero_le _
  iqBands := List.length_replicate
  agcModeLegal := Nat.zero_le _
  agcLegal := fun h => absurd rfl h
  omegaBound := omegaLegal_initial hw

theorem agentMove_sound {m : Move} (hs : s.Sound) (h : agentMove m s = .next t) : t.Sound := by
  cases m with
  | powerOn =>
    obtain rfl := Host.Outcome.next.inj h
    exact sound_powerOn hs.parameters _ _ _ _
  | capture ps =>
    rw [agentMove] at h
    obtain ⟨hcap, rfl⟩ := appendWithin_next h
    exact { hs with captureCap := List.length_append.trans_le hcap }
  | txFeed ps =>
    rw [agentMove] at h
    obtain ⟨hcap, rfl⟩ := appendWithin_next h
    exact { hs with txsrcCap := List.length_append.trans_le hcap }
  | run | playDrain n | sinkDrain n | drive v | issue ws =>
    obtain rfl := Host.Outcome.next.inj h
    exact { hs with }

/-! ### The sequencer part of the invariant -/

/-- The part of `State.Inv` about the running pass. -/
structure State.Sequenced (s : State) : Prop where
  pointer : s.seq.Legal
  valid : s.seq.pass ≠ .idle → s.blk.valid = true
  rate : s.RateLegal
  awaited : s.host.awaited = true → s.seq.pass ≠ .idle

theorem State.inv_iff (hw : s.par.wf = true) : s.Inv ↔ s.Sound ∧ s.Sequenced :=
  ⟨fun h => ⟨⟨hw, h.blockLength, h.captureCap, h.txsrcCap, h.iqBands, h.agcModeLegal, h.agcLegal, h.omegaBound⟩,
      h.pointer, h.valid, h.rate, h.awaited⟩,
    fun ⟨h, k⟩ => ⟨k.pointer, k.valid, h.blockLength, k.rate, h.captureCap, h.txsrcCap, h.iqBands, h.agcModeLegal, h.agcLegal,
      h.omegaBound, k.awaited⟩⟩

theorem sequenced_of_idle (hp : s.seq.pass = .idle) (hsp : s.seq.sp = 0) (ha : s.host.awaited = false) : s.Sequenced where
  pointer := by rw [Seq.Legal, hp]; exact hsp
  valid := fun h => absurd hp h
  rate := by rw [State.RateLegal, hp]; trivial
  awaited := fun h => by rw [ha] at h; cases h

theorem State.Sequenced.at_idle (h : s.Sequenced) (hp : s.seq.pass = .idle) : s.seq.sp = 0 ∧ s.host.awaited = false := by
  constructor
  · have hl := h.pointer
    rw [Seq.Legal, hp] at hl
    exact hl
  · by_contra ha
    exact h.awaited (by simpa using ha) hp

/-- The factors the block is divided by before stage `k` of a pass (40_orchestrator_framing.md R142, R146, R152, R156). -/
def factorsAt (par : Par) : Pass → Nat → List Nat
  | .idle, _ => []
  | .rx, k => if 8 ≤ k ∧ k ≤ 16 then par.dfList else []
  | .tx, k => if 2 ≤ k ∧ k ≤ 5 then par.txDfList else []

theorem atRateBelow_nil : s.AtRateBelow [] ↔ s.AtNativeRate := by
  simp [State.AtRateBelow, State.AtNativeRate, factorProduct]

theorem rateLegal_iff : s.RateLegal ↔ (s.seq.pass ≠ .idle → s.AtRateBelow (factorsAt s.par s.seq.pass s.seq.sp)) := by
  unfold State.RateLegal
  cases hp : s.seq.pass with
  | idle => simp
  | rx | tx =>
    simp only [factorsAt, ne_eq, reduceCtorEq, not_false_eq_true, forall_const]
    split
    · rfl
    · exact atRateBelow_nil.symm

/-! ### The stages between the pull and the push -/

/-- The index of the last stage of a pass. -/
def lastIndex : Pass → Nat
  | .idle => 0
  | .rx => 18
  | .tx => 6

theorem seqLegal_iff {q : Seq} (hp : q.pass ≠ .idle) : q.Legal ↔ 1 ≤ q.sp ∧ q.sp ≤ lastIndex q.pass := by
  obtain ⟨sp, pass, d⟩ := q
  cases pass with
  | idle => exact absurd rfl hp
  | rx | tx => rfl

theorem stageAt_lt (h : stageAt p k = some i) : k ≤ lastIndex p := by
  cases p with
  | idle => cases h
  | rx | tx =>
    obtain ⟨hk, -⟩ := List.getElem?_eq_some_iff.mp h
    exact Nat.le_of_lt_succ hk

/-- The stage a pass has at an index stands at that index. -/
theorem stagePosition_of_stageAt (h : stageAt p k = some i) : stagePosition i = some (p, k) := by
  have hk := stageAt_lt h
  cases p with
  | idle => cases h
  | rx | tx =>
    simp only [lastIndex] at hk
    interval_cases k <;> (cases h; rfl)

/-- A stage of `sampleStages` stands between two others, with the block at the same factors before and after. -/
theorem sampleStage_between (hi : i ∈ sampleStages) (h : stagePosition i = some (p, k)) :
    k + 1 ≤ lastIndex p ∧ ∀ par, factorsAt par p (k + 1) = factorsAt par p k := by
  fin_cases hi <;> (cases h; exact ⟨by decide, fun _ => rfl⟩)

theorem decimated_atRateBelow {ds : List Nat}
    (h : Rerated (s.blk.n / factorProduct ds) (s.blk.fs / factorProduct ds) s t) (hs : s.AtRateBelow [])
    (hn : dividesThrough ds s.par.nNative = true) (hf : dividesThrough ds s.par.fsNative = true) : t.AtRateBelow ds := by
  obtain ⟨hsn, hsf⟩ := atRateBelow_nil.mp hs
  unfold State.AtRateBelow
  rw [h.n, h.fs, h.par, hsn, hsf]
  exact ⟨dividesThrough_mul hn, dividesThrough_mul hf⟩

theorem interpolated_atRateBelow {ds : List Nat}
    (h : Rerated (s.blk.n * factorProduct ds) (s.blk.fs * factorProduct ds) s t) (hs : s.AtRateBelow ds) :
    t.AtRateBelow [] := by
  obtain ⟨hsn, hsf⟩ := hs
  refine atRateBelow_nil.mpr ⟨?_, ?_⟩
  · rw [h.n, h.par, hsn]
  · rw [h.fs, h.par, hsf]

/-- A stage between the pull and the push moves the stage pointer by one and leaves the block at the factors of the next stage
(40_orchestrator_framing.md R142, R146, R152, R156). -/
theorem Effect.between (he : Effect s t i) (hat : stagePosition i = some (p, k)) (hk : k ≠ 0) (hlast : k ≠ lastIndex p) :
    Staged s t ∧ (s.par.wf = true → s.AtRateBelow (factorsAt s.par p k) → t.AtRateBelow (factorsAt s.par p (k + 1))) := by
  cases he with
  | processed hi h =>
    refine ⟨h.toStaged, fun _ hr => ?_⟩
    unfold State.AtRateBelow at hr ⊢
    rw [(sampleStage_between hi hat).2, h.n, h.fs, h.par]
    exact hr
  | decimated hi h =>
    refine ⟨h.toStaged, fun hw hr => ?_⟩
    obtain ⟨-, -, hrn, hrf, htn, htf, -⟩ := (Par.wf_iff s.par).mp hw
    simp only [List.mem_cons, Prod.mk.injEq, List.not_mem_nil, or_false] at hi
    rcases hi with ⟨rfl, rfl⟩ | ⟨rfl, rfl⟩ <;> cases hat
    · exact decimated_atRateBelow h hr hrn hrf
    · exact decimated_atRateBelow h hr htn htf
  | interpolated hi h =>
    refine ⟨h.toStaged, fun _ hr => ?_⟩
    simp only [List.mem_cons, Prod.mk.injEq, List.not_mem_nil, or_false] at hi
    rcases hi with ⟨rfl, rfl⟩ | ⟨rfl, rfl⟩ <;> cases hat <;> exact interpolated_atRateBelow h hr
  | pushed | txPushed => cases hat; exact absurd rfl hlast
  | pulled _ hi | sourced _ hi =>
    simp only [List.mem_cons, List.not_mem_nil, or_false] at hi
    rcases hi with rfl | rfl | rfl <;> cases hat
    exact absurd rfl hk
  | skipped hi =>
    rcases hi with hi | rfl | rfl
    · rw [hi] at hat; cases hat
    all_goals cases hat; exact absurd rfl hk
  | returned _ hr => cases hr <;> cases hat
  | agcSet | nrSet | iqSet | cleared => cases hat

/-- The last stage of a pass ends it and leaves the host port alone. -/
theorem exec_last (hat : stageAt p (lastIndex p) = some i) (h : exec i s = .next t) :
    t.seq = { s.seq with pass := .idle, sp := 0 } ∧ t.host = s.host := by
  cases p with
  | idle => cases hat
  | rx | tx =>
    cases hat
    obtain rfl := Host.Outcome.next.inj h
    exact ⟨rfl, rfl⟩

theorem passEnd_of_busy (h : s.seq.pass ≠ .idle) : s.passEnd = s := if_neg fun hc => h hc.1

/-- Once the pass is over, no result is awaited any more. -/
theorem passEnd_awaited (h : s.seq.pass = .idle) : s.passEnd.host.awaited = false := by
  rw [State.passEnd_host]
  split
  · rfl
  · rename_i hc
    simpa [h] using hc

theorem seqStep_sequenced (hw : s.par.wf = true) (hs : s.Sequenced) (hp : s.seq.pass ≠ .idle) (h : seqStep s = .next t) :
    t.Sequenced := by
  obtain ⟨i, u, hat, he, rfl⟩ := seqStep_next h
  obtain ⟨h1, hle⟩ := (seqLegal_iff hp).mp hs.pointer
  by_cases hlast : s.seq.sp = lastIndex s.seq.pass
  · rw [hlast] at hat
    obtain ⟨hseq, -⟩ := exec_last hat he
    have hidle : u.seq.pass = .idle := by rw [hseq]
    exact sequenced_of_idle (by simpa using hidle) (by simp [hseq]) (passEnd_awaited hidle)
  · obtain ⟨hu, hrate⟩ := (exec_effect he).between (stagePosition_of_stageAt hat) (by omega) hlast
    have hpass : u.seq.pass = s.seq.pass := by rw [hu.seq]
    rw [passEnd_of_busy (by rwa [hpass])]
    exact
      { pointer := (seqLegal_iff (by rwa [hpass])).mpr (by rw [hu.seq]; dsimp only; omega)
        valid := fun _ => by rw [hu.valid]; exact hs.valid hp
        rate := rateLegal_iff.mpr fun _ => by
          rw [hu.par, hu.seq]
          exact hrate hw (rateLegal_iff.mp hs.rate hp)
        awaited := fun _ => by rwa [hpass] }

theorem rxPulled_sequenced (awaited : Bool) (s : State) : (rxPulled awaited s).Sequenced where
  pointer := by show 1 ≤ 1 ∧ 1 ≤ 18; decide
  valid := fun _ => rfl
  rate := ⟨rfl, rfl⟩
  awaited := fun _ => nofun

theorem txPulled_sequenced (awaited : Bool) (s : State) : (txPulled awaited s).Sequenced where
  pointer := by show 1 ≤ 1 ∧ 1 ≤ 6; decide
  valid := fun _ => rfl
  rate := ⟨rfl, rfl⟩
  awaited := fun _ => nofun

/-- A host operation begins a pass by its pull, or leaves the sequencer alone. -/
theorem Effect.sequenced (he : Effect s t i) (hi : stagePosition i = none) (hs : s.Sequenced) : t.Sequenced := by
  cases he with
  | processed hm _ => exact absurd hi ((by decide : ∀ j ∈ sampleStages, stagePosition j ≠ none) i hm)
  | decimated hm _ | interpolated hm _ =>
    simp only [List.mem_cons, Prod.mk.injEq, List.not_mem_nil, or_false] at hm
    rcases hm with ⟨rfl, -⟩ | ⟨rfl, -⟩ <;> cases hi
  | pushed | txPushed => cases hi
  | pulled awaited _ _ _ h => subst h; exact rxPulled_sequenced awaited s
  | sourced awaited _ _ _ h => subst h; exact txPulled_sequenced awaited s
  | skipped _ h | returned _ _ _ h | agcSet _ _ h | nrSet _ h | iqSet _ h | cleared h =>
    subst h; exact ⟨hs.pointer, hs.valid, hs.rate, hs.awaited⟩

theorem hostStep_sequenced (hs : s.Sequenced) (hp : s.seq.pass = .idle) (h : hostStep s = .next t) : t.Sequenced := by
  have consumed (n : Nat) : (s.consume n).Sequenced := ⟨hs.pointer, hs.valid, hs.rate, hs.awaited⟩
  rcases hostStep_next h with ⟨i, n, -, h⟩ | ⟨-, -, rfl⟩ | ⟨-, rfl⟩
  · rcases issue_next h with ⟨hi, h⟩ | ⟨p, k, u, hi, he, rfl⟩
    · exact (exec_effect h).sequenced hi (consumed n)
    · have hne : i ∉ [.tick, .rxPass, .txPass] := by
        intro hm
        simp only [List.mem_cons, List.not_mem_nil, or_false] at hm
        rcases hm with rfl | rfl | rfl <;> cases hi
      exact sequenced_of_idle rfl rfl (((exec_effect he).awaitedFrame hne).trans (hs.at_idle hp).2)
  · exact consumed 1
  · exact hs

theorem coreStep_sequenced (hw : s.par.wf = true) (hs : s.Sequenced) (h : coreStep s = .next t) : t.Sequenced := by
  unfold coreStep at h
  split at h
  · exact hostStep_sequenced hs ‹_› h
  · exact seqStep_sequenced hw hs ‹_› h

theorem agentMove_sequenced {m : Move} (hs : s.Sequenced) (h : agentMove m s = .next t) : t.Sequenced := by
  cases m with
  | powerOn =>
    obtain rfl := Host.Outcome.next.inj h
    exact sequenced_of_idle rfl rfl rfl
  | capture ps | txFeed ps =>
    rw [agentMove] at h
    obtain ⟨-, rfl⟩ := appendWithin_next h
    exact ⟨hs.pointer, hs.valid, hs.rate, hs.awaited⟩
  | run | playDrain n | sinkDrain n | drive v | issue ws =>
    obtain rfl := Host.Outcome.next.inj h
    exact ⟨hs.pointer, hs.valid, hs.rate, hs.awaited⟩

/-- Settles O16: every operation keeps the data part, and the stage order keeps the sequencer part. -/
theorem stepKeepsInv : Obligations.StepKeepsInv := by
  intro s t hs h
  obtain ⟨hw, hstep⟩ := step_next h
  obtain ⟨hsound, hseq⟩ := (State.inv_iff hw).mp hs
  refine (State.inv_iff (by rw [step_par h]; exact hw)).mpr ?_
  have hsound' (rest : List Move) : (s.setSched rest).Sound := sound_portable.setSched s rest hsound
  have hseq' (rest : List Move) : (s.setSched rest).Sequenced := ⟨hseq.pointer, hseq.valid, hseq.rate, hseq.awaited⟩
  rcases hstep with ⟨m, rest, -, -, hm⟩ | ⟨rest, -, hc⟩
  · exact ⟨agentMove_sound (hsound' rest) hm, agentMove_sequenced (hseq' rest) hm⟩
  · exact ⟨sound_portable.coreStep (fun _ _ _ hs he => he.sound hs) (hsound' rest) hc,
      coreStep_sequenced (s := s.setSched rest) hw (hseq' rest) hc⟩

/-- Settles O15: the record of the reset state is well formed, so that a state just powered on is legal. -/
theorem resetMeetsInv : Obligations.ResetMeetsInv := by
  have hw : Par.initial.wf = true := by decide
  refine ⟨(State.inv_iff hw).mpr ⟨sound_powerOn hw _ _ _ _, sequenced_of_idle rfl rfl rfl⟩, ?_, rfl⟩
  exact ⟨phaseLegal_zero, phaseLegal_zero⟩

end Sys2Proof.Machine

/-! PROOFS. 40_orchestrator_framing.md, a whole receive pass: when a wrap of the fine-tune oscillator ends, which stages run, what holds
between two stages, and the pass from the command word to the push (R130, R132, R146; 46_host_operations.md R281, R290;
42_frequency_translation.md R186; 70_reset_and_hazards.md R332, R347). -/

namespace Sys2Proof.Machine

variable {i : Instr} {k : Nat} {s t : State} {awaited : Bool}

/-! ### Wraps that end -/

/-- Two turns: the largest argument a phase in range and a step of at most one turn can give. -/
def twoTurns : F32 := F32.ofBits 0x41490FDB#32

theorem wrap2pi_nan {x : F32} (h : x.isNaN = true) : wrap2pi x = some x := by
  cases x with
  | nan s m => exact wrap2pi_inside (by simp [F32.ge, F32.le, F32.rank]) (by simp [F32.lt, F32.rank])
  | fin s m => cases h
  | inf s => cases h

theorem nan_add (s : Bool) (m : Fin 8388607) (d : F32) : ((F32.nan s m).add d).isNaN = true := by
  cases d <;> rfl

/-- A value of magnitude at most one turn. -/
theorem abs_le_twoPi {d : F32} (h : d.abs.le F32.twoPiF = true) :
    d.isFinite = true ∧ -F32.twoPiF.val ≤ d.val ∧ d.val ≤ F32.twoPiF.val := by
  cases d with
  | nan s m => cases (F32.isNaN_of_le h).1
  | inf s => cases s <;> exact absurd h (by decide)
  | fin s m =>
    have hv := (F32.le_iff_val (a := .fin false m) rfl twoPi_finite).mp h
    refine ⟨rfl, ?_⟩
    cases s <;> simp only [F32.val, F32.signed, Bool.false_eq_true, if_false, if_true] at hv ⊢ <;> omega

/-- From a phase in range a step of at most one turn wraps (42_frequency_translation.md R186). -/
theorem wrap2pi_turn {theta d : F32} (ht : PhaseLegal theta) (hd : d.abs.le F32.twoPiF = true) :
    ∃ y, wrap2pi (theta.add d) = some y := by
  cases theta with
  | nan s m => exact ⟨_, wrap2pi_nan (nan_add s m d)⟩
  | inf s =>
    cases s
    · exact absurd ht.2 (by decide)
    · exact absurd ht.1 (by decide)
  | fin s m =>
    have hx : (F32.fin s m).isFinite = true := rfl
    generalize F32.fin s m = x at hx ht
    obtain ⟨hdf, hd1, hd2⟩ := abs_le_twoPi hd
    have hx0 : 0 ≤ x.val := by
      by_contra hc
      have hlt := (F32.lt_iff_val hx zero_finite).mpr (by rw [val_zero]; omega)
      rw [ht.1] at hlt; cases hlt
    have hx1 : x.val ≤ F32.twoPiF.val := by
      by_contra hc
      have hlt := (F32.lt_iff_val twoPi_finite hx).mpr (by omega)
      rw [show F32.twoPiF.lt x = x.gt F32.twoPiF from rfl, ht.2] at hlt; cases hlt
    have h2f : twoTurns.isFinite = true := by decide
    have h2v : twoTurns.val = 2 * F32.twoPiF.val := by decide
    have hnf : F32.twoPiF.neg.isFinite = true := by decide
    have hnv : F32.twoPiF.neg.val = -F32.twoPiF.val := F32.val_neg _
    have hlo : F32.twoPiF.neg.le (x.add d) = true := F32.le_add hx hdf hnf (by omega)
    have hhi : (x.add d).le twoTurns = true := F32.add_le hx hdf h2f (by omega)
    have hf := F32.isFinite_of_between hnf h2f hlo hhi
    have hlo' := (F32.le_iff_val hnf hf).mp hlo
    have hhi' := (F32.le_iff_val hf h2f).mp hhi
    obtain ⟨y, hy, -⟩ := wrap2pi_ends hf (by omega) (by omega)
    exact ⟨y, hy⟩

/-- The loop of `FSHIFT` ends from a phase in range with a step of at most one turn. -/
theorem fshiftLoop_ends (par : Par) {theta d : F32} (zs : List Sample) (ht : PhaseLegal theta)
    (hd : d.abs.le F32.twoPiF = true) : fshiftLoop par d theta zs ≠ none := by
  induction zs generalizing theta with
  | nil => simp [fshiftLoop]
  | cons z zs ih =>
    obtain ⟨y, hy⟩ := wrap2pi_turn ht hd
    obtain ⟨r, hr⟩ := Option.ne_none_iff_exists'.mp (ih (wrap2pi_some hy))
    simp [fshiftLoop, hy, hr]

/-- The conversion of a rate above zero is above zero. -/
theorem ofNat_pos {n : Nat} (hn : 0 < n) : (∃ m, F32.ofNat n = .fin false m ∧ m.val ≠ 0) ∨ F32.ofNat n = .inf false := by
  have hu : F32.units 1065353216 = 2 ^ 149 := by decide
  have hc : 1065353216 ≤ F32.roundCode (n * 2 ^ 149) 1 := F32.le_roundCode (by decide) (by rw [hu]; omega)
  unfold F32.ofNat F32.round F32.pack
  split
  · exact .inl ⟨_, rfl, by dsimp only; omega⟩
  · exact .inr rfl

/-- Without an offset the oscillator stands still. -/
theorem phaseStep_of_isZero {f : F32} {fs : Nat} (hf : f.isZero = true) (hs : 0 < fs) :
    (phaseStep f fs).abs.le F32.twoPiF = true := by
  cases f with
  | inf s => cases hf
  | nan s m => cases hf
  | fin s m =>
    obtain rfl : m = ⟨0, by decide⟩ := Fin.ext (by simpa [F32.isZero] using hf)
    have hmul : F32.twoPiF.mul (.fin s ⟨0, by decide⟩) = .fin s ⟨0, by decide⟩ := by cases s <;> decide
    rw [phaseStep, hmul]
    rcases ofNat_pos hs with ⟨n, hn, hnz⟩ | hn <;> rw [hn]
    · rw [F32.div_fin _ _ _ _ hnz]
      exact F32.abs_round_le (F32.units_pos (Nat.pos_of_ne_zero hnz)) twoPi_finite (by
        have := val_twoPi_pos
        simp only [F32.units_zero, Nat.zero_mul, Nat.cast_zero]
        positivity)
    · cases s <;> decide

/-! ### Which stages run -/

/-- The two places where a receive stage can hang. -/
def Hangs (i : Instr) (s : State) : Prop :=
  (i = .fshift ∧ fshiftLoop s.par (phaseStep s.lat.fineFreqHz s.blk.fs) s.nco s.blk.x = none) ∨
    (i = .demod ∧ s.lat.demodMode = 2#3)

theorem assignedMode {m : BitVec 3} (h : m.toNat ≤ 2) : m = 0#3 ∨ m = 1#3 ∨ m = 2#3 := by
  revert m; decide

theorem execFshift_runs (s : State) :
    (∃ t, execFshift s = .next t) ∨ (execFshift s = .fault .wrapDoesNotEnd ∧ Hangs .fshift s) := by
  unfold execFshift
  split
  · exact .inr ⟨rfl, .inl ⟨rfl, ‹_›⟩⟩
  · exact .inl ⟨_, rfl⟩

theorem execDemod_runs (h : s.lat.demodMode.toNat ≤ 2) :
    (∃ t, execDemod s = .next t) ∨ (execDemod s = .fault .wrapDoesNotEnd ∧ Hangs .demod s) := by
  unfold execDemod
  rcases assignedMode h with hm | hm | hm <;> rw [hm]
  · exact .inl ⟨_, rfl⟩
  · exact .inl ⟨_, rfl⟩
  · show (∃ t, demodSam s = .next t) ∨ (demodSam s = .fault .wrapDoesNotEnd ∧ _)
    unfold demodSam
    split
    · exact .inr ⟨rfl, .inr ⟨rfl, hm⟩⟩
    · exact .inl ⟨_, rfl⟩

/-- On an existing band in an assigned mode a receive stage runs or hangs in a wrap. -/
theorem exec_runs (hi : i ∈ rxStages) (hb : s.lat.activeBand < s.par.numBands) (hm : s.lat.demodMode.toNat ≤ 2) :
    (∃ t, exec i s = .next t) ∨ (exec i s = .fault .wrapDoesNotEnd ∧ Hangs i s) := by
  have band (u : State) : ∃ t, whenBand (s.lat.bandInRange s.par) (.next u) = .next t := ⟨u, if_pos (decide_eq_true hb)⟩
  cases i with
  | fshift => exact execFshift_runs s
  | demod => exact execDemod_runs hm
  | rfgain | iqcorr | convfilt => exact .inl (band _)
  | pull =>
    left
    show ∃ t, execPull s = .next t
    unfold execPull
    split <;> exact ⟨_, rfl⟩
  | agc =>
    left
    show ∃ t, execAgc s = .next t
    unfold execAgc
    dsimp only
    split <;> exact ⟨_, rfl⟩
  | specfull | qshift | speczoom | decim | volpre | equalizer | nr | notch | cwproc | interp | volpost | push =>
    exact .inl ⟨_, rfl⟩
  | _ => simp [rxStages] at hi

/-! ### Between two stages of a receive pass -/

/-- What a receive pass from `s` needs: legal parameters, no outside move scheduled, an existing band and an assigned mode. -/
structure Receivable (s : State) : Prop where
  parameters : s.par.wf = true
  unscheduled : s.sched = []
  band : s.inp.ports.activeBand < s.par.numBands
  mode : s.inp.ports.demodMode.toNat ≤ 2

/-- No wrap of the pass can hang: the mode is USB or AM and the oscillator, in range, moves by at most one turn a sample. -/
structure NeverHangs (s : State) : Prop where
  mode : s.inp.ports.demodMode.toNat ≤ 1
  phase : PhaseLegal s.nco
  step : (phaseStep s.inp.ports.fineFreqHz s.par.fsNative).abs.le F32.twoPiF = true

/-- `t` stands before stage `k` of the receive pass that pulled its block in `s`. -/
structure Receiving (awaited : Bool) (s : State) (k : Nat) (t : State) : Prop where
  around : (rxPulled awaited s).SameAround t
  seq : t.seq = { sp := k, pass := .rx, lastDemod := some s.inp.ports.demodMode }
  valid : t.blk.valid = true
  length : t.blk.x.length = t.blk.n
  rate : t.AtRateBelow (factorsAt s.par .rx k)
  nco : PhaseLegal s.nco → PhaseLegal t.nco
  diag : s.diag <+: t.diag
  marks : s.cfg.Configured s.inp.ports.activeBand → t.marks = s.marks

theorem receiving_pulled (awaited : Bool) (hn : s.par.nNative ≤ s.queues.capq.length) :
    Receiving awaited s 1 (rxPulled awaited s) where
  around := ⟨rfl, rfl, rfl, rfl, rfl, rfl, rfl⟩
  seq := rfl
  valid := rfl
  length := (freshBlock_length _ _).trans (List.length_take_of_le hn)
  rate := atRateBelow_nil.mpr ⟨rfl, rfl⟩
  nco := id
  diag := List.prefix_refl _
  marks := fun _ => rfl

/-- The step of a running pass with nothing scheduled. -/
theorem step_of_stageAt (hw : s.par.wf = true) (hs : s.sched = []) (hat : stageAt s.seq.pass s.seq.sp = some i) :
    step s = onNext State.passEnd (exec i s) := by
  have hp : s.seq.pass ≠ .idle := fun h => by rw [h] at hat; cases hat
  rw [step, if_pos hw, hs]
  show coreStep s = _
  rw [coreStep, if_neg hp, seqStep, hat]

theorem Receiving.step_eq (h : Receiving awaited s k t) (hs : Receivable s) (hat : stageAt .rx k = some i) :
    step t = onNext State.passEnd (exec i t) :=
  step_of_stageAt (by rw [h.around.par]; exact hs.parameters) (h.around.sched.trans hs.unscheduled) (by rw [h.seq]; exact hat)

/-- A stage between the pull and the push takes the pass on to the next stage. -/
theorem Receiving.next {u : State} (h : Receiving awaited s k t) (hs : Receivable s) (hat : stageAt .rx k = some i) (hk : k ≠ 0)
    (hlast : k ≠ 18) (he : exec i t = .next u) : Receiving awaited s (k + 1) u := by
  have hf := exec_effect he
  obtain ⟨hu, hrate⟩ := hf.between (stagePosition_of_stageAt hat) hk hlast
  have ha := h.around
  exact
    { around := ⟨hu.par.trans ha.par, hu.inp.trans ha.inp, hu.lat.trans ha.lat, hu.cfg.trans ha.cfg, hu.queues.trans ha.queues,
        hu.host.trans ha.host, hu.sched.trans ha.sched⟩
      seq := by rw [hu.seq, h.seq]
      valid := hu.valid.trans h.valid
      length := hu.length h.length
      rate := by
        have hpar : t.par = s.par := ha.par
        rw [hpar] at hrate
        exact hrate hs.parameters h.rate
      nco := fun hn => hf.ncoLegal (h.nco hn)
      diag := h.diag.trans (State.Keeps.of_exec he).diag
      marks := fun hc => by
        refine (hu.marks ?_).trans (h.marks hc)
        unfold State.StageConfigured
        rw [ha.cfg, ha.lat, ha.par]
        exact ⟨hc.1, hc.2.1, fun _ => hc.2.2⟩ }

/-- Where no wrap of the pass can hang, none of its stages does. -/
theorem Receiving.not_hangs (h : Receiving awaited s k t) (hat : stageAt .rx k = some i) (hn : NeverHangs s) : ¬ Hangs i t := by
  have hlat : t.lat = s.inp.ports := h.around.lat
  have hpos := stagePosition_of_stageAt hat
  rintro (⟨rfl, hnone⟩ | ⟨rfl, hmode⟩)
  · cases hpos
    have hfs : t.blk.fs = s.par.fsNative := (atRateBelow_nil.mp h.rate).2.trans (congrArg Par.fsNative h.around.par)
    refine fshiftLoop_ends _ _ (h.nco hn.phase) ?_ hnone
    rw [hlat, hfs]
    exact hn.step
  · have hm := hn.mode
    rw [← hlat, hmode] at hm
    exact absurd hm (by decide)

theorem Receiving.step (h : Receiving awaited s k t) (hs : Receivable s) (hk : k ≠ 0) (hlast : k < 18) :
    (Machine.step t = .fault .wrapDoesNotEnd ∧ ¬ NeverHangs s) ∨
      ∃ u, Machine.step t = .next u ∧ Receiving awaited s (k + 1) u := by
  obtain ⟨i, hat⟩ : ∃ i, stageAt .rx k = some i := ⟨_, List.getElem?_eq_getElem (by simp [rxStages]; omega)⟩
  have hlat : t.lat = s.inp.ports := h.around.lat
  have hpar : t.par = s.par := h.around.par
  rw [h.step_eq hs hat]
  rcases exec_runs (s := t) (List.mem_of_getElem? hat) (by rw [hlat, hpar]; exact hs.band) (by rw [hlat]; exact hs.mode) with
    ⟨u, he⟩ | ⟨he, hh⟩
  · have hu := h.next hs hat hk (by omega) he
    refine .inr ⟨u, ?_, hu⟩
    rw [he, onNext, passEnd_of_busy (by rw [hu.seq]; exact nofun)]
  · exact .inl ⟨by rw [he]; rfl, fun hn => h.not_hangs hat hn hh⟩

/-! ### The push and the whole pass -/

/-- What the receive pass that pulled its block in `s` has left when it is over. -/
structure Received (awaited : Bool) (s t : State) (x : List Sample) : Prop where
  length : x.length = s.par.nNative
  blk : t.blk = { x := x, n := s.par.nNative, fs := s.par.fsNative, valid := true }
  seq : t.seq = { sp := 0, pass := .idle, lastDemod := some s.inp.ports.demodMode }
  queues : t.queues =
    { s.queues with
      capq := s.queues.capq.drop s.par.nNative
      playq := s.queues.playq ++ x.map fun z => { i := z.i.toI16, q := z.q.toI16 } }
  host : t.host = { cmd := s.host.cmd, result := if awaited then .passSome else s.host.result, awaited := false }
  lat : t.lat = s.inp.ports
  inp : t.inp = s.inp
  cfg : t.cfg = s.cfg
  par : t.par = s.par
  sched : t.sched = s.sched
  diag : s.diag <+: t.diag
  marks : s.cfg.Configured s.inp.ports.activeBand → t.marks = s.marks

theorem Receiving.last (h : Receiving awaited s 18 t) (hs : Receivable s) :
    ∃ u, Machine.step t = .next u ∧ Received awaited s u t.blk.x := by
  obtain ⟨hn, hfs⟩ := atRateBelow_nil.mp h.rate
  have hpar : t.par = s.par := h.around.par
  rw [hpar] at hn hfs
  refine ⟨_, h.step_eq hs (i := .push) rfl, ?_⟩
  exact
    { length := h.length.trans hn
      blk := by
        rw [State.passEnd_blk]
        show t.blk = _
        rw [← hn, ← hfs, ← h.valid]
      seq := by
        rw [State.passEnd_seq]
        show ({ t.seq with pass := .idle, sp := 0 } : Seq) = _
        rw [h.seq]
      queues := by
        rw [State.passEnd_queues]
        show ({ t.queues with playq := t.queues.playq ++ t.blk.x.map rawOfSample } : Queues) = _
        rw [h.around.queues]
        rfl
      host := by
        rw [State.passEnd_host]
        show (if Pass.idle = .idle ∧ t.host.awaited = true then ({ t.host with result := .passSome, awaited := false } : HostPort)
          else t.host) = _
        rw [h.around.host]
        cases awaited <;> rfl
      lat := (State.passEnd_lat _).trans h.around.lat
      inp := (State.passEnd_inp _).trans h.around.inp
      cfg := (State.passEnd_cfg _).trans h.around.cfg
      par := (State.passEnd_par _).trans h.around.par
      sched := (State.passEnd_sched _).trans h.around.sched
      diag := (State.passEnd_diag _).symm ▸ h.diag
      marks := fun hc => (State.passEnd_marks _).trans (h.marks hc) }

theorem runSteps_succ (n : Nat) (s : State) :
    runSteps (n + 1) s =
      match step s with
      | .next t => runSteps n t
      | .fault r => .fault r
      | .refused r => .refused r := (rfl)

theorem runSteps_next {n : Nat} {u : State} (h : step s = .next u) : runSteps (n + 1) s = runSteps n u := by
  rw [runSteps_succ, h]

theorem runSteps_fault {n : Nat} {r : Fault} (h : step s = .fault r) : runSteps (n + 1) s = .fault r := by
  rw [runSteps_succ, h]

/-- The stages left from stage `k` on, by induction on how many stand before the push. -/
theorem Receiving.run (n : Nat) (h : Receiving awaited s k t) (hs : Receivable s) (hk : k ≠ 0) (hn : k + n = 18) :
    (runSteps (n + 1) t = .fault .wrapDoesNotEnd ∧ ¬ NeverHangs s) ∨
      ∃ u x, runSteps (n + 1) t = .next u ∧ Received awaited s u x := by
  induction n generalizing k t with
  | zero =>
    obtain rfl : k = 18 := hn
    obtain ⟨u, hu, hr⟩ := h.last hs
    exact .inr ⟨u, _, runSteps_next hu, hr⟩
  | succ n ih =>
    rcases h.step hs hk (by omega) with ⟨hf, hh⟩ | ⟨u, hu, hnext⟩
    · exact .inl ⟨runSteps_fault hf, hh⟩
    · rw [runSteps_next hu]
      exact ih hnext (by omega) (by omega)

/-- The step that begins a pass, by its command word. -/
theorem step_begins_receive {w : Word} {rest : List Word} (hl : s.Listening (w :: rest))
    (hw : w = 0x41000000#32 ∨ (w = 0x40000000#32 ∧ s.inp.dispatchSel = 1#2)) (hn : s.par.nNative ≤ s.queues.capq.length) :
    step s = .next (rxPulled (decide (w = 0x41000000#32)) (s.consume 1)) := by
  have start (awaited : Bool) : startRx awaited (s.consume 1) = .next (rxPulled awaited (s.consume 1)) := by
    rw [startRx, pullRx_of_le (s := s.consume 1) hn]
    rfl
  have hidle : (s.consume 1).seq.pass = .idle := hl.idle
  rw [step, if_pos hl.parameters, hl.unscheduled]
  show coreStep s = _
  rw [coreStep, if_pos hl.idle, hostStep, hl.commands]
  rcases hw with rfl | ⟨rfl, hsel⟩
  · exact (whenIdle_idle hidle).trans (start true)
  · exact (whenIdle_idle hidle).trans ((if_pos hsel).trans (start false))

theorem neverHangs_of_legal {w : Word} {rest : List Word} (hl : s.Listening (w :: rest))
    (hm : s.inp.ports.demodMode.toNat ≤ 1) (hp : PhaseLegal s.nco)
    (hf : s.inp.ports.fineFreqHz.isZero = true ∨ (s.inp.ports.Legal s.par ∧ s.par.fsNative ≤ 16777216)) : NeverHangs s := by
  refine ⟨hm, hp, ?_⟩
  rcases hf with hz | ⟨⟨-, -, hbelow⟩, hle⟩
  · obtain ⟨⟨-, hfs, -⟩, -⟩ := (Par.wf_iff s.par).mp hl.parameters
    exact phaseStep_of_isZero hz hfs
  · exact phaseStep_le_turn hbelow hle

/-- Settles O10: the pull, seventeen stages that each run or hang in a wrap, and the push. -/
theorem receivePassCompletesOrHangs : Obligations.ReceivePassCompletesOrHangs := by
  intro s w rest hl hw hn hband hmode returned Completes
  have hs : Receivable (s.consume 1) := ⟨hl.parameters, hl.unscheduled, hband, hmode⟩
  have hcmd : (s.consume 1).host.cmd = rest := congrArg (List.drop 1) hl.commands
  have hfirst : runSteps 19 s = _ := runSteps_next (n := 18) (step_begins_receive hl hw hn)
  have hpass := (receiving_pulled (s := s.consume 1) (decide (w = 0x41000000#32)) hn).run 17 hs (by decide) rfl
  rw [← hfirst] at hpass
  have hrun : (runSteps 19 s = .fault .wrapDoesNotEnd ∧ ¬ NeverHangs (s.consume 1)) ∨ Completes := by
    refine hpass.imp id ?_
    rintro ⟨t, x, ht, hr⟩
    refine ⟨t, x, ht, hr.length, hr.blk, hr.seq, hr.queues, ?_, hr.lat, hr.inp, hr.cfg, hr.par, hr.sched.trans hl.unscheduled,
      hr.diag, hr.marks⟩
    rw [hr.host, hcmd]
    simp only [decide_eq_true_eq]
    rfl
  refine ⟨hrun.imp And.left id, fun hm hp hf => hrun.resolve_left fun ⟨_, hh⟩ => hh ?_⟩
  obtain ⟨hm, hp, hstep⟩ := neverHangs_of_legal hl hm hp hf
  exact ⟨hm, hp, hstep⟩

end Sys2Proof.Machine

/-! PROOFS. 20_memory.md: the moves of the agents outside the block (R77, R81; 10_state.md R29). -/

namespace Sys2Proof.Machine

variable {s : State}

/-- A producer's append that fits is made (20_memory.md R77). -/
theorem appendWithin_of_le {cap : Nat} {q ps : List RawPair} {f : List RawPair → State} (h : q.length + ps.length ≤ cap) :
    appendWithin cap q ps f = .next (f (q ++ ps)) := if_pos h

/-- A producer's append above the capacity is no step (20_memory.md R77, R81). -/
theorem appendWithin_of_lt {cap : Nat} {q ps : List RawPair} {f : List RawPair → State} (h : cap < q.length + ps.length) :
    appendWithin cap q ps f = .refused .queueOverCapacity := if_neg h.not_ge

/-- A scheduled move other than the block's own is the agent's move, taken off the schedule. -/
theorem step_of_move {m : Move} {rest : List Move} (hw : s.par.wf = true) (hs : s.sched = m :: rest) (hm : m ≠ .run) :
    step s = agentMove m (s.setSched rest) := by
  rw [step, if_pos hw, hs]
  cases m with
  | run => exact absurd rfl hm
  | capture ps | txFeed ps | playDrain n | sinkDrain n | drive v | issue ws | powerOn => rfl

/-- Settles O20: each step is the scheduled agent's move; an append is made or refused by its check of the capacity. -/
theorem outsideMoves : Obligations.OutsideMoves := by
  intro s rest hw
  refine ⟨fun ps hs => ?capture, fun ps hs => ?txFeed, fun n hs => ?playDrain, fun n hs => ?sinkDrain, fun v hs => ?drive,
    fun ws hs => ?issue⟩ <;> rw [step_of_move hw hs nofun]
  case capture | txFeed =>
    rw [agentMove]
    exact ⟨appendWithin_of_le, appendWithin_of_lt⟩
  case playDrain | sinkDrain | drive | issue => rfl

end Sys2Proof.Machine

/-! PROOFS. 30_encoding.md, the decoder and the encoder: which numbers are an `op`, what an operation's words decode to, what words that
decode to an operation are (R101 to R106). -/

namespace Sys2Proof

variable {i : Instr} {w : Word} {rest : List Word} {op arg n : Nat}

/-! ### The fields of an operation -/

/-- The numbers 30_encoding.md R104 assigns. -/
theorem Instr.opNumber_assigned (i : Instr) :
    (0x01 ≤ i.opNumber ∧ i.opNumber ≤ 0x13) ∨ (0x21 ≤ i.opNumber ∧ i.opNumber ≤ 0x27) ∨
      (0x40 ≤ i.opNumber ∧ i.opNumber ≤ 0x42) ∨ (0x48 ≤ i.opNumber ∧ i.opNumber ≤ 0x4A) ∨
      (0x50 ≤ i.opNumber ∧ i.opNumber ≤ 0x52) ∨ i.opNumber = 0x60 := by
  cases i <;> simp [Instr.opNumber]

/-- A stage operation has no operand (30_encoding.md R102). -/
theorem Instr.argField_of_stage (h : i.opNumber ≤ 0x27) : i.argField = 0 := by
  cases i with
  | cfgAgc | cfgNr | setIqc | rdIqc | bulkClear => exact absurd h (by simp [Instr.opNumber])
  | _ => rfl

/-- Well-formedness by the two fields that can be too large for the encoding (30_encoding.md R101, R102). -/
theorem Instr.wf_iff (i : Instr) :
    i.wf = true ↔ i.argField < 256 ∧ ∀ mode fs, i = .cfgAgc mode fs → fs < 4294967296 := by
  cases i <;> simp [Instr.wf, Instr.argField, argFits, wordFits]

/-- A command word with a zero `zero` field is made of its `op` and its `arg` (30_encoding.md R101). -/
theorem commandWord_of_fields (h : wordZero w = 0) : commandWord (wordOp w) (wordArg w) = w := by
  apply BitVec.eq_of_toNat_eq
  have hw := w.isLt
  simp only [wordZero] at h
  simp only [commandWord, wordOp, wordArg, BitVec.toNat_ofNat]
  omega

theorem wordArg_lt (w : Word) : wordArg w < 256 := Nat.mod_lt _ (by decide)

/-! ### From an operation to its words and back -/

/-- The fields of a well-formed operation decode to it (30_encoding.md R102 to R104). -/
theorem decodeOp_of_fields (rest : List Word) (h : i.wf = true) :
    decodeOp i.opNumber i.argField (i.operandWords ++ rest) = .op i (encode i).length := by
  cases i with
  | cfgAgc mode fs =>
    have hfs : (BitVec.ofNat 32 fs).toNat = fs :=
      BitVec.toNat_ofNat fs 32 ▸ Nat.mod_eq_of_lt (((Instr.wf_iff _).mp h).2 mode fs rfl)
    show Decoded.op (.cfgAgc mode (BitVec.ofNat 32 fs).toNat) 2 = .op (.cfgAgc mode fs) 2
    rw [hfs]
  | setIqc band amp phase =>
    show Decoded.op (.setIqc band (F32.ofBits amp.toBits) (F32.ofBits phase.toBits)) 3 = .op (.setIqc band amp phase) 3
    rw [F32.ofBits_toBits, F32.ofBits_toBits]
  | _ => rfl

/-- An operation without an operand has its own `op` and no other field. -/
theorem plainOp_some (h : plainOp op = some i) : i.opNumber = op ∧ i.argField = 0 ∧ i.operandWords = [] := by
  unfold plainOp at h
  split at h <;> cases h <;> exact ⟨rfl, rfl, rfl⟩

/-- The operation `i` has the fields `op` and `arg` of a command word, and `rest` begins with its operand words, `n` words in all. -/
structure ReadFrom (op arg : Nat) (rest : List Word) (i : Instr) (n : Nat) : Prop where
  number : i.opNumber = op
  field : i.argField = arg
  wf : arg < 256 → i.wf = true
  operands : i.operandWords <+: rest
  words : n = i.operandWords.length + 1

theorem readFrom_of_noOperand (hop : i.opNumber = op) (harg : i.argField = arg) (hwords : i.operandWords = []) :
    ReadFrom op arg rest i 1 where
  number := hop
  field := harg
  wf := fun ha => (Instr.wf_iff i).mpr ⟨harg ▸ ha, fun mode fs he => by subst he; cases hwords⟩
  operands := hwords ▸ List.nil_prefix
  words := by rw [hwords]; rfl

theorem readFrom_cfgAgc (mode : Nat) (d0 : Word) (rest : List Word) :
    ReadFrom 0x48 mode (d0 :: rest) (.cfgAgc mode d0.toNat) 2 where
  number := rfl
  field := rfl
  wf := fun ha => (Instr.wf_iff _).mpr ⟨ha, fun _ _ he => by cases he; exact d0.isLt⟩
  operands := ⟨rest, congrArg (· :: rest) (BitVec.ofNat_toNat 32 d0)⟩
  words := rfl

theorem readFrom_setIqc (band : Nat) (d0 d1 : Word) (rest : List Word) :
    ReadFrom 0x4A band (d0 :: d1 :: rest) (.setIqc band (F32.ofBits d0) (F32.ofBits d1)) 3 where
  number := rfl
  field := rfl
  wf := decide_eq_true
  operands := ⟨rest, by rw [Instr.operandWords, F32.toBits_ofBits, F32.toBits_ofBits]; rfl⟩
  words := rfl

/-- What the fields of a command word and the words behind it decode to is read from them. -/
theorem decodeOp_op (h : decodeOp op arg rest = .op i n) : ReadFrom op arg rest i n := by
  unfold decodeOp at h
  split_ifs at h with hop hop hop hop hop harg
  · split at h
    · cases h; exact hop ▸ readFrom_cfgAgc _ _ _
    · cases h
  · cases h; exact readFrom_of_noOperand hop.symm rfl rfl
  · split at h
    · cases h; exact hop ▸ readFrom_setIqc _ _ _ _
    · cases h
  · cases h; exact readFrom_of_noOperand hop.symm rfl rfl
  · cases h; exact readFrom_of_noOperand hop.symm rfl rfl
  · split at h
    · cases h
    · rename_i hplain
      cases h
      obtain ⟨hnum, hfield, hwords⟩ := plainOp_some hplain
      exact readFrom_of_noOperand hnum (hfield.trans harg.symm) hwords
  · split at h <;> cases h

/-- Only `CFG_AGC` and `SET_IQC` wait for operand words (30_encoding.md R103). -/
theorem decodeOp_needMore (h : decodeOp op arg rest = .needMore) : op = 0x48 ∨ op = 0x4A := by
  by_contra! hne
  unfold decodeOp at h
  rw [if_neg hne.1, if_neg hne.2] at h
  split_ifs at h
  all_goals split at h <;> cases h

theorem decode_cons (w : Word) (rest : List Word) :
    decode (w :: rest) = if wordZero w = 0 then decodeOp (wordOp w) (wordArg w) rest else .reserved .zeroField := rfl

/-- A decoded command word has a zero `zero` field; the rest is in its other fields. -/
theorem decode_op (h : decode (w :: rest) = .op i n) : wordZero w = 0 ∧ decodeOp (wordOp w) (wordArg w) rest = .op i n := by
  rw [decode_cons] at h
  split at h
  · exact ⟨‹_›, h⟩
  · cases h

theorem decode_needMore (h : decode (w :: rest) = .needMore) :
    wordZero w = 0 ∧ (wordOp w = 0x48 ∨ wordOp w = 0x4A) := by
  rw [decode_cons] at h
  split at h
  · exact ⟨‹_›, decodeOp_needMore h⟩
  · cases h

/-- Settles O2: the command word has the operation's fields, and the fields decode to it. -/
theorem decodeOfEncode : Obligations.DecodeOfEncode := by
  intro i rest h
  have hop : i.opNumber < 256 := by have := i.opNumber_assigned; omega
  obtain ⟨hw, ha, hz⟩ := Laws.EncodeFields.commandWord_fields hop ((Instr.wf_iff i).mp h).1
  rw [encode, List.cons_append, decode_cons, if_pos hz, hw, ha]
  exact decodeOp_of_fields rest h

/-- Settles O3: the command word is made of the decoded fields, the operand words stand behind it. -/
theorem encodeOfDecode : Obligations.EncodeOfDecode := by
  intro ws i n h
  cases ws with
  | nil => cases h
  | cons w rest =>
    obtain ⟨hz, h⟩ := decode_op h
    obtain ⟨hop, harg, hwf, hwords, rfl⟩ := decodeOp_op h
    refine ⟨hwf (wordArg_lt w), ?_, rfl⟩
    rw [encode, hop, harg, commandWord_of_fields hz, List.take_succ_cons, ← List.prefix_iff_eq_take.mp hwords]

/-- Settles O1: the decoder evaluated on each word. -/
theorem decodeWrittenWords : Obligations.DecodeWrittenWords := by
  unfold Obligations.DecodeWrittenWords
  decide

end Sys2Proof

/-! PROOFS. 30_encoding.md, the step of the idle block: a reserved word, an illegal operand, an issued operation (R103, R105 to R107). -/

namespace Sys2Proof.Machine

variable {s : State} {w : Word} {ws rest : List Word} {i : Instr} {n : Nat}

/-- The step of an idle block with no outside move next. -/
theorem step_of_idle {moves : List Move} (hw : s.par.wf = true) (hp : s.seq.pass = .idle)
    (hs : (s.sched = [] ∧ moves = []) ∨ s.sched = .run :: moves) : step s = hostStep (s.setSched moves) := by
  have hcore : coreStep (s.setSched moves) = hostStep (s.setSched moves) := if_pos hp
  rw [step, if_pos hw, ← hcore]
  rcases hs with ⟨hs, rfl⟩ | hs
  · have hself : s.setSched [] = s := hs ▸ rfl
    rw [hself, hs]
  · rw [hs]

theorem State.Listening.step_eq (h : s.Listening ws) : step s = hostStep s := by
  rw [step_of_idle h.parameters h.idle (.inl ⟨h.unscheduled, rfl⟩), ← h.unscheduled]
  rfl

theorem hostStep_of_op (h : decode s.host.cmd = .op i n) : hostStep s = issue i (s.consume n) := by
  rw [hostStep, h]

theorem hostStep_of_reserved {why : Reserved} (h : decode s.host.cmd = .reserved why) : hostStep s = .next (s.consume 1) := by
  rw [hostStep, h]

theorem issue_of_host (h : stagePosition i = none) : issue i s = exec i s := by
  rw [issue, h]

theorem issue_of_stage {p : Pass} {k : Nat} (h : stagePosition i = some (p, k)) :
    issue i s = onNext State.endPass (exec i (s.atStage p k)) := by
  rw [issue, h]

/-- Settles O4: such a word is no operation's command word and waits for no operand word, and a reserved word is consumed. -/
theorem reservedWordsDoNothing : Obligations.ReservedWordsDoNothing := by
  intro s w rest hl hres
  obtain ⟨why, hwhy⟩ : ∃ why, decode (w :: rest) = .reserved why := by
    cases hd : decode (w :: rest) with
    | reserved why => exact ⟨why, rfl⟩
    | needMore =>
      obtain ⟨hz, hop⟩ := decode_needMore hd
      simp only [wordZero, wordOp] at hz hop
      omega
    | op i n =>
      obtain ⟨hz, hd⟩ := decode_op hd
      obtain ⟨hop, harg, -⟩ := decodeOp_op hd
      have hassigned := i.opNumber_assigned
      have hstage := i.argField_of_stage
      simp only [wordZero, wordOp, wordArg] at hz hop harg
      omega
  refine ⟨⟨why, hwhy⟩, ?_⟩
  rw [hl.step_eq, hostStep_of_reserved (hl.commands ▸ hwhy), State.consume, hl.commands]
  rfl

/-- Settles O5: each operation's check of its operand, at an idle block. -/
theorem illegalOperandsAreNoOps : Obligations.IllegalOperandsAreNoOps := by
  intro s hp
  refine ⟨fun mode fs h => ?cfgAgc, fun option h => ?cfgNr, fun band amp phase h => ?setIqc, fun band h => ?rdIqc,
    fun mask h => ?bulkClear⟩
  all_goals exact (whenIdle_idle hp).trans (if_pos h)

/-- Settles O6: the idle block issues what it decodes, and the place of the operation says how it is run. -/
theorem stepRunsIssuedCommand : Obligations.StepRunsIssuedCommand := by
  intro s i n moves hw hp hs hd
  have hstep : step s = issue i ((s.setSched moves).consume n) :=
    (step_of_idle hw hp hs).trans (hostStep_of_op (s := s.setSched moves) hd)
  refine ⟨fun hi => ?host, fun p k hi => ?stage⟩
  case host =>
    rw [hstep, issue_of_host hi]
    rfl
  case stage =>
    rw [hstep, issue_of_stage hi]
    rfl

end Sys2Proof.Machine

/-! PROOFS. 30_encoding.md R117 with 40_orchestrator_framing.md, a whole transmit pass: its five stages between the pull and the push touch
the block and the collaborators' port alone, and the pass from the command word to the push (R130, R132, R150, R158;
46_host_operations.md R282, R290). -/

namespace Sys2Proof.Machine

variable {s t u : State} {i : Instr} {k : Nat} {awaited : Bool}

/-! ### What a transmit stage touches -/

/-- From `s` to `t` at most the block, the sequencer and the collaborators' port have changed. -/
def BlockOnly (s t : State) : Prop :=
  ∃ (b : SampleBlock) (q : Seq) (e : ExtPort), t = { s with blk := b, seq := q, ext := e }

namespace BlockOnly

theorem refl (s : State) : BlockOnly s s := ⟨s.blk, s.seq, s.ext, rfl⟩

theorem trans (h : BlockOnly s t) (k : BlockOnly t u) : BlockOnly s u := by
  obtain ⟨_, _, _, rfl⟩ := h
  obtain ⟨b, q, e, rfl⟩ := k
  exact ⟨b, q, e, rfl⟩

theorem advance (h : BlockOnly s t) : BlockOnly s t.advance := h.trans ⟨_, _, _, rfl⟩

theorem filter (s : State) (c : ExtCall) : BlockOnly s (s.filter c) := ⟨_, _, _, rfl⟩

theorem decimStages (call : Nat → SampleBlock → ExtCall) (j : Nat) (ds : List Nat) (s : State) :
    BlockOnly s (decimStages call j ds s) := by
  induction ds generalizing j s with
  | nil => exact refl s
  | cons d ds ih => exact trans ⟨_, _, _, rfl⟩ (ih (j + 1) _)

theorem interpStages (call : Nat → SampleBlock → ExtCall) (j : Nat) (ds : List Nat) (s : State) :
    BlockOnly s (interpStages call j ds s) := by
  induction ds generalizing j with
  | nil => exact refl s
  | cons d ds ih => exact (ih (j + 1)).trans ⟨_, _, _, rfl⟩

end BlockOnly

/-- A transmit stage between the pull and the push always completes (40_orchestrator_framing.md R152 to R156). -/
theorem exec_transmits (s : State) (hi : i ∈ [.txdecim, .txeq, .txhilb, .txssb, .txinterp]) :
    ∃ t, exec i s = .next t ∧ BlockOnly s t := by
  cases i with
  | txdecim => exact ⟨_, rfl, (BlockOnly.decimStages _ _ _ s).advance⟩
  | txinterp => exact ⟨_, rfl, (BlockOnly.interpStages _ _ _ s).advance⟩
  | txeq | txhilb | txssb => exact ⟨_, rfl, (BlockOnly.filter s _).advance⟩
  | _ => simp at hi

/-! ### Between two stages of a transmit pass -/

/-- `t` stands before stage `k` of the transmit pass that pulled its block in `s`. -/
structure Transmitting (awaited : Bool) (s : State) (k : Nat) (t : State) : Prop where
  frame : BlockOnly (txPulled awaited s) t
  seq : t.seq = { s.seq with sp := k, pass := .tx }
  valid : t.blk.valid = true
  length : t.blk.x.length = t.blk.n
  rate : t.AtRateBelow (factorsAt s.par .tx k)

theorem transmitting_pulled (awaited : Bool) (hn : s.par.nNative ≤ s.queues.txsrc.length) :
    Transmitting awaited s 1 (txPulled awaited s) where
  frame := .refl _
  seq := rfl
  valid := rfl
  length := (freshBlock_length _ _).trans (List.length_take_of_le hn)
  rate := atRateBelow_nil.mpr ⟨rfl, rfl⟩

theorem Transmitting.par (h : Transmitting awaited s k t) : t.par = s.par := by
  obtain ⟨_, _, _, rfl⟩ := h.frame
  rfl

theorem Transmitting.step_eq (h : Transmitting awaited s k t) (hw : s.par.wf = true) (hs : s.sched = [])
    (hat : stageAt .tx k = some i) : step t = onNext State.passEnd (exec i t) := by
  have hsched : t.sched = [] := by
    obtain ⟨_, _, _, rfl⟩ := h.frame
    exact hs
  exact step_of_stageAt (h.par ▸ hw) hsched (by rw [h.seq]; exact hat)

/-- A stage between the pull and the push takes the pass on to the next stage. -/
theorem Transmitting.step (h : Transmitting awaited s k t) (hw : s.par.wf = true) (hs : s.sched = []) (hk : k ≠ 0)
    (hlast : k < 6) : ∃ u, Machine.step t = .next u ∧ Transmitting awaited s (k + 1) u := by
  obtain ⟨i, hat, hi⟩ : ∃ i, stageAt .tx k = some i ∧ i ∈ [.txdecim, .txeq, .txhilb, .txssb, .txinterp] := by
    have hpos : 1 ≤ k := Nat.pos_of_ne_zero hk
    interval_cases k <;> exact ⟨_, rfl, by decide⟩
  obtain ⟨u, he, hframe⟩ := exec_transmits t hi
  obtain ⟨hu, hrate⟩ := (exec_effect he).between (stagePosition_of_stageAt hat) hk (by simp only [lastIndex]; omega)
  have hseq : u.seq = { s.seq with sp := k + 1, pass := .tx } := by rw [hu.seq, h.seq]
  refine ⟨u, ?_, h.frame.trans hframe, hseq, hu.valid.trans h.valid, hu.length h.length, ?_⟩
  · rw [h.step_eq hw hs hat, he, onNext, passEnd_of_busy (by rw [hseq]; exact nofun)]
  · rw [h.par] at hrate
    exact hrate hw h.rate

/-! ### The push and the whole pass -/

/-- The state after the transmit pass that pulled its block in `s` and pushed the samples `x`, with the answer port left at `e`. -/
def transmitted (awaited : Bool) (s : State) (x : List Sample) (e : ExtPort) : State :=
  { s with
    blk := { x := x, n := s.par.nNative, fs := s.par.fsNative, valid := true }
    seq := { s.seq with pass := .idle, sp := 0 }
    lat := s.inp.ports
    queues :=
      { s.queues with
        txsrc := s.queues.txsrc.drop s.par.nNative
        txsink := s.queues.txsink ++ x.map rawOfSample }
    ext := e
    host := { s.host with result := if awaited then .passSome else s.host.result, awaited := false } }

theorem Transmitting.last (h : Transmitting awaited s 6 t) (hw : s.par.wf = true) (hs : s.sched = []) :
    ∃ x e, x.length = s.par.nNative ∧ Machine.step t = .next (transmitted awaited s x e) := by
  have hstep := h.step_eq hw hs (i := .txpush) rfl
  obtain ⟨x, hx, hblk⟩ : ∃ x : List Sample, x.length = s.par.nNative ∧
      t.blk = { x := x, n := s.par.nNative, fs := s.par.fsNative, valid := true } := by
    obtain ⟨hn, hfs⟩ := atRateBelow_nil.mp h.rate
    rw [h.par] at hn hfs
    exact ⟨t.blk.x, h.length.trans hn, by rw [← hn, ← hfs, ← h.valid]⟩
  have hseq := h.seq
  obtain ⟨b, q, e, rfl⟩ := h.frame
  obtain rfl : b = _ := hblk
  obtain rfl : q = _ := hseq
  refine ⟨x, e, hx, hstep.trans ?_⟩
  cases awaited <;> rfl

/-- The stages left from stage `k` on, by induction on how many stand before the push. -/
theorem Transmitting.run (n : Nat) (h : Transmitting awaited s k t) (hw : s.par.wf = true) (hs : s.sched = []) (hk : k ≠ 0)
    (hn : k + n = 6) : ∃ x e, x.length = s.par.nNative ∧ runSteps (n + 1) t = .next (transmitted awaited s x e) := by
  induction n generalizing k t with
  | zero =>
    obtain rfl : k = 6 := hn
    obtain ⟨x, e, hx, hu⟩ := h.last hw hs
    exact ⟨x, e, hx, runSteps_next hu⟩
  | succ n ih =>
    obtain ⟨u, hu, hnext⟩ := h.step hw hs hk (by omega)
    rw [runSteps_next hu]
    exact ih hnext (by omega) (by omega)

theorem startTx_of_le (awaited : Bool) (h : s.par.nNative ≤ s.queues.txsrc.length) :
    startTx awaited s = .next (txPulled awaited s) := by
  rw [startTx, pullTx_of_le h]
  rfl

theorem startTx_of_lt (awaited : Bool) (h : s.queues.txsrc.length < s.par.nNative) :
    startTx awaited s = .next (if awaited then s.returns .passNone else s) := by
  rw [startTx, pullTx_none_iff.mpr h]
  rfl

/-- The step that begins a transmit pass, by its command word; the host awaits a result where that is `TX_PASS`. -/
theorem step_begins_transmit {w : Word} {rest : List Word} (hl : s.Listening (w :: rest))
    (hw : w = 0x42000000#32 ∨ (w = 0x40000000#32 ∧ s.inp.dispatchSel = 2#2)) :
    step s = startTx (decide (w = 0x42000000#32)) (s.consume 1) := by
  have hidle : (s.consume 1).seq.pass = .idle := hl.idle
  have hissue {i : Instr} (hd : decode (w :: rest) = .op i 1) (hi : stagePosition i = none) : step s = exec i (s.consume 1) := by
    rw [hl.step_eq, hostStep_of_op (hl.commands ▸ hd), issue_of_host hi]
  rcases hw with rfl | ⟨rfl, hsel⟩
  · exact (hissue (i := .txPass) rfl rfl).trans (whenIdle_idle hidle)
  · have hrx : s.inp.dispatchSel ≠ 1#2 := by rw [hsel]; decide
    exact (hissue (i := .tick) rfl rfl).trans ((whenIdle_idle hidle).trans ((if_neg hrx).trans (if_pos hsel)))

/-- Settles O9: the pull, five stages that always complete, and the push; without a block the first step is the answer. -/
theorem transmitPassCompletes : Obligations.TransmitPassCompletes := by
  intro s w rest hl hw returned
  have hbegin := step_begins_transmit hl hw
  obtain rfl : (s.consume 1).host.cmd = rest := congrArg (List.drop 1) hl.commands
  refine ⟨fun hn => ?available, fun hn => ?unavailable⟩
  case available =>
    rw [startTx_of_le _ (s := s.consume 1) hn] at hbegin
    obtain ⟨x, e, hx, hrun⟩ :=
      (transmitting_pulled (s := s.consume 1) (decide (w = 0x42000000#32)) hn).run 5 hl.parameters hl.unscheduled (by decide) rfl
    refine ⟨x, e, hx, ?_⟩
    rw [runSteps_next hbegin, hrun, transmitted]
    simp only [decide_eq_true_eq]
    rfl
  case unavailable =>
    rw [hbegin, startTx_of_lt _ (s := s.consume 1) hn]
    simp only [decide_eq_true_eq, returned]
    split <;> rfl

end Sys2Proof.Machine

/-! PROOFS. 40_orchestrator_framing.md, the conversions between 16-bit samples and binary32 (R136, R148; 20_memory.md R90). -/

namespace Sys2Proof

/-! ### Exact values -/

/-- A 24-bit significand at any exponent is a magnitude, by induction: a short significand is doubled until it is normal. -/
theorem F32.exists_units_eq {n : Nat} (hn : n < 16777216) (k : Nat) : ∃ c, F32.units c = n * 2 ^ k := by
  induction k generalizing n with
  | zero => exact ⟨0 * 8388608 + n, F32.units_code (by omega) (by omega)⟩
  | succ k ih =>
    rcases Nat.lt_or_ge n 8388608 with h | h
    · obtain ⟨c, hc⟩ := ih (n := n * 2) (by omega)
      exact ⟨c, by rw [hc, Nat.pow_succ, Nat.mul_assoc, Nat.mul_comm 2]⟩
    · exact ⟨(k + 1) * 8388608 + n, F32.units_code (by omega) fun _ => h⟩

/-- Such a magnitude is finite up to the exponent 253. -/
theorem F32.exists_code {n k : Nat} (hn : n < 16777216) (hk : k ≤ 253) :
    ∃ m : Fin 2139095040, F32.units m.val = n * 2 ^ k := by
  obtain ⟨c, hc⟩ := F32.exists_units_eq hn k
  refine ⟨⟨c, ?_⟩, hc⟩
  by_contra hge
  have hinf : F32.units 2139095040 ≤ F32.units c := F32.units_mono (by omega)
  have hlt : n * 2 ^ k < 16777216 * 2 ^ 253 :=
    Nat.mul_lt_mul_of_lt_of_le hn (Nat.pow_le_pow_right (by decide) hk) (by positivity)
  have hval : F32.units 2139095040 = 16777216 * 2 ^ 253 := by decide
  omega

/-- A quotient that is a finite magnitude is not rounded. -/
theorem F32.round_exact {s : Bool} {m : Fin 2139095040} {num den : Nat} (hd : 0 < den) (h : F32.units m.val * den = num) :
    F32.round s num den = .fin s m := by
  rw [F32.round, ← h, F32.roundCode_units hd, F32.pack, dif_pos m.isLt]

/-! ### From a raw sample (40_orchestrator_framing.md R136) -/

theorem F32.scale16_eq : F32.scale16 = .fin false ⟨1191182336, by decide⟩ := by decide

theorem F32.units_scale16 : F32.units 1191182336 = 32768 * 2 ^ 149 := by decide

/-- A raw sample is a binary32 integer of magnitude `m`, and that integer divided by 32768 the magnitude `q`: both exact. -/
theorem F32.sampleOfI16_exact (v : BitVec 16) :
    ∃ (sg : Bool) (m q : Fin 2139095040), F32.signed sg m.val = v.toInt * 2 ^ 149 ∧
      F32.units m.val = F32.units q.val * 32768 ∧ (F32.ofI16 v).div F32.scale16 = .fin sg q := by
  have hlo := BitVec.le_toInt v
  have hhi := BitVec.toInt_lt (x := v)
  obtain ⟨m, hm⟩ := F32.exists_code (n := v.toInt.natAbs) (k := 149) (by omega) (by decide)
  obtain ⟨q, hq⟩ := F32.exists_code (n := v.toInt.natAbs) (k := 134) (by omega) (by decide)
  have hmq : F32.units m.val = F32.units q.val * 32768 := by rw [hm, hq]; ring
  have hv : F32.ofI16 v = .fin (decide (v.toInt < 0)) m := by
    have hround (sg : Bool) : F32.round sg (v.toInt.natAbs * 2 ^ 149) 1 = .fin sg m := F32.round_exact (by decide) (by omega)
    rw [F32.ofI16, hround, hround]
    by_cases h : v.toInt < 0 <;> simp [h]
  refine ⟨decide (v.toInt < 0), m, q, ?_, hmq, ?_⟩
  · rw [F32.signed, hm]
    simp only [decide_eq_true_eq]
    split <;> omega
  · rw [hv, F32.scale16_eq, F32.div_fin _ _ _ _ (by decide), Bool.xor_false, F32.units_scale16]
    exact F32.round_exact (by decide) (by rw [hmq]; ring)

/-- The output conversion's product undoes the division. -/
theorem F32.mul_scale16 {sg : Bool} {m q : Fin 2139095040} (h : F32.units m.val = F32.units q.val * 32768) :
    (F32.fin sg q).mul F32.scale16 = .fin sg m := by
  rw [F32.scale16_eq, F32.mul_fin, Bool.xor_false, F32.units_scale16]
  exact F32.round_exact (by positivity) (by rw [h]; ring)

/-! ### To a raw sample (40_orchestrator_framing.md R148) -/

variable {x : F32}

theorem F32.val_max16 : F32.max16.val = 32767 * 2 ^ 149 := by decide

theorem F32.val_min16 : F32.min16.val = -32768 * 2 ^ 149 := by decide

theorem F32.toI16_of_nan (h : x.isNaN = true) : x.toI16 = 0#16 := if_pos h

theorem F32.toI16_of_ge (hx : x.isNaN = false) (h : (x.mul F32.scale16).ge F32.max16 = true) : x.toI16 = 32767#16 := by
  rw [F32.toI16, if_neg (by simp [hx])]
  exact if_pos h

theorem F32.toI16_of_le (hx : x.isNaN = false) (h : (x.mul F32.scale16).le F32.min16 = true) : x.toI16 = 32768#16 := by
  have hmax : ¬ (x.mul F32.scale16).ge F32.max16 = true := fun hge => absurd (F32.le_trans hge h) (by decide)
  rw [F32.toI16, if_neg (by simp [hx])]
  exact (if_neg hmax).trans (if_pos h)

/-- The integer part of a value between -32768.0 and 32767.0 fits sixteen bits. -/
theorem F32.trunc_fits {sg : Bool} {m : Fin 2139095040} (hmin : F32.min16.lt (.fin sg m) = true)
    (hmax : (F32.fin sg m).lt F32.max16 = true) : -32768 ≤ (F32.fin sg m).trunc ∧ (F32.fin sg m).trunc < 32768 := by
  have hlo := (F32.lt_iff_val (by decide) rfl).mp hmin
  have hhi := (F32.lt_iff_val rfl (by decide)).mp hmax
  rw [F32.val_min16] at hlo
  rw [F32.val_max16] at hhi
  cases sg with
  | false => simp only [F32.val, F32.signed, F32.trunc, Bool.false_eq_true, if_false] at hlo hhi ⊢; omega
  | true => simp only [F32.val, F32.signed, F32.trunc, if_true] at hlo hhi ⊢; omega

/-- Below 32767.0 and above -32768.0 the integer part fits and is the result. -/
theorem F32.toI16_of_between {sg : Bool} {m : Fin 2139095040} (hx : x.isNaN = false) (hy : x.mul F32.scale16 = .fin sg m)
    (hmax : (F32.fin sg m).lt F32.max16 = true) (hmin : F32.min16.lt (.fin sg m) = true) :
    x.toI16.toInt = (F32.fin sg m).trunc := by
  have hge : ¬ (F32.fin sg m).ge F32.max16 = true := fun h => by rw [F32.not_lt_of_le h] at hmax; cases hmax
  have hle : ¬ (F32.fin sg m).le F32.min16 = true := fun h => by rw [F32.not_lt_of_le h] at hmin; cases hmin
  have hconv : x.toI16 = BitVec.ofInt 16 (F32.fin sg m).trunc := by
    rw [F32.toI16, if_neg (by simp [hx]), hy]
    exact (if_neg hge).trans (if_neg hle)
  obtain ⟨hlo, hhi⟩ := F32.trunc_fits hmin hmax
  rw [hconv, BitVec.toInt_ofInt_eq_self (by decide) hlo hhi]

/-- Settles O27: a NaN, the two saturations and the integer part. -/
theorem outputConversion : Obligations.OutputConversion := by
  intro x
  refine ⟨F32.toI16_of_nan, fun hx => ⟨fun h => ?_, fun h => ?_, fun sg m hy hmax hmin => F32.toI16_of_between hx hy hmax hmin⟩⟩
  · rw [F32.toI16_of_ge hx h]; decide
  · rw [F32.toI16_of_le hx h]; decide

/-- An integer is its own integer part. -/
theorem F32.trunc_of_signed {sg : Bool} {m : Fin 2139095040} {v : Int} (h : F32.signed sg m.val = v * 2 ^ 149) :
    (F32.fin sg m).trunc = v := by
  cases sg with
  | false => simp only [F32.signed, F32.trunc, Bool.false_eq_true, if_false] at h ⊢; omega
  | true => simp only [F32.signed, F32.trunc, if_true] at h ⊢; omega

/-- A value whose product with 32768.0 is a 16-bit integer converts to that integer, the two ends by saturation. -/
theorem F32.toI16_of_signed {sg : Bool} {m : Fin 2139095040} {v : BitVec 16} (hx : x.isNaN = false)
    (hy : x.mul F32.scale16 = .fin sg m) (hm : F32.signed sg m.val = v.toInt * 2 ^ 149) : x.toI16 = v := by
  have hval : (F32.fin sg m).val = v.toInt * 2 ^ 149 := hm
  have hlo := BitVec.le_toInt v
  have hhi := BitVec.toInt_lt (x := v)
  by_cases hmax : v.toInt = 32767
  · have hge : (x.mul F32.scale16).ge F32.max16 = true := by
      rw [hy]
      exact (F32.le_iff_val (by decide) rfl).mpr (by rw [hval, F32.val_max16, hmax])
    rw [F32.toI16_of_ge hx hge]
    exact BitVec.eq_of_toInt_eq (by rw [hmax]; decide)
  by_cases hmin : v.toInt = -32768
  · have hle : (x.mul F32.scale16).le F32.min16 = true := by
      rw [hy]
      exact (F32.le_iff_val rfl (by decide)).mpr (by rw [hval, F32.val_min16, hmin])
    rw [F32.toI16_of_le hx hle]
    exact BitVec.eq_of_toInt_eq (by rw [hmin]; decide)
  · refine BitVec.eq_of_toInt_eq ((F32.toI16_of_between hx hy ?_ ?_).trans (F32.trunc_of_signed hm))
    · exact (F32.lt_iff_val rfl (by decide)).mpr (by rw [hval, F32.val_max16]; omega)
    · exact (F32.lt_iff_val (by decide) rfl).mpr (by rw [hval, F32.val_min16]; omega)

/-- Settles O26: the quotient is exact, and the output conversion's product gives the integer back. -/
theorem sampleScaleExact : Obligations.SampleScaleExact := by
  intro v
  obtain ⟨sg, m, q, hm, hmq, hdiv⟩ := F32.sampleOfI16_exact v
  refine ⟨sg, q, hdiv, ?_, ?_⟩
  · rw [← hm]
    simp only [F32.signed, hmq]
    split <;> omega
  · rw [hdiv]
    exact F32.toI16_of_signed rfl (F32.mul_scale16 hmq) hm

end Sys2Proof

/-! PROOFS. 40_orchestrator_framing.md, the stages at the edges of a pass: the volume stages, the hooks, the pulls, the pushes and the entry
points that begin with a pull (R130, R133 to R139, R143, R147 to R151, R157, R158; 46_host_operations.md R281, R282, R290). -/

namespace Sys2Proof.Machine

variable {s t : State} {i : Instr} {p : Pass} {k : Nat}

/-! ### Stage order -/

/-- A stage stands in its pass where `stagePosition` says. -/
theorem stageAt_of_stagePosition (h : stagePosition i = some (p, k)) : p ≠ .idle ∧ stageAt p k = some i := by
  cases i with
  | tick | rxPass | txPass | cfgAgc | cfgNr | setIqc | rdAgcact | rdSamofs | rdIqc | bulkClear => cases h
  | _ => cases h; exact ⟨nofun, rfl⟩

theorem stagePosition_iff : stagePosition i = some (p, k) ↔ p ≠ .idle ∧ stageAt p k = some i :=
  ⟨stageAt_of_stagePosition, fun h => stagePosition_of_stageAt h.2⟩

/-- The last stages of the two passes. -/
theorem stagePosition_lastIndex (h : stagePosition i = some (p, lastIndex p)) : i = .push ∨ i = .txpush := by
  obtain ⟨hp, hat⟩ := stageAt_of_stagePosition h
  cases p with
  | idle => exact absurd rfl hp
  | rx => cases hat; exact .inl rfl
  | tx => cases hat; exact .inr rfl

/-- Settles O8: the lists by evaluation, the stages between pull and push by the inversion of `exec`, the two pushes by their meaning. -/
theorem fixedStageOrder : Obligations.FixedStageOrder := by
  refine ⟨rfl, rfl, fun i p k => stagePosition_iff, fun i p k s t hpos h => ⟨fun hi => ?last, fun ⟨hk, hpush, htxpush⟩ => ?between⟩⟩
  case last => rcases hi with rfl | rfl <;> (obtain rfl := Host.Outcome.next.inj h; rfl)
  case between =>
    have hlast : k ≠ lastIndex p := by
      rintro rfl
      exact (stagePosition_lastIndex hpos).elim hpush htxpush
    exact ((exec_effect h).between hpos hk hlast).1.seq

theorem seqStep_of_stageAt (hat : stageAt s.seq.pass s.seq.sp = some i) : seqStep s = onNext State.passEnd (exec i s) := by
  rw [seqStep, hat]

/-- The step of a running pass with no outside move next. -/
theorem step_of_running {moves : List Move} (hw : s.par.wf = true) (hat : stageAt s.seq.pass s.seq.sp = some i)
    (hs : (s.sched = [] ∧ moves = []) ∨ s.sched = .run :: moves) : step s = onNext State.passEnd (exec i (s.setSched moves)) := by
  have hp : s.seq.pass ≠ .idle := fun h => by rw [h] at hat; cases hat
  have hcore : coreStep (s.setSched moves) = onNext State.passEnd (exec i (s.setSched moves)) :=
    (if_neg hp).trans (seqStep_of_stageAt (s := s.setSched moves) hat)
  rcases hs with ⟨hs, rfl⟩ | hs
  · exact (step_of_stageAt hw hs hat).trans (by rw [State.setSched, ← hs])
  · rw [step, if_pos hw, hs, ← hcore]

/-- Settles O7: the stage at the pointer runs, then the end of a pass is answered. -/
theorem stepRunsStageOfPass : Obligations.StepRunsStageOfPass := by
  intro s i moves hw hat hs
  refine (step_of_running hw hat hs).trans ?_
  rw [State.setSched]
  cases exec i { s with sched := moves } <;> rfl

/-! ### What no transmit stage reads or writes (R158) -/

/-- The state with other receive data. -/
def State.withReceive (s : State) (a : AgcState) (m : SamState) (theta : F32) (c : Cfg) : State :=
  { s with agc := a, sam := m, nco := theta, cfg := c }

section
variable (s : State) (a : AgcState) (m : SamState) (theta : F32) (c : Cfg)

theorem decimStages_withReceive (call : Nat → SampleBlock → ExtCall) (j : Nat) (ds : List Nat) :
    decimStages call j ds (s.withReceive a m theta c) = (decimStages call j ds s).withReceive a m theta c := by
  induction ds generalizing j s with
  | nil => rfl
  | cons d ds ih => exact ih (s.decimate (call j s.blk) d) (j + 1)

theorem interpStages_withReceive (call : Nat → SampleBlock → ExtCall) (j : Nat) (ds : List Nat) :
    interpStages call j ds (s.withReceive a m theta c) = (interpStages call j ds s).withReceive a m theta c := by
  induction ds generalizing j with
  | nil => rfl
  | cons d ds ih => rw [interpStages, ih]; rfl

theorem execTxpull_withReceive :
    execTxpull (s.withReceive a m theta c) = onNext (State.withReceive · a m theta c) (execTxpull s) := by
  rcases Nat.lt_or_ge s.queues.txsrc.length s.par.nNative with hn | hn
  · have hshort : (s.withReceive a m theta c).queues.txsrc.length < (s.withReceive a m theta c).par.nNative := hn
    rw [execTxpull, execTxpull, pullTx_none_iff.mpr hn, pullTx_none_iff.mpr hshort]
    rfl
  · rw [execTxpull, execTxpull, pullTx_of_le hn, pullTx_of_le (s := s.withReceive a m theta c) hn]
    rfl

/-- A transmit stage does the same whatever the receive data. -/
theorem exec_withReceive (hi : i ∈ txStages) :
    exec i (s.withReceive a m theta c) = onNext (State.withReceive · a m theta c) (exec i s) := by
  cases i with
  | txpull => exact execTxpull_withReceive s a m theta c
  | txdecim => exact congrArg (fun u : State => Host.Outcome.next u.advance) (decimStages_withReceive s a m theta c _ 0 _)
  | txinterp => exact congrArg (fun u : State => Host.Outcome.next u.advance) (interpStages_withReceive s a m theta c _ 0 _)
  | txeq | txhilb | txssb | txpush => rfl
  | _ => simp [txStages] at hi

end

/-- A transmit stage leaves the receive data alone. -/
theorem exec_keepsReceive (hi : i ∈ txStages) (h : exec i s = .next t) :
    t.agc = s.agc ∧ t.sam = s.sam ∧ t.nco = s.nco ∧ t.cfg = s.cfg := by
  have hself : exec i s = onNext (State.withReceive · s.agc s.sam s.nco s.cfg) (exec i s) :=
    exec_withReceive s s.agc s.sam s.nco s.cfg hi
  rw [h] at hself
  have ht : t = t.withReceive s.agc s.sam s.nco s.cfg := Host.Outcome.next.inj hself
  rw [ht]
  exact ⟨rfl, rfl, rfl, rfl⟩

/-- Settles O24: each transmit stage runs the same on other receive data and hands them on; on its own data that is the frame. -/
theorem transmitIgnoresReceiveState : Obligations.TransmitIgnoresReceiveState := by
  intro i hi s a m theta c
  refine ⟨fun t h => exec_keepsReceive hi h, (exec_withReceive s a m theta c hi).trans ?_⟩
  cases exec i s <;> rfl

/-! ### Pulls and the entry points that begin with one (R130, R136, R137, R151) -/

theorem exec_pull_of_lt (h : s.queues.capq.length < s.par.nNative) : exec .pull s = .next s := by
  rw [exec, execPull, pullRx_none_iff.mpr h]

theorem exec_txpull_of_lt (h : s.queues.txsrc.length < s.par.nNative) : exec .txpull s = .next s := by
  rw [exec, execTxpull, pullTx_none_iff.mpr h]

theorem exec_pull_of_le (h : s.par.nNative ≤ s.queues.capq.length) : exec .pull s = .next (rxPulled s.host.awaited s) := by
  rw [exec, execPull, pullRx_of_le h]
  rfl

theorem exec_txpull_of_le (h : s.par.nNative ≤ s.queues.txsrc.length) : exec .txpull s = .next (txPulled s.host.awaited s) := by
  rw [exec, execTxpull, pullTx_of_le h]
  rfl

theorem startRx_of_lt (awaited : Bool) (h : s.queues.capq.length < s.par.nNative) :
    startRx awaited s = .next (if awaited then s.returns .passNone else s) := by
  rw [startRx, pullRx_none_iff.mpr h]
  rfl

theorem startRx_of_le (awaited : Bool) (h : s.par.nNative ≤ s.queues.capq.length) :
    startRx awaited s = .next (rxPulled awaited s) := by
  rw [startRx, pullRx_of_le h]
  rfl

theorem exec_rxPass (hp : s.seq.pass = .idle) : exec .rxPass s = startRx true s := whenIdle_idle hp

theorem exec_txPass (hp : s.seq.pass = .idle) : exec .txPass s = startTx true s := whenIdle_idle hp

theorem exec_tick_rx (hp : s.seq.pass = .idle) (hsel : s.inp.dispatchSel = 1#2) : exec .tick s = startRx false s :=
  (whenIdle_idle hp).trans (if_pos hsel)

theorem exec_tick_tx (hp : s.seq.pass = .idle) (hsel : s.inp.dispatchSel = 2#2) : exec .tick s = startTx false s := by
  have hrx : s.inp.dispatchSel ≠ 1#2 := by rw [hsel]; decide
  exact (whenIdle_idle hp).trans ((if_neg hrx).trans (if_pos hsel))

theorem exec_tick_other (hp : s.seq.pass = .idle) (hrx : s.inp.dispatchSel ≠ 1#2) (htx : s.inp.dispatchSel ≠ 2#2) :
    exec .tick s = .next s :=
  (whenIdle_idle hp).trans ((if_neg hrx).trans (if_neg htx))

/-- Settles O11: the pulls and the entry points on a queue that is too short. -/
theorem unavailableChangesNothing : Obligations.UnavailableChangesNothing := by
  intro s
  refine ⟨fun hn => ⟨exec_pull_of_lt hn, fun hp => ⟨?rxPass, fun hsel => ?tickRx⟩⟩,
    fun hn => ⟨exec_txpull_of_lt hn, fun hp => ⟨?txPass, fun hsel => ?tickTx⟩⟩⟩
  case rxPass => exact (exec_rxPass hp).trans (startRx_of_lt true hn)
  case tickRx => exact (exec_tick_rx hp hsel).trans (startRx_of_lt false hn)
  case txPass => exact (exec_txPass hp).trans (startTx_of_lt true hn)
  case tickTx => exact (exec_tick_tx hp hsel).trans (startTx_of_lt false hn)

/-- Settles O25: the pulls and the entry points on a queue that holds a block. -/
theorem pullTakesABlock : Obligations.PullTakesABlock := by
  intro s
  refine ⟨fun hn => ⟨exec_pull_of_le hn, fun hp => ⟨?rxPass, fun hsel => ?tickRx⟩⟩,
    fun hn => ⟨exec_txpull_of_le hn, fun hp => ⟨?txPass, fun hsel => ?tickTx⟩⟩⟩
  case rxPass => exact (exec_rxPass hp).trans (startRx_of_le true hn)
  case tickRx => exact (exec_tick_rx hp hsel).trans (startRx_of_le false hn)
  case txPass => exact (exec_txPass hp).trans (startTx_of_le true hn)
  case tickTx => exact (exec_tick_tx hp hsel).trans (startTx_of_le false hn)

/-- Begun by `TICK`, a receive pass is the one `RX_PASS` begins, but for the host port. -/
theorem startRx_awaited (ha : s.host.awaited = false) :
    ∃ t, startRx true s = .next t ∧ startRx false s = .next { t with host := s.host } := by
  rcases Nat.lt_or_ge s.queues.capq.length s.par.nNative with hn | hn
  · exact ⟨_, startRx_of_lt true hn, startRx_of_lt false hn⟩
  · refine ⟨_, startRx_of_le true hn, (startRx_of_le false hn).trans ?_⟩
    rw [rxPulled, ← ha]
    rfl

theorem startTx_awaited (ha : s.host.awaited = false) :
    ∃ t, startTx true s = .next t ∧ startTx false s = .next { t with host := s.host } := by
  rcases Nat.lt_or_ge s.queues.txsrc.length s.par.nNative with hn | hn
  · exact ⟨_, startTx_of_lt true hn, startTx_of_lt false hn⟩
  · refine ⟨_, startTx_of_le true hn, (startTx_of_le false hn).trans ?_⟩
    rw [txPulled, ← ha]
    rfl

/-- Settles O13: the selection decides which entry point `TICK` begins as. -/
theorem tickDispatches : Obligations.TickDispatches := by
  intro s hp ha
  refine ⟨fun hsel => ?rx, fun hsel => ?tx, fun hsel => ?none⟩
  case rx => rw [exec_rxPass hp, exec_tick_rx hp hsel]; exact startRx_awaited ha
  case tx => rw [exec_txPass hp, exec_tick_tx hp hsel]; exact startTx_awaited ha
  case none => rcases hsel with hsel | hsel <;> exact exec_tick_other hp (by rw [hsel]; decide) (by rw [hsel]; decide)

/-! ### Pushes, hooks and volumes (R138, R139, R143, R147 to R149, R157) -/

/-- Settles O28: each push is its equation. -/
theorem pushAppendsTheBlock : Obligations.PushAppendsTheBlock := fun _ => ⟨rfl, rfl⟩

/-- A call under an enable adds to the record of calls or does nothing. -/
theorem calls_if (s : State) (enabled : Bool) (c : ExtCall) :
    (if enabled then s.calls c else s) =
      { s with ext := { s.ext with calls := if enabled then s.ext.calls ++ [c] else s.ext.calls } } := by
  cases enabled <;> rfl

/-- Settles O36: a hook is a call under its enable. -/
theorem hooksOnlyLook : Obligations.HooksOnlyLook := fun s =>
  ⟨congrArg (fun u : State => Host.Outcome.next u.advance) (calls_if s s.lat.specFullEn (.spectrumFull s.blk)),
    congrArg (fun u : State => Host.Outcome.next u.advance) (calls_if s s.lat.specZoomEn (.spectrumZoom s.blk))⟩

/-- The factor 1.0 passes samples that are no NaN bit for bit. -/
theorem mapSamples_scale_one (h : ∀ z ∈ s.blk.x, z.i.isNaN = false ∧ z.q.isNaN = false) :
    s.mapSamples (Sample.scale F32.one) = s := by
  have hx : s.blk.x.map (Sample.scale F32.one) = s.blk.x := by
    refine (List.map_congr_left fun z hz => ?_).trans (List.map_id _)
    obtain ⟨hi, hq⟩ := h z hz
    rw [Sample.scale, F32.mul_one hi, F32.mul_one hq]
    rfl
  rw [State.mapSamples, hx]
  rfl

/-- Settles O38: the equation of each volume stage, and the factor 1.0 in it. -/
theorem volumeScales : Obligations.VolumeScales := by
  intro s
  refine ⟨rfl, rfl, fun hnan => ⟨fun hv => ?pre, fun hv => ?post⟩⟩
  case pre =>
    show execVolpre s = _
    rw [execVolpre, hv, mapSamples_scale_one hnan]
    rfl
  case post =>
    show execVolpost s = _
    rw [execVolpost, hv, mapSamples_scale_one hnan]
    rfl

end Sys2Proof.Machine

/-! PROOFS. 40_orchestrator_framing.md, multirate framing: a framing stage is a fold of one call of the filter bank per factor, and that
fold in closed form (R140, R141, R145, R152, R156). -/

namespace Sys2Proof.Machine

/-! ### A framing stage as a fold -/

section
variable (op : Nat → Nat → Nat) (call : Nat → SampleBlock → ExtCall)

/-- One call of the filter bank for the factor `p.1` with the index `p.2`; `op` says what it does to `BLK.N` and `BLK.FS`. -/
def reframe (s : State) (p : Nat × Nat) : State :=
  (s.ask (call p.2 s.blk) (op s.blk.n p.1)).setRate (op s.blk.n p.1) (op s.blk.fs p.1)

/-- `DECIM` and `TXDECIM` take the factors in order. -/
theorem decimStages_eq_foldl (j : Nat) (ds : List Nat) (s : State) :
    decimStages call j ds s = (ds.zipIdx j).foldl (reframe (· / ·) call) s := by
  induction ds generalizing j s with
  | nil => rfl
  | cons d ds ih => exact ih (j + 1) _

/-- `INTERP` and `TXINTERP` take them in reverse. -/
theorem interpStages_eq_foldl (j : Nat) (ds : List Nat) (s : State) :
    interpStages call j ds s = (ds.zipIdx j).reverse.foldl (reframe (· * ·) call) s := by
  induction ds generalizing j with
  | nil => rfl
  | cons d ds ih =>
    rw [List.zipIdx_cons, List.reverse_cons, List.foldl_append, ← ih]
    rfl

end

/-! ### The fold in closed form -/

/-- A length or rate `v` after the first `k` of the factors `ds`. -/
def rateAfter (op : Nat → Nat → Nat) (ds : List Nat) (k v : Nat) : Nat := op v (ds.take k).prod

/-- The block as `k` of the answers left it, `rate` giving its length and rate. -/
def framedBlock (rate : Nat → Nat → Nat) (b : SampleBlock) (answers : List (List Sample)) (k : Nat) : SampleBlock :=
  { x := (b.x :: answers).getD k [], n := rate k b.n, fs := rate k b.fs, valid := b.valid }

/-- One answer per call, as long as the block is after it. -/
def AnswersFit (rate : Nat → Nat → Nat) (calls n : Nat) (answers : List (List Sample)) : Prop :=
  answers.length = calls ∧ ∀ k a, answers[k]? = some a → a.length = rate (k + 1) n

/-- The state after the calls of the filter bank with the indices `order`, the answer port left at `e`. -/
def framed (s : State) (call : Nat → SampleBlock → ExtCall) (order : List Nat) (rate : Nat → Nat → Nat)
    (answers : List (List Sample)) (e : ExtPort) : State :=
  { s with
    blk := framedBlock rate s.blk answers order.length
    ext := { e with calls := s.ext.calls ++ order.mapIdx fun k j => call j (framedBlock rate s.blk answers k) } }

variable {op : Nat → Nat → Nat} {call : Nat → SampleBlock → ExtCall} {s : State}

theorem AnswersFit.map_length_eq {rate : Nat → Nat → Nat} {calls n : Nat} {xs ys : List (List Sample)}
    (hx : AnswersFit rate calls n xs) (hy : AnswersFit rate calls n ys) : xs.map List.length = ys.map List.length := by
  refine List.ext_getElem (by simp [hx.1, hy.1]) fun k h1 h2 => ?_
  simp only [List.length_map] at h1 h2
  rw [List.getElem_map, List.getElem_map, hx.2 k _ (List.getElem?_eq_getElem h1), hy.2 k _ (List.getElem?_eq_getElem h2)]

/-- All that one call does. -/
theorem reframe_eq (op : Nat → Nat → Nat) (call : Nat → SampleBlock → ExtCall) (s : State) (d j : Nat) :
    reframe op call s (d, j) =
      { s with
        blk := { s.blk with x := (ExtPort.drawSamples (op s.blk.n d) s.ext).1, n := op s.blk.n d, fs := op s.blk.fs d }
        ext := { (ExtPort.drawSamples (op s.blk.n d) s.ext).2 with calls := s.ext.calls ++ [call j s.blk] } } :=
  congrArg (fun u : State => u.setRate _ _) (s.ask_eq _ _)

/-- The answers are drawn from the port one after the other, each as long as the block it makes, and the calls are recorded. -/
theorem foldl_reframe (h1 : ∀ v, op v 1 = v) (hmul : ∀ v d e, op (op v d) e = op v (d * e)) (steps : List (Nat × Nat)) (s : State) :
    ∃ answers : List (List Sample), AnswersFit (rateAfter op (steps.map Prod.fst)) steps.length s.blk.n answers ∧
      answers.flatten = (ExtPort.drawSamples answers.flatten.length s.ext).1 ∧
      steps.foldl (reframe op call) s =
        framed s call (steps.map Prod.snd) (rateAfter op (steps.map Prod.fst)) answers
          (ExtPort.drawSamples answers.flatten.length s.ext).2 := by
  induction steps generalizing s with
  | nil =>
    refine ⟨[], ⟨rfl, by simp⟩, rfl, ?_⟩
    simp [framed, framedBlock, rateAfter, h1, ExtPort.drawSamples]
  | cons p steps ih =>
    obtain ⟨d, j⟩ := p
    have hzero (v : Nat) : rateAfter op (d :: steps.map Prod.fst) 0 v = v := h1 v
    have hsucc (k v : Nat) : rateAfter op (d :: steps.map Prod.fst) (k + 1) v = rateAfter op (steps.map Prod.fst) k (op v d) := by
      simp [rateAfter, hmul]
    obtain ⟨answers, ⟨hlen, hfit⟩, hdraw, hstate⟩ := ih (reframe op call s (d, j))
    rw [reframe_eq] at hfit hdraw hstate
    simp only [drawSamples_setCalls] at hdraw hstate
    refine ⟨(ExtPort.drawSamples (op s.blk.n d) s.ext).1 :: answers, ⟨by simp [hlen], ?_⟩, ?_, ?_⟩
    · intro k a ha
      cases k with
      | zero =>
        obtain rfl := Option.some.inj ha
        simp [rateAfter]
      | succ k => exact (hfit k a ha).trans (hsucc (k + 1) _).symm
    · simpa [drawSamples_add] using hdraw
    · simp [reframe_eq, hstate, framed, framedBlock, drawSamples_add, hzero, hsucc]

/-! ### The four framing stages -/

/-- What a framing stage does, `order` being the indices of its calls and `rate` the lengths and rates between them: for the answers the
port gives, and for the answers of a feed that holds them. -/
def Frames (s : State) (i : Instr) (call : Nat → SampleBlock → ExtCall) (order : List Nat) (rate : Nat → Nat → Nat) : Prop :=
  (∃ answers, AnswersFit rate order.length s.blk.n answers ∧
    answers.flatten = (ExtPort.drawSamples answers.flatten.length s.ext).1 ∧
    exec i s = .next (framed s call order rate answers (ExtPort.drawSamples answers.flatten.length s.ext).2).advance) ∧
  ∀ (answers : List (List Sample)) (rest : List F32), AnswersFit rate order.length s.blk.n answers →
    s.ext.feed = answers.flatten.flatMap (fun z => [z.i, z.q]) ++ rest →
    exec i s = .next (framed s call order rate answers { s.ext with feed := rest }).advance

/-- A feed that holds the answers is the port that gives them. -/
theorem frames_of_port {i : Instr} {order : List Nat} {rate : Nat → Nat → Nat}
    (h : ∃ answers, AnswersFit rate order.length s.blk.n answers ∧
      answers.flatten = (ExtPort.drawSamples answers.flatten.length s.ext).1 ∧
      exec i s = .next (framed s call order rate answers (ExtPort.drawSamples answers.flatten.length s.ext).2).advance) :
    Frames s i call order rate := by
  refine ⟨h, fun answers rest hfit hfeed => ?_⟩
  obtain ⟨drawn, hdrawn, hflat, hexec⟩ := h
  have hport : ExtPort.drawSamples answers.flatten.length s.ext = (answers.flatten, { s.ext with feed := rest }) := by
    have hext : s.ext = { s.ext with feed := answers.flatten.flatMap (fun z => [z.i, z.q]) ++ rest } := by rw [← hfeed]
    rw [hext]
    exact drawSamples_feed _ _ _ _
  have hlen := hdrawn.map_length_eq hfit
  have hcount : drawn.flatten.length = answers.flatten.length := by rw [List.length_flatten, List.length_flatten, hlen]
  obtain rfl : drawn = answers := List.eq_iff_flatten_eq.mpr ⟨by rw [hflat, hcount, hport], hlen⟩
  rw [hexec, hport]

/-- A stage that is such a fold frames the block. -/
theorem frames_of_foldl {i : Instr} (h1 : ∀ v, op v 1 = v) (hmul : ∀ v d e, op (op v d) e = op v (d * e)) (steps : List (Nat × Nat))
    {order : List Nat} {rate : Nat → Nat → Nat} (horder : steps.map Prod.snd = order)
    (hrate : rateAfter op (steps.map Prod.fst) = rate)
    (hexec : exec i s = .next (steps.foldl (reframe op call) s).advance) : Frames s i call order rate := by
  subst horder hrate
  obtain ⟨answers, hfit, hdraw, hfold⟩ := foldl_reframe (call := call) h1 hmul steps s
  exact frames_of_port ⟨answers, by rwa [List.length_map], hdraw, by rw [hexec, hfold]⟩

theorem frames_decim {i : Instr} {ds : List Nat} (hexec : exec i s = .next (decimStages call 0 ds s).advance) :
    Frames s i call (List.range ds.length) fun k v => v / (ds.take k).prod :=
  frames_of_foldl (op := (· / ·)) Nat.div_one Nat.div_div_eq_div_mul (ds.zipIdx 0)
    (by rw [List.zipIdx_map_snd, List.range_eq_range']) (by rw [List.zipIdx_map_fst]; rfl)
    (by rw [hexec, decimStages_eq_foldl])

theorem frames_interp {i : Instr} {ds : List Nat} (hexec : exec i s = .next (interpStages call 0 ds s).advance) :
    Frames s i call (List.range ds.length).reverse fun k v => v * (ds.drop (ds.length - k)).prod := by
  refine frames_of_foldl (op := (· * ·)) Nat.mul_one Nat.mul_assoc (ds.zipIdx 0).reverse ?_ ?_ (by rw [hexec, interpStages_eq_foldl])
  · rw [List.map_reverse, List.zipIdx_map_snd, List.range_eq_range']
  · funext k v
    rw [List.map_reverse, List.zipIdx_map_fst, rateAfter, List.take_reverse, List.prod_reverse]

/-- Settles O37: each stage is a fold of one call per factor, over the factors in order or in reverse. -/
theorem framingStages : Obligations.FramingStages := by
  unfold Obligations.FramingStages
  intro frames s down up
  exact ⟨frames_decim rfl, frames_interp rfl, frames_decim rfl, frames_interp rfl⟩

end Sys2Proof.Machine

/-! PROOFS. 41_gain_iq_correction.md: RF gain and IQ correction (R171, R173 to R176; 10_state.md R29, R33; 70_reset_and_hazards.md R332,
R333). -/

namespace Sys2Proof

/-! ### The zeros of either sign -/

variable {x y : F32}

theorem F32.eq_zeroOf (h : x.isZero = true) : ∃ s, x = F32.zeroOf s := by
  cases x with
  | fin s m => exact ⟨s, congrArg (F32.fin s) (Fin.ext (by simpa [F32.isZero] using h))⟩
  | inf s => cases h
  | nan s k => cases h

theorem F32.val_zeroOf (s : Bool) : (F32.zeroOf s).val = 0 := by cases s <;> rfl

theorem F32.zeroOf_not_lt_zero (s : Bool) : (F32.zeroOf s).lt F32.zero = false := by cases s <;> decide

theorem F32.zeroOf_div_twenty (s : Bool) : (F32.zeroOf s).div F32.twenty = F32.zeroOf s := by cases s <;> decide

/-- The product of a zero and a finite number lies between `+0` and `+0`, so it is a zero. -/
theorem F32.zeroOf_mul_finite (s : Bool) (hy : y.isFinite = true) :
    ((F32.zeroOf s).mul y).isFinite = true ∧ ((F32.zeroOf s).mul y).val = 0 := by
  have hexact : (F32.zeroOf s).val * y.val = F32.zero.val * 2 ^ 149 := by
    rw [F32.val_zeroOf, Machine.val_zero, Int.zero_mul, Int.zero_mul]
  have hle := F32.mul_le (a := F32.zeroOf s) rfl hy Machine.zero_finite hexact.le
  have hge := F32.le_mul (a := F32.zeroOf s) rfl hy Machine.zero_finite hexact.ge
  have hfin := F32.isFinite_of_between Machine.zero_finite Machine.zero_finite hge hle
  refine ⟨hfin, Int.le_antisymm ?_ ?_⟩
  · exact (F32.le_iff_val hfin Machine.zero_finite).mp hle
  · exact (F32.le_iff_val Machine.zero_finite hfin).mp hge

/-- Adding a zero keeps the exact value of a finite number; the sign of a zero may change (`-0 + +0` is `+0`). -/
theorem F32.add_val_zero (hx : x.isFinite = true) (hy : y.isFinite = true) (hzero : y.val = 0) :
    (x.add y).isFinite = true ∧ (x.add y).le x = true ∧ x.le (x.add y) = true := by
  have hexact : x.val + y.val = x.val := by rw [hzero, Int.add_zero]
  have hle := F32.add_le hx hy hx hexact.le
  have hge := F32.le_add hx hy hx hexact.ge
  exact ⟨F32.isFinite_of_between hx hx hge hle, hle, hge⟩

theorem Par.pow10_of_isZero (par : Par) (h : x.isZero = true) : par.pow10 x = F32.one := if_pos h

end Sys2Proof

namespace Sys2Proof.Machine

variable {s : State}

/-! ### The active band -/

theorem whenBand_of_lt {ports : Ports} {par : Par} (r : Result) (h : ports.activeBand < par.numBands) :
    whenBand (ports.bandInRange par) r = r := if_pos (decide_eq_true h)

theorem whenBand_of_le {ports : Ports} {par : Par} (r : Result) (h : par.numBands ≤ ports.activeBand) :
    whenBand (ports.bandInRange par) r = .refused .bandOutOfRange :=
  if_neg fun hlt => Nat.not_lt.mpr h (of_decide_eq_true hlt)

/-! ### RF gain (R171) -/

theorem exec_rfgain_of_lt (hb : s.lat.activeBand < s.par.numBands) :
    exec .rfgain s =
      .next (s.mapSamples (Sample.scale (combinedGain s.par s.lat.rfGainAllBandsDb s.lat.activeEntry.rfGainDb))).advance :=
  whenBand_of_lt _ hb

/-- Zero dB of either sign twice is the factor 1.0. -/
theorem combinedGain_of_isZero (par : Par) {allBandsDb bandDb : F32} (ha : allBandsDb.isZero = true)
    (hb : bandDb.isZero = true) : combinedGain par allBandsDb bandDb = F32.one := by
  obtain ⟨sa, rfl⟩ := F32.eq_zeroOf ha
  obtain ⟨sb, rfl⟩ := F32.eq_zeroOf hb
  rw [combinedGain, F32.zeroOf_div_twenty, F32.zeroOf_div_twenty, par.pow10_of_isZero ha, par.pow10_of_isZero hb]
  exact F32.mul_one rfl

/-- Settles O29: the equation of the stage, the factor 1.0 in it, and the test of the active band. -/
theorem rfGainScalesBothChannels : Obligations.RfGainScalesBothChannels := by
  intro s e g
  refine ⟨exec_rfgain_of_lt, fun hb hall hband hnan => ?zeroDb, whenBand_of_le _⟩
  case zeroDb =>
    have hgain : combinedGain s.par s.lat.rfGainAllBandsDb s.lat.activeEntry.rfGainDb = F32.one :=
      combinedGain_of_isZero s.par hall hband
    rw [exec_rfgain_of_lt hb, hgain, mapSamples_scale_one hnan]
    rfl

/-! ### IQ correction (R173 to R176) -/

/-- The mark of a register under its `written` bit. -/
theorem markIf_unwritten (s : State) (written : Bool) (m : Mark) :
    s.markIf (!written) m = { s with marks := if written then s.marks else s.marks ++ [m] } := by
  cases written <;> rfl

theorem exec_iqcorr_of_lt (hb : s.lat.activeBand < s.par.numBands) :
    exec .iqcorr s =
      .next ((s.markIqc s.lat.activeBand).mapSamples
        (iqCorrect (s.cfg.iqPair s.lat.activeBand).amp (s.cfg.iqPair s.lat.activeBand).phase)).advance :=
  whenBand_of_lt _ hb

/-- A phase factor that is not below zero mixes Q into I alone. -/
theorem iqCorrect_of_not_lt {amp phase : F32} (h : phase.lt F32.zero = false) (z : Sample) :
    iqCorrect amp phase z = { i := (z.i.mul amp).add (phase.mul z.q), q := z.q } := if_neg (by rw [h]; decide)

/-- The factors 1.0 and zero add a zero to I and leave Q alone. -/
theorem iqCorrect_one_zero {phase : F32} (hphase : phase.isZero = true) {z : Sample} (hi : z.i.isFinite = true)
    (hq : z.q.isFinite = true) :
    let c := iqCorrect F32.one phase z
    c.q = z.q ∧ c.i.isFinite = true ∧ c.i.le z.i = true ∧ z.i.le c.i = true := by
  obtain ⟨sg, rfl⟩ := F32.eq_zeroOf hphase
  have hnan : z.i.isNaN = false := by
    obtain ⟨s, m, hz⟩ := F32.finite_cases hi
    rw [hz]
    rfl
  obtain ⟨hfin, hval⟩ := F32.zeroOf_mul_finite sg hq
  rw [iqCorrect_of_not_lt (F32.zeroOf_not_lt_zero sg), F32.mul_one hnan]
  exact ⟨rfl, F32.add_val_zero hi hfin hval⟩

/-- Settles O30: the equation of the stage, the factors 1.0 and zero in it, and the test of the active band. -/
theorem iqCorrectionMixesOneWay : Obligations.IqCorrectionMixesOneWay := by
  intro s e corrected
  have hcorrected : corrected = iqCorrect e.amp e.phase := rfl
  refine ⟨fun hb => ?corrects, fun hamp hphase z hi hq => ?identity, whenBand_of_le _⟩
  case corrects =>
    rw [exec_iqcorr_of_lt hb, State.markIqc, markIf_unwritten]
    rfl
  case identity =>
    rw [hcorrected, hamp]
    exact iqCorrect_one_zero hphase hi hq

end Sys2Proof.Machine

/-! PROOFS. 42_frequency_translation.md: the quarter-rate shift and the fine-tune oscillator (R181, R182, R184, R186; 10_state.md R29, R56;
70_reset_and_hazards.md R347, R348; 90_conflicts.md C2). -/

namespace Sys2Proof

/-! ### Where NaNs and infinities come from -/

variable {x y : F32}

theorem F32.isNaN_nanResult (op : FloatOp) (a b : F32) : (F32.nanResult op a b).isNaN = true := rfl

theorem F32.isNaN_add_right (x : F32) (hy : y.isNaN = true) : (x.add y).isNaN = true := by
  cases y with
  | nan s k => cases x <;> exact F32.isNaN_nanResult ..
  | fin s m => cases hy
  | inf s => cases hy

theorem F32.isNaN_mul_right (x : F32) (hy : y.isNaN = true) : (x.mul y).isNaN = true := by
  cases y with
  | nan s k => cases x <;> exact F32.isNaN_nanResult ..
  | fin s m => cases hy
  | inf s => cases hy

theorem F32.isNaN_div_left (hx : x.isNaN = true) (y : F32) : (x.div y).isNaN = true := by
  cases x with
  | nan s k => exact F32.isNaN_nanResult ..
  | fin s m => cases hx
  | inf s => cases hx

/-- Adding a finite number makes no NaN. -/
theorem F32.add_not_nan (hx : x.isNaN = false) (hy : y.isFinite = true) : (x.add y).isNaN = false := by
  cases x with
  | nan s k => cases hx
  | inf s =>
    obtain ⟨t, n, rfl⟩ := F32.finite_cases hy
    rfl
  | fin s m =>
    obtain ⟨t, ⟨-, h⟩ | ⟨-, h⟩⟩ := F32.add_finite (a := .fin s m) rfl hy
    · rw [h]; rfl
    · rw [h]; exact F32.round_isNaN ..

/-- Subtracting a finite number makes no NaN. -/
theorem F32.sub_not_nan (hx : x.isNaN = false) (hy : y.isFinite = true) : (x.sub y).isNaN = false := by
  cases x with
  | nan s k => cases hx
  | inf s =>
    obtain ⟨t, n, rfl⟩ := F32.finite_cases hy
    rfl
  | fin s m =>
    rw [F32.sub_eq_add_neg rfl hy]
    exact F32.add_not_nan rfl (by rwa [F32.isFinite_neg])

theorem F32.eq_inf (hf : x.isFinite = false) (hn : x.isNaN = false) : ∃ s, x = .inf s := by
  cases x with
  | inf s => exact ⟨s, rfl⟩
  | fin s m => cases hf
  | nan s k => cases hn

theorem F32.add_inf (hx : x.isFinite = true) (s : Bool) : x.add (.inf s) = .inf s := by
  obtain ⟨t, m, rfl⟩ := F32.finite_cases hx
  rfl

theorem F32.inf_div (s : Bool) (hy : y.isFinite = true) : ∃ t, (F32.inf s).div y = .inf t := by
  obtain ⟨t, m, rfl⟩ := F32.finite_cases hy
  exact ⟨s ^^ t, rfl⟩

end Sys2Proof

namespace Sys2Proof.Machine

variable {s : State} {par : Par} {k : Nat} {x y theta theta' dtheta last : F32} {z : Sample} {zs ys : List Sample}

/-! ### QSHIFT (R181, R182) -/

theorem exec_qshift (s : State) : exec .qshift s = .next (s.setSamples (s.blk.x.mapIdx quarterTurn)).advance := rfl

theorem quarterTurn_of_mod_zero (z : Sample) (h : k % 4 = 0) : quarterTurn k z = z := by
  simp only [quarterTurn, h]

theorem quarterTurn_of_mod_one (z : Sample) (h : k % 4 = 1) : quarterTurn k z = { i := z.q, q := z.i.neg } := by
  simp only [quarterTurn, h]

theorem quarterTurn_of_mod_two (z : Sample) (h : k % 4 = 2) : quarterTurn k z = { i := z.i.neg, q := z.q.neg } := by
  simp only [quarterTurn, h]

theorem quarterTurn_of_mod_three (z : Sample) (h : k % 4 = 3) : quarterTurn k z = { i := z.q.neg, q := z.i } := by
  simp only [quarterTurn, h]

/-- Twice the factor of sample `k` is 1 for even `k` and -1 for odd `k`. -/
theorem quarterTurn_twice (k : Nat) (z : Sample) :
    quarterTurn k (quarterTurn k z) = if k % 2 = 0 then z else { i := z.i.neg, q := z.q.neg } := by
  obtain h | h | h | h : k % 4 = 0 ∨ k % 4 = 1 ∨ k % 4 = 2 ∨ k % 4 = 3 := by omega
  · rw [if_pos (by omega), quarterTurn_of_mod_zero _ h, quarterTurn_of_mod_zero _ h]
  · rw [if_neg (by omega), quarterTurn_of_mod_one _ h, quarterTurn_of_mod_one _ h]
  · rw [if_pos (by omega), quarterTurn_of_mod_two _ h, quarterTurn_of_mod_two _ h]
    simp only [F32.neg_neg]
  · rw [if_neg (by omega), quarterTurn_of_mod_three _ h, quarterTurn_of_mod_three _ h]

theorem getElem?_mapIdx_quarterTurn (h : zs[k]? = some z) : (zs.mapIdx quarterTurn)[k]? = some (quarterTurn k z) := by
  rw [List.getElem?_mapIdx, h]
  rfl

/-- Settles O31: the block of turned samples, sample by sample. -/
theorem quarterShiftPattern : Obligations.QuarterShiftPattern := by
  intro s
  refine ⟨s.blk.x.mapIdx quarterTurn, List.length_mapIdx, exec_qshift s, fun k z hz => ?_⟩
  rw [getElem?_mapIdx_quarterTurn hz]
  exact ⟨fun h => congrArg some (quarterTurn_of_mod_zero z h), fun h => congrArg some (quarterTurn_of_mod_one z h),
    fun h => congrArg some (quarterTurn_of_mod_two z h), fun h => congrArg some (quarterTurn_of_mod_three z h)⟩

/-- Settles O32: each sample is turned twice by the same factor. -/
theorem quarterShiftTwice : Obligations.QuarterShiftTwice := by
  intro s t u hst htu
  rw [exec_qshift] at hst htu
  obtain rfl := Host.Outcome.next.inj hst
  obtain rfl := Host.Outcome.next.inj htu
  simp only [State.advance_blk, State.setSamples_blk, List.length_mapIdx, true_and]
  intro k z hz
  rw [getElem?_mapIdx_quarterTurn (getElem?_mapIdx_quarterTurn hz), quarterTurn_twice]

/-! ### WRAP2PI makes no NaN -/

theorem wrapDown_not_nan (hx : x.isNaN = false) (h : wrapDown k x = some y) : y.isNaN = false := by
  induction k generalizing x with
  | zero => cases h
  | succ k ih =>
    unfold wrapDown at h
    split at h
    · split at h
      · cases h
      · exact ih (F32.sub_not_nan hx twoPi_finite) h
    · cases h
      exact hx

theorem wrapUp_not_nan (hx : x.isNaN = false) (h : wrapUp k x = some y) : y.isNaN = false := by
  induction k generalizing x with
  | zero => cases h
  | succ k ih =>
    unfold wrapUp at h
    split at h
    · split at h
      · cases h
      · exact ih (F32.add_not_nan hx twoPi_finite) h
    · cases h
      exact hx

theorem wrap2pi_not_nan (hx : x.isNaN = false) (h : wrap2pi x = some y) : y.isNaN = false := by
  obtain ⟨w, hw, hy⟩ := Option.bind_eq_some_iff.mp h
  exact wrapUp_not_nan (wrapDown_not_nan hx hw) hy

/-! ### The loop of FSHIFT -/

/-- The first sample hangs the loop where its wrap does not end. -/
theorem fshiftLoop_cons_none (hw : wrap2pi (theta.add dtheta) = none) : fshiftLoop par dtheta theta (z :: zs) = none := by
  rw [fshiftLoop, hw]

/-- The first sample is rotated by the phase it meets; the others meet the wrapped phase. -/
theorem fshiftLoop_cons (hw : wrap2pi (theta.add dtheta) = some theta')
    (htail : fshiftLoop par dtheta theta' zs = some (ys, last)) :
    fshiftLoop par dtheta theta (z :: zs) = some (rotate par theta z :: ys, last) := by
  simp only [fshiftLoop, hw, htail]

theorem fshiftLoop_cons_some (h : fshiftLoop par dtheta theta (z :: zs) = some (ys, last)) :
    ∃ theta' tail, wrap2pi (theta.add dtheta) = some theta' ∧ fshiftLoop par dtheta theta' zs = some (tail, last) := by
  cases hw : wrap2pi (theta.add dtheta) with
  | none => rw [fshiftLoop_cons_none hw] at h; cases h
  | some theta' =>
    cases htail : fshiftLoop par dtheta theta' zs with
    | none => simp only [fshiftLoop, hw, htail, reduceCtorEq] at h
    | some r =>
      rw [fshiftLoop_cons hw htail] at h
      cases h
      exact ⟨theta', r.1, rfl, htail⟩

/-- Along a list of phases, each the wrap of the one before plus the step, the loop rotates sample by sample and leaves the last phase. -/
theorem fshiftLoop_of_phases {phases : List F32} (hlen : phases.length = zs.length)
    (hwrap : ∀ (k : Nat) (a b : F32), (theta :: phases)[k]? = some a → (theta :: phases)[k + 1]? = some b →
      wrap2pi (a.add dtheta) = some b) :
    ∃ last, (theta :: phases)[zs.length]? = some last ∧
      fshiftLoop par dtheta theta zs = some (List.zipWith (rotate par) (theta :: phases) zs, last) := by
  induction zs generalizing theta phases with
  | nil => exact ⟨theta, rfl, rfl⟩
  | cons z zs ih =>
    cases phases with
    | nil => cases hlen
    | cons theta' phases =>
      obtain ⟨last, hlast, htail⟩ := ih (Nat.succ.inj hlen) fun k => hwrap (k + 1)
      exact ⟨last, hlast, fshiftLoop_cons (hwrap 0 theta theta' rfl rfl) htail⟩

/-- From a number, by a finite step, the oscillator comes to a number. -/
theorem fshiftLoop_not_nan (htheta : theta.isNaN = false) (hd : dtheta.isFinite = true)
    (h : fshiftLoop par dtheta theta zs = some (ys, last)) : last.isNaN = false := by
  induction zs generalizing theta ys with
  | nil => cases h; exact htheta
  | cons z zs ih =>
    obtain ⟨theta', tail, hw, htail⟩ := fshiftLoop_cons_some h
    exact ih (wrap2pi_not_nan (F32.add_not_nan htheta hd) hw) htail

/-- A NaN step makes the phase a NaN at the first sample; a NaN wraps at once, so the loop ends. -/
theorem fshiftLoop_of_nan_step (hd : dtheta.isNaN = true) (hzs : zs ≠ []) :
    ∃ ys last, fshiftLoop par dtheta theta zs = some (ys, last) ∧ last.isNaN = true := by
  induction zs generalizing theta with
  | nil => exact absurd rfl hzs
  | cons z zs ih =>
    have hnan : (theta.add dtheta).isNaN = true := F32.isNaN_add_right theta hd
    by_cases hnil : zs = []
    · subst hnil
      exact ⟨_, _, fshiftLoop_cons (wrap2pi_nan hnan) rfl, hnan⟩
    · obtain ⟨ys, last, htail, hlast⟩ := ih (theta := theta.add dtheta) hnil
      exact ⟨_, last, fshiftLoop_cons (wrap2pi_nan hnan) htail, hlast⟩

/-! ### FSHIFT (R184, R186) -/

theorem exec_fshift_of_some
    (h : fshiftLoop s.par (phaseStep s.lat.fineFreqHz s.blk.fs) s.nco s.blk.x = some (ys, theta)) :
    exec .fshift s = .next ((s.setSamples ys).setNco theta).advance := by
  show execFshift s = _
  rw [execFshift, h]

theorem exec_fshift_of_none (h : fshiftLoop s.par (phaseStep s.lat.fineFreqHz s.blk.fs) s.nco s.blk.x = none) :
    exec .fshift s = .fault .wrapDoesNotEnd := by
  show execFshift s = _
  rw [execFshift, h]

theorem phaseStep_nan {f : F32} (hf : f.isNaN = true) (fs : Nat) : (phaseStep f fs).isNaN = true :=
  F32.isNaN_div_left (F32.isNaN_mul_right _ hf) _

theorem phaseStep_inf (sg : Bool) {fs : Nat} (hfs : (F32.ofNat fs).isFinite = true) : ∃ t, phaseStep (.inf sg) fs = .inf t := by
  have hmul : F32.twoPiF.mul (.inf sg) = .inf sg := by cases sg <;> decide
  rw [phaseStep, hmul]
  exact F32.inf_div sg hfs

/-- Settles O33: the loop along the given phases. -/
theorem fineShiftRotates : Obligations.FineShiftRotates := by
  intro s theta hlen hfirst hwrap
  cases theta with
  | nil => cases hfirst
  | cons first phases =>
    obtain rfl : first = s.nco := Option.some.inj hfirst
    obtain ⟨last, hlast, hloop⟩ := fshiftLoop_of_phases (par := s.par) (Nat.succ.inj hlen) hwrap
    refine ⟨_, last, ?length, hlast, exec_fshift_of_some hloop, fun k z a hz ha => ?rotates⟩
    case length => simp only [List.length_zipWith, hlen, Nat.min_eq_right (Nat.le_succ _)]
    case rotates =>
      rw [List.getElem?_zipWith, ha, hz]
      rfl

/-- A step of at most one turn from a phase in range ends in range. -/
theorem exec_fshift_ends (hlegal : PhaseLegal s.nco) (hnum : s.nco.isNaN = false)
    (hstep : (phaseStep s.lat.fineFreqHz s.blk.fs).abs.le F32.twoPiF = true) :
    ∃ t, exec .fshift s = .next t ∧ t.nco.isNaN = false ∧ PhaseLegal t.nco := by
  obtain ⟨⟨ys, last⟩, hloop⟩ := Option.ne_none_iff_exists'.mp (fshiftLoop_ends s.par s.blk.x hlegal hstep)
  refine ⟨_, exec_fshift_of_some hloop, fshiftLoop_not_nan hnum (abs_le_twoPi hstep).1 hloop, ?_⟩
  rcases (fshiftLoop_some hloop).2 with ⟨-, rfl⟩ | h
  · exact hlegal
  · exact h

/-- An infinite offset takes the phase to an infinity at the first sample, whose wrap does not end. -/
theorem exec_fshift_hangs (hx : s.blk.x ≠ []) (hnco : s.nco.isFinite = true) (hfs : (F32.ofNat s.blk.fs).isFinite = true)
    (hinf : s.lat.fineFreqHz.isFinite = false) (hnum : s.lat.fineFreqHz.isNaN = false) :
    exec .fshift s = .fault .wrapDoesNotEnd := by
  obtain ⟨sg, hf⟩ := F32.eq_inf hinf hnum
  obtain ⟨t, hstep⟩ := phaseStep_inf sg hfs
  obtain ⟨z, zs, hzs⟩ := List.exists_cons_of_ne_nil hx
  refine exec_fshift_of_none ?_
  rw [hf, hstep, hzs]
  exact fshiftLoop_cons_none (by rw [F32.add_inf hnco, wrap2pi_inf])

/-- Settles O34: the three kinds of offset. -/
theorem fineShiftEndsOrHangs : Obligations.FineShiftEndsOrHangs := by
  intro s
  refine ⟨fun hlegal hnum hoff => ?ends, exec_fshift_hangs, fun hx hnan => ?nan⟩
  case ends =>
    rcases hoff with ⟨hbelow, hfs⟩ | hstep
    · exact exec_fshift_ends hlegal hnum (phaseStep_le_turn hbelow hfs)
    · exact exec_fshift_ends hlegal hnum hstep
  case nan =>
    obtain ⟨ys, last, hloop, hlast⟩ := fshiftLoop_of_nan_step (phaseStep_nan hnan _) hx
    exact ⟨_, exec_fshift_of_some hloop, hlast⟩

end Sys2Proof.Machine

/-! PROOFS. 43_agc.md, one sample of the AGC: the stage as one record, the transition table (R201 to R215, R219), the clamp (R213). -/

namespace Sys2Proof.Machine

variable {s t : State} {a b : AgcState} {par : Par} {fs : Nat} {z : Sample} {zs : List Sample}

/-! ### The stage (R200 to R202) -/

/-- The state the active AGC leaves. -/
def State.afterAgc (s : State) : State :=
  { s with
    blk := { s.blk with x := (agcLoop s.par s.agc s.blk.x).2 }
    agc := (agcLoop s.par s.agc s.blk.x).1
    seq := { s.seq with sp := s.seq.sp + 1 }
    marks := if s.cfg.agcWritten then s.marks else s.marks ++ [.agcUnwritten] }

theorem exec_agc_active (hmode : s.cfg.agcMode ≠ 0) : exec .agc s = .next s.afterAgc := by
  refine (if_neg hmode).trans ?_
  rw [State.markAgc, markIf_unwritten]
  rfl

/-- Settles O42: the mark and the map over the samples. -/
theorem agcOffIsFixedGain : Obligations.AgcOffIsFixedGain := by
  intro s hmode
  refine (if_pos hmode).trans ?_
  rw [State.markAgc, markIf_unwritten]
  rfl

/-- Settles O44: the loop over the appended samples. -/
theorem agcCarriesAcrossBlocks : Obligations.AgcCarriesAcrossBlocks := by
  intro s xs ys hmode hx
  refine ⟨_, _, _, exec_agc_active hmode, exec_agc_active hmode, exec_agc_active hmode, ?state, ?samples, ?length⟩
  case state => simp only [State.afterAgc, hx, agcLoop_append]
  case samples => simp only [State.afterAgc, hx, agcLoop_append]
  case length => exact agcLoop_length ..

/-! ### The transition rule of each state (R208 to R212) -/

theorem agcTransition_attack (h : a.state = .attack) :
    agcTransition a =
      if a.ringMax.ge a.volts then a.moved a.p.attackMult
      else if a.volts.gt (a.p.popRatio.mul a.fastBack) then { a.moved a.p.fastDecayMult with state := .fastDecay }
      else if a.p.hangEnable && a.hangBack.gt a.p.hangLevel then
        { a with state := .hang, hangCounter := a.p.hangSamples, decayHang := true }
      else { a.moved a.p.decayMult with state := .normalDecay, decayHang := false } := by
  rw [agcTransition, h]

theorem agcTransition_fastDecay (h : a.state = .fastDecay) :
    agcTransition a =
      if a.ringMax.ge a.volts then { a.moved a.p.attackMult with state := .attack }
      else if a.volts.gt a.saveVolts then a.moved a.p.fastDecayMult
      else if 0 < a.hangCounter then { a with state := .hang }
      else if a.decayHang then { a.moved a.p.hangDecayMult with state := .hangDecay }
      else { a.moved a.p.decayMult with state := .normalDecay } := by
  rw [agcTransition, h]

theorem agcTransition_hang (h : a.state = .hang) :
    agcTransition a =
      if a.ringMax.ge a.volts then agcRegrow a
      else if a.hangCounter = 0 then { a.moved a.p.hangDecayMult with state := .hangDecay }
      else a := by
  rw [agcTransition, h]

theorem agcTransition_normalDecay (h : a.state = .normalDecay) :
    agcTransition a = if a.ringMax.ge a.volts then agcRegrow a else a.moved a.p.decayMult := by
  rw [agcTransition, h]

theorem agcTransition_hangDecay (h : a.state = .hangDecay) :
    agcTransition a = if a.ringMax.ge a.volts then agcRegrow a else a.moved a.p.hangDecayMult := by
  rw [agcTransition, h]

/-- The decay states are left for state 0 alone. -/
theorem agcTransition_decay_state (h : a.state = .normalDecay ∨ a.state = .hangDecay) :
    (agcTransition a).state = .attack ∨ (agcTransition a).state = a.state := by
  rcases h with h | h
  · rw [agcTransition_normalDecay h]
    split
    · exact .inl rfl
    · exact .inr rfl
  · rw [agcTransition_hangDecay h]
    split
    · exact .inl rfl
    · exact .inr rfl

/-- Settles O45: each row is a branch of its state's rule. -/
theorem agcTransitionTable : Obligations.AgcTransitionTable := by
  refine ⟨fun a => ?rows, fun a h => ?decays, fun a h => ?entersHang⟩
  case rows =>
    intro g moved pop hang above
    refine ⟨fun hs => ?attack, fun hs => ?fastDecay, fun hs => ?hang, fun hs => ?normalDecay, fun hs => ?hangDecay⟩
    case attack =>
      have hhang : hang ↔ (a.p.hangEnable && a.hangBack.gt a.p.hangLevel) = true := Bool.and_eq_true_iff.symm
      rw [agcTransition_attack hs]
      exact ⟨fun hg => if_pos hg, fun hg hp => (if_neg hg).trans (if_pos hp),
        fun hg hp hh => (if_neg hg).trans ((if_neg hp).trans (if_pos (hhang.mp hh))),
        fun hg hp hh => (if_neg hg).trans ((if_neg hp).trans (if_neg (mt hhang.mpr hh)))⟩
    case fastDecay =>
      have hcount : a.hangCounter = 0 → ¬ 0 < a.hangCounter := fun h => by omega
      rw [agcTransition_fastDecay hs]
      exact ⟨fun hg => if_pos hg, fun hg hv => (if_neg hg).trans (if_pos hv),
        fun hg hv hc => (if_neg hg).trans ((if_neg hv).trans (if_pos hc)),
        fun hg hv hc hd =>
          (if_neg hg).trans ((if_neg hv).trans ((if_neg (hcount hc)).trans (if_neg (Bool.eq_false_iff.mp hd)))),
        fun hg hv hc hd => (if_neg hg).trans ((if_neg hv).trans ((if_neg (hcount hc)).trans (if_pos hd)))⟩
    case hang =>
      rw [agcTransition_hang hs]
      exact ⟨fun hg => if_pos hg, fun hg hc => (if_neg hg).trans (if_pos hc),
        fun hg hc => (if_neg hg).trans (if_neg (Nat.pos_iff_ne_zero.mp hc))⟩
    case normalDecay =>
      rw [agcTransition_normalDecay hs]
      exact ⟨fun hg => if_pos hg, fun hg => if_neg hg⟩
    case hangDecay =>
      rw [agcTransition_hangDecay hs]
      exact ⟨fun hg => if_pos hg, fun hg => if_neg hg⟩
  case decays =>
    rcases agcTransition_decay_state h with ha | ha
    · simp [ha]
    · rcases h with h | h <;> simp [ha, h]
  case entersHang =>
    cases hs : a.state with
    | attack => simp
    | fastDecay => simp
    | hang => simp
    | normalDecay => rcases agcTransition_decay_state (.inl hs) with ha | ha <;> simp [h, hs] at ha
    | hangDecay => rcases agcTransition_decay_state (.inr hs) with ha | ha <;> simp [h, hs] at ha

/-! ### The state that meets the transition rule (S1 to S5) -/

/-- The attack window, oldest slot first: the slots after the read index (R206). -/
def AgcState.attackWindow (a : AgcState) : List RingSlot :=
  (List.range a.p.attackLen).map fun d => ringRead a.ring ((a.outIndex + (d + 1)) % a.p.ringSize)

/-- The slot an arriving sample fills. -/
def arrivingSlot (p : AgcParams) (z : Sample) : RingSlot := { i := z.i, q := z.q, m := magnitude p z }

/-- The slot that leaves the window in the next sample. -/
def AgcState.leaving (a : AgcState) : RingSlot := ringRead a.ring (ringNext a.p.ringSize a.outIndex)

/-- S3 to S5 from the magnitudes that leave and arrive and those in the window. -/
def agcLevels (a : AgcState) (mOut mIn : F32) (mags : List F32) : AgcState :=
  { a with
    fastBack := backAverage a.p.fastBackmult mOut a.fastBack
    hangBack := backAverage a.p.hangBackmult mOut a.hangBack
    ringMax := raisePeak (if mOut.ge a.ringMax then mags.foldl raisePeak F32.zero else a.ringMax) mIn
    hangCounter := a.hangCounter - 1 }

/-- S1 and S2: the arriving sample is in the ring. -/
def agcArrived (a : AgcState) (z : Sample) : AgcState := agcArrive (agcAdvance a) z

/-- S1 to S5. -/
def agcMeasured (a : AgcState) (z : Sample) : AgcState :=
  agcLevels (agcArrived a z) a.leaving.m (magnitude a.p z) ((agcArrived a z).attackWindow.map RingSlot.m)

theorem windowMags_eq (a : AgcState) :
    windowMags a.ring a.p.ringSize a.outIndex a.p.attackLen = a.attackWindow.map RingSlot.m := by
  rw [AgcState.attackWindow, List.map_map]
  rfl

/-- A sample is its measurement, the transition rule and the clamp; the leaving slot is scaled by the gain of the new envelope. -/
theorem agcSample_eq (par : Par) (a : AgcState) (z : Sample) :
    agcSample par a z =
      (agcClamp (agcTransition (agcMeasured a z)),
        Sample.scale (agcMultiplier par a.p (agcClamp (agcTransition (agcMeasured a z))).volts)
          { i := a.leaving.i, q := a.leaving.q }) := by
  have hmeasured : agcMeasured a z =
      agcCount (agcPeak (agcAverages (agcArrived a z) a.leaving.m) a.leaving.m (magnitude a.p z)) := by
    rw [agcMeasured, ← windowMags_eq]
    rfl
  have hp : (agcClamp (agcTransition (agcMeasured a z))).p = a.p := agcTransition_p _
  rw [← hp, hmeasured]
  rfl

theorem agcSample_fst (par : Par) (a : AgcState) (z : Sample) :
    (agcSample par a z).1 = agcClamp (agcTransition (agcMeasured a z)) := congrArg Prod.fst (agcSample_eq par a z)

/-- Settles O43: the run over one sample, its scan of the window and its count written as R206 and R207 write them. -/
theorem agcOneSample : Obligations.AgcOneSample := by
  intro s z hmode hx p out arr del mIn ring scanned peak a volts mult
  have hscan : ((agcArrived s.agc z).attackWindow.map RingSlot.m).foldl raisePeak F32.zero = scanned := by
    rw [AgcState.attackWindow, List.foldl_map, List.foldl_map]
    rfl
  have hcount : s.agc.hangCounter - 1 = if 0 < s.agc.hangCounter then s.agc.hangCounter - 1 else 0 := by
    split <;> omega
  have ha : agcTransition (agcMeasured s.agc z) = a := by
    rw [agcMeasured, agcLevels, hscan, show (agcArrived s.agc z).hangCounter - 1 = _ from hcount]
    rfl
  have hp : a.p = p := agcTransition_p _
  have hloop : agcLoop s.par s.agc s.blk.x =
      ({ a with volts := volts, agcAction := !a.volts.lt p.minVolts }, [{ i := del.i.mul mult, q := del.q.mul mult }]) := by
    rw [hx, agcLoop, agcLoop, agcSample_eq, ha, agcClamp, hp]
    rfl
  rw [exec_agc_active hmode, State.afterAgc, hloop]

/-! ### The clamp (R213) -/

theorem agcClamp_of_lt (h : a.volts.lt a.p.minVolts = true) :
    agcClamp a = { a with volts := a.p.minVolts, agcAction := false } := by
  rw [agcClamp, clampVolts, if_pos h, actionFlag, h]
  rfl

/-- A cleared flag says that the clamp was applied. -/
theorem agcClamp_of_flag (h : (agcClamp a).agcAction = false) : (agcClamp a).volts = a.p.minVolts :=
  if_pos (by simpa [agcClamp, actionFlag] using h)

theorem agcSample_flag (h : (agcSample par a z).1.agcAction = false) : (agcSample par a z).1.volts = a.p.minVolts := by
  rw [agcSample_fst] at h ⊢
  exact (agcClamp_of_flag h).trans (congrArg AgcParams.minVolts (agcTransition_p _))

/-- A non-empty block ends with a sample. -/
theorem agcLoop_last (par : Par) (a : AgcState) (h : zs ≠ []) :
    ∃ b z, (agcLoop par a zs).1 = (agcSample par b z).1 := by
  obtain rfl | ⟨xs, z, rfl⟩ := List.eq_nil_or_concat zs
  · exact absurd rfl h
  · exact ⟨_, z, by rw [List.concat_eq_append, agcLoop_append]; rfl⟩

/-- Settles O46: the floor and the flag of the last sample. -/
theorem agcFloorAndFlag : Obligations.AgcFloorAndFlag := by
  intro s t hmode hx h
  rw [exec_agc_active hmode] at h
  obtain rfl := Host.Outcome.next.inj h
  obtain ⟨b, z, hlast⟩ := agcLoop_last s.par s.agc hx
  have hagc : s.afterAgc.agc = (agcSample s.par b z).1 := hlast
  rw [hagc, agcSample_p]
  exact ⟨agcSample_floor s.par b z, agcSample_flag⟩

end Sys2Proof.Machine

/-! PROOFS. 43_agc.md, the attack window as a delay line: what leaves it, the output delay, the other fields, the running peak and silence
(R217, R218, R220, R222; 10_state.md R42 to R44, R47). -/

namespace Sys2Proof

/-! ### What R42 says of a profile -/

variable {p : AgcParams} {fs : Nat} {x y : F32}

theorem AgcParams.wf_lengths (h : p.wf fs = true) : 1 ≤ p.attackLen ∧ p.attackLen ≤ p.ringSize := by
  simp only [AgcParams.wf, Bool.and_eq_true, decide_eq_true_eq] at h
  omega

theorem AgcParams.wf_minVolts (h : p.wf fs = true) : p.minVolts.isFinite = true ∧ F32.zero.lt p.minVolts = true := by
  simp only [AgcParams.wf, F32.isPositive, F32.gt, Bool.and_eq_true] at h
  tauto

theorem AgcParams.wf_fastBackmult (h : p.wf fs = true) : p.fastBackmult.inUnit = true := by
  simp only [AgcParams.wf, Bool.and_eq_true] at h
  tauto

theorem AgcParams.wf_popRatio (h : p.wf fs = true) : p.popRatio.isFinite = true := by
  simp only [AgcParams.wf, F32.isNonneg, Bool.and_eq_true] at h
  tauto

/-! ### Zeros under sums and products -/

theorem F32.eq_zeroOf_of_val (hx : x.isFinite = true) (hval : x.val = 0) : ∃ s, x = F32.zeroOf s := by
  obtain ⟨s, m, rfl⟩ := F32.finite_cases hx
  refine ⟨s, congrArg (F32.fin s) (Fin.ext ?_)⟩
  have hunits : F32.units m.val = 0 := by cases s <;> simpa [F32.val, F32.signed] using hval
  by_contra hm
  have := F32.units_pos (Nat.pos_of_ne_zero hm)
  omega

theorem F32.mul_comm_of_finite (hx : x.isFinite = true) (hy : y.isFinite = true) : x.mul y = y.mul x := by
  obtain ⟨s, m, rfl⟩ := F32.finite_cases hx
  obtain ⟨t, n, rfl⟩ := F32.finite_cases hy
  rw [F32.mul_fin, F32.mul_fin, Bool.xor_comm, Nat.mul_comm]

/-- A finite number times a zero is a zero. -/
theorem F32.mul_val_zero (hx : x.isFinite = true) (hy : y.isFinite = true) (hval : y.val = 0) :
    (x.mul y).isFinite = true ∧ (x.mul y).val = 0 := by
  obtain ⟨s, rfl⟩ := F32.eq_zeroOf_of_val hy hval
  rw [F32.mul_comm_of_finite hx hy]
  exact F32.zeroOf_mul_finite s hx

/-- The complement of a fraction is finite. -/
theorem F32.one_sub_finite (hx : x.inUnit = true) : (F32.one.sub x).isFinite = true := by
  simp only [F32.inUnit, Bool.and_eq_true] at hx
  obtain ⟨⟨hfin, hlo⟩, hhi⟩ := hx
  have hone : F32.one.isFinite = true := by decide
  have hneg : x.neg.isFinite = true := by rwa [F32.isFinite_neg]
  have h0 := (F32.le_iff_val Machine.zero_finite hfin).mp hlo
  have h1 := (F32.le_iff_val hfin hone).mp hhi
  rw [Machine.val_zero] at h0
  rw [F32.sub_eq_add_neg hone hfin]
  refine F32.isFinite_of_between Machine.zero_finite hone (F32.le_add hone hneg Machine.zero_finite ?_)
    (F32.add_le hone hneg hone ?_)
  · rw [Machine.val_zero, F32.val_neg]; omega
  · rw [F32.val_neg]; omega

/-! ### The largest of a list of magnitudes -/

/-- A number above zero is the only one of its place in the order. -/
theorem F32.eq_pack_of_rank {r : Int} (h : x.rank = some r) (hr : 0 < r) : x = F32.pack false r.toNat := by
  cases x with
  | fin s m =>
    have hs : s = false := by cases s <;> simp [F32.rank] at h ⊢; omega
    subst hs
    obtain rfl : (m.val : Int) = r := Option.some.inj h
    rw [Int.toNat_natCast, F32.pack, dif_pos m.isLt]
  | inf s =>
    have hs : s = false := by cases s <;> simp [F32.rank] at h ⊢; omega
    subst hs
    obtain rfl : (2139095040 : Int) = r := Option.some.inj h
    rfl
  | nan s k => cases h

theorem F32.eq_of_le_of_le (hpos : F32.zero.lt x = true) (hxy : x.le y = true) (hyx : y.le x = true) : x = y := by
  obtain ⟨z, r, hz, hr, hzr⟩ := F32.lt_iff.mp hpos
  obtain rfl : 0 = z := Option.some.inj hz
  obtain ⟨r₁, u, hr₁, hu, hru⟩ := F32.le_iff.mp hxy
  obtain ⟨u₁, r₂, hu₁, hr₂, hur⟩ := F32.le_iff.mp hyx
  obtain rfl : r = r₁ := Option.some.inj (hr.symm.trans hr₁)
  obtain rfl : r = r₂ := Option.some.inj (hr.symm.trans hr₂)
  obtain rfl : u = u₁ := Option.some.inj (hu.symm.trans hu₁)
  obtain rfl : r = u := Int.le_antisymm hru hur
  rw [F32.eq_pack_of_rank hr hzr, ← F32.eq_pack_of_rank hu hzr]

end Sys2Proof

namespace Sys2Proof.Machine

variable {s : State} {a b : AgcState} {par : Par} {p : AgcParams} {mode fs : Nat} {z : Sample} {zs : List Sample}
  {peak peak' m : F32} {ms : List F32}

/-! ### What one sample and a run do to the window (R204, R206) -/

/-- Two places of a ring, one window apart at most, are different slots. -/
theorem add_mod_ne {x i j size : Nat} (hij : i < j) (hji : j < i + size) : (x + i) % size ≠ (x + j) % size := fun h => by
  have hdvd : size ∣ j - i := (Nat.modEq_iff_dvd' hij.le).mp (Nat.ModEq.add_left_cancel' x h)
  have := Nat.le_of_dvd (by omega) hdvd
  omega

/-- A sample takes the oldest slot out of the window and puts its own in at the end. -/
theorem attackWindow_agcArrived (h : a.Legal fs) (z : Sample) :
    a.leaving :: (agcArrived a z).attackWindow = a.attackWindow ++ [arrivingSlot a.p z] := by
  obtain ⟨hpos, hle⟩ := AgcParams.wf_lengths h.profile
  obtain ⟨n, hn⟩ : ∃ n, a.p.attackLen = n + 1 := ⟨a.p.attackLen - 1, by omega⟩
  have hplace (d : Nat) : (ringNext a.p.ringSize a.outIndex + (d + 1)) % a.p.ringSize =
      (a.outIndex + (d + 2)) % a.p.ringSize := by
    rw [ringNext, Nat.mod_add_mod]; congr 1; omega
  have hin : ringNext a.p.ringSize a.inIndex = (a.outIndex + (n + 2)) % a.p.ringSize := by
    rw [ringNext, h.distance, Nat.mod_add_mod, hn]
    rfl
  have hnew : ringRead (agcArrived a z).ring ((a.outIndex + (n + 2)) % a.p.ringSize) = arrivingSlot a.p z := by
    rw [← hin]
    exact ringRead_ringWrite_same ..
  have hold (d : Nat) (hd : d < n) : ringRead (agcArrived a z).ring ((a.outIndex + (d + 2)) % a.p.ringSize) =
      ringRead a.ring ((a.outIndex + (d + 2)) % a.p.ringSize) := by
    refine ringRead_ringWrite_other _ _ ?_
    show _ ≠ ringNext a.p.ringSize a.inIndex
    rw [hin]
    exact add_mod_ne (by omega) (by omega)
  have hwindow : (agcArrived a z).attackWindow = (List.range n).map
      (fun d => ringRead a.ring ((a.outIndex + (d + 2)) % a.p.ringSize)) ++ [arrivingSlot a.p z] := by
    show (List.range a.p.attackLen).map
      (fun d => ringRead (agcArrived a z).ring ((ringNext a.p.ringSize a.outIndex + (d + 1)) % a.p.ringSize)) = _
    rw [hn, List.range_succ, List.map_append, List.map_singleton, hplace, hnew]
    congr 1
    refine List.map_congr_left fun d hd => ?_
    rw [hplace, hold d (List.mem_range.mp hd)]
  rw [hwindow, AgcState.attackWindow, hn, List.range_succ_eq_map, List.map_cons, List.map_map]
  rfl

/-- The window begins with the slot that leaves. -/
theorem attackWindow_cons (h : a.Legal fs) (z : Sample) :
    ∃ rest, a.attackWindow = a.leaving :: rest ∧ (agcArrived a z).attackWindow = rest ++ [arrivingSlot a.p z] := by
  have harrived := attackWindow_agcArrived h z
  cases hw : a.attackWindow with
  | nil =>
    have hlen : a.attackWindow.length = a.p.attackLen := by rw [AgcState.attackWindow, List.length_map, List.length_range]
    have := (AgcParams.wf_lengths h.profile).1
    rw [hw, List.length_nil] at hlen
    omega
  | cons r rest =>
    rw [hw, List.cons_append, List.cons.injEq] at harrived
    exact ⟨rest, by rw [harrived.1], harrived.2⟩

theorem attackWindow_agcSample (par : Par) (a : AgcState) (z : Sample) :
    (agcSample par a z).1.attackWindow = (agcArrived a z).attackWindow := by
  simp only [AgcState.attackWindow, agcSample_p, agcSample_ring, agcSample_outIndex]
  rfl

/-- After a run the window is the end of the old window and the samples that have arrived. -/
theorem attackWindow_agcLoop (par : Par) (h : a.Legal fs) (zs : List Sample) :
    (agcLoop par a zs).1.attackWindow = (a.attackWindow ++ zs.map (arrivingSlot a.p)).drop zs.length := by
  induction zs generalizing a with
  | nil => simp [agcLoop]
  | cons z zs ih =>
    have hw := attackWindow_agcArrived h z
    rw [← attackWindow_agcSample par] at hw
    calc (agcLoop par (agcSample par a z).1 zs).1.attackWindow
        = ((agcSample par a z).1.attackWindow ++ zs.map (arrivingSlot a.p)).drop zs.length := by
          rw [ih (agcSample_legal par a z h), agcSample_p]
      _ = (a.attackWindow ++ (z :: zs).map (arrivingSlot a.p)).drop (z :: zs).length := by
          rw [List.map_cons, List.append_cons, ← hw]
          rfl

/-- The reset fills the window with zeros (10_state.md R47). -/
theorem attackWindow_agcReset (hmode : mode ≠ 0) (p : AgcParams) :
    (agcReset mode p).attackWindow = List.replicate p.attackLen RingSlot.zero := by
  have hread (j : Nat) : ringRead (agcReset mode p).ring j = RingSlot.zero := by
    rw [agcReset, if_neg hmode]
    exact bankRead_replicate ..
  simp only [AgcState.attackWindow, hread, List.map_const', List.length_range]
  rfl

/-! ### The group delay (R217) -/

/-- The slots come out in the order in which they stand in the window and then arrive, each times one number. -/
theorem agcLoop_delays (par : Par) (h : a.Legal fs) {k : Nat} {w : Sample} (hw : (agcLoop par a zs).2[k]? = some w) :
    ∃ (m : F32) (r : RingSlot), (a.attackWindow ++ zs.map (arrivingSlot a.p))[k]? = some r ∧
      w = { i := r.i.mul m, q := r.q.mul m } := by
  induction zs generalizing a k with
  | nil => cases hw
  | cons z zs ih =>
    have hslots : a.attackWindow ++ (z :: zs).map (arrivingSlot a.p) =
        a.leaving :: ((agcSample par a z).1.attackWindow ++ zs.map (arrivingSlot (agcSample par a z).1.p)) := by
      rw [attackWindow_agcSample, agcSample_p, ← List.cons_append, attackWindow_agcArrived h, List.map_cons, ← List.append_cons]
    rw [hslots]
    cases k with
    | zero =>
      obtain ⟨m, hm⟩ := agcSample_out par a z
      exact ⟨m, a.leaving, rfl, (Option.some.inj hw).symm.trans hm⟩
    | succ k => exact ih (agcSample_legal par a z h) hw

/-- Settles O47: the window of the reset is all zeros, and the samples of the block follow. -/
theorem agcGroupDelay : Obligations.AgcGroupDelay := by
  intro s mode fs p hmode hwf hcfg hagc
  refine ⟨_, exec_agc_active (hcfg ▸ hmode), agcLoop_length .., fun k w hk => ?_⟩
  have hk' : (agcLoop s.par (agcReset mode p) s.blk.x).2[k]? = some w := hagc ▸ hk
  obtain ⟨m, r, hr, hw⟩ := agcLoop_delays s.par (agcReset_legal hmode hwf) hk'
  rw [attackWindow_agcReset hmode] at hr
  refine ⟨m, fun hlt => ?zeros, fun hge => ?delayed⟩
  case zeros =>
    rw [List.getElem?_append_left (by rwa [List.length_replicate]), List.getElem?_replicate_of_lt hlt] at hr
    obtain rfl := Option.some.inj hr
    exact hw
  case delayed =>
    rw [List.getElem?_append_right (by rwa [List.length_replicate]), List.length_replicate, List.getElem?_map,
      Option.map_eq_some_iff] at hr
    obtain ⟨z, hz, rfl⟩ := hr
    exact ⟨z, hz, hw⟩

/-! ### The fields outside the ring (R218) -/

/-- Forget the ring, its size and the two indices. -/
def AgcState.withoutRing (a : AgcState) : AgcState :=
  { a with p := { a.p with ringSize := 0 }, ring := [], outIndex := 0, inIndex := 0 }

theorem AgcState.fields_of_withoutRing (h : a.withoutRing = b.withoutRing) :
    a.state = b.state ∧ a.volts = b.volts ∧ a.fastBack = b.fastBack ∧ a.hangBack = b.hangBack ∧ a.ringMax = b.ringMax ∧
      a.hangCounter = b.hangCounter ∧ a.saveVolts = b.saveVolts ∧ a.decayHang = b.decayHang ∧ a.agcAction = b.agcAction := by
  simp only [AgcState.withoutRing, AgcState.mk.injEq] at h
  tauto

/-- The transition rule does not look at the ring. -/
theorem agcTransition_withoutRing (a : AgcState) : (agcTransition a).withoutRing = agcTransition a.withoutRing := by
  have hstate : a.withoutRing.state = a.state := rfl
  cases hs : a.state with
  | attack =>
    rw [agcTransition_attack hs, agcTransition_attack (hstate.trans hs)]
    simp only [apply_ite AgcState.withoutRing]
    rfl
  | fastDecay =>
    rw [agcTransition_fastDecay hs, agcTransition_fastDecay (hstate.trans hs)]
    simp only [apply_ite AgcState.withoutRing]
    rfl
  | hang =>
    rw [agcTransition_hang hs, agcTransition_hang (hstate.trans hs)]
    simp only [apply_ite AgcState.withoutRing]
    rfl
  | normalDecay =>
    rw [agcTransition_normalDecay hs, agcTransition_normalDecay (hstate.trans hs), apply_ite AgcState.withoutRing]
    rfl
  | hangDecay =>
    rw [agcTransition_hangDecay hs, agcTransition_hangDecay (hstate.trans hs), apply_ite AgcState.withoutRing]
    rfl

/-- Two states with equal windows and equal fields outside the ring. -/
structure AgcState.Alike (a b : AgcState) : Prop where
  window : a.attackWindow = b.attackWindow
  rest : a.withoutRing = b.withoutRing

/-- The part of the measurement outside the ring is made from that part and the window. -/
theorem agcMeasured_withoutRing (a : AgcState) (z : Sample) :
    (agcMeasured a z).withoutRing =
      agcLevels a.withoutRing a.leaving.m (magnitude a.withoutRing.p z) ((agcArrived a z).attackWindow.map RingSlot.m) := rfl

/-- The output is made from the leaving slot and the part outside the ring. -/
theorem agcSample_alike {fs' : Nat} (par : Par) (ha : a.Legal fs) (hb : b.Legal fs') (h : a.Alike b) (z : Sample) :
    (agcSample par a z).1.Alike (agcSample par b z).1 ∧ (agcSample par a z).2 = (agcSample par b z).2 := by
  have hslot : arrivingSlot a.p z = arrivingSlot b.p z := congrArg (fun c => arrivingSlot c.p z) h.rest
  have hcons := attackWindow_agcArrived ha z
  rw [h.window, hslot, ← attackWindow_agcArrived hb z, List.cons.injEq] at hcons
  obtain ⟨hleaving, hwindow⟩ := hcons
  have hmeasured : (agcMeasured a z).withoutRing = (agcMeasured b z).withoutRing := by
    rw [agcMeasured_withoutRing, agcMeasured_withoutRing, h.rest, hleaving, hwindow]
  have hclamp : (agcClamp (agcTransition (agcMeasured a z))).withoutRing =
      (agcClamp (agcTransition (agcMeasured b z))).withoutRing := by
    show agcClamp (agcTransition (agcMeasured a z)).withoutRing = agcClamp (agcTransition (agcMeasured b z)).withoutRing
    rw [agcTransition_withoutRing, agcTransition_withoutRing, hmeasured]
  have hvolts := congrArg AgcState.volts hclamp
  refine ⟨⟨?window, ?rest⟩, ?output⟩
  case window => rw [attackWindow_agcSample, attackWindow_agcSample, hwindow]
  case rest => rw [agcSample_fst, agcSample_fst, hclamp]
  case output =>
    have hgain (v : F32) : agcMultiplier par a.p v = agcMultiplier par b.p v :=
      congrArg (fun c => agcMultiplier par c.p v) h.rest
    rw [agcSample_eq, agcSample_eq, hgain, hleaving]
    exact congrArg (fun v => Sample.scale (agcMultiplier par b.p v) _) hvolts

theorem agcLoop_alike {fs' : Nat} (par : Par) (ha : a.Legal fs) (hb : b.Legal fs') (h : a.Alike b) (zs : List Sample) :
    (agcLoop par a zs).1.Alike (agcLoop par b zs).1 ∧ (agcLoop par a zs).2 = (agcLoop par b zs).2 := by
  induction zs generalizing a b with
  | nil => exact ⟨h, rfl⟩
  | cons z zs ih =>
    obtain ⟨hnext, hout⟩ := agcSample_alike par ha hb h z
    obtain ⟨hlast, houts⟩ := ih (agcSample_legal par a z ha) (agcSample_legal par b z hb) hnext
    exact ⟨hlast, congrArg₂ List.cons hout houts⟩

theorem agcReset_alike (hmode : mode ≠ 0) (p : AgcParams) (size : Nat) :
    (agcReset mode p).Alike (agcReset mode { p with ringSize := size }) where
  window := by rw [attackWindow_agcReset hmode, attackWindow_agcReset hmode]
  rest := rfl

/-- Settles O48: the two resets are alike, and every sample keeps that. -/
theorem agcRingSizeIndependent : Obligations.AgcRingSizeIndependent := by
  intro s mode fs size p hmode hcfg hwf hwf'
  have hactive : s.cfg.agcMode ≠ 0 := hcfg ▸ hmode
  refine ⟨_, _, exec_agc_active hactive, exec_agc_active hactive, ?_⟩
  obtain ⟨⟨-, hrest⟩, hout⟩ :=
    agcLoop_alike s.par (agcReset_legal hmode hwf) (agcReset_legal hmode hwf') (agcReset_alike hmode p size) s.blk.x
  exact ⟨congrArg (fun x => { s.blk with x := x }) hout, AgcState.fields_of_withoutRing hrest⟩

/-! ### The running peak (R220) -/

/-- `peak` is the largest of `+0` and the magnitudes `ms`, and `+0` where none is above it. -/
structure IsPeak (peak : F32) (ms : List F32) : Prop where
  attained : peak = F32.zero ∨ (F32.zero.lt peak = true ∧ peak ∈ ms)
  upper : ∀ m ∈ ms, m.le peak = true

theorem isPeak_nil : IsPeak F32.zero [] := ⟨.inl rfl, by simp⟩

theorem IsPeak.not_nan (h : IsPeak peak ms) : peak.isNaN = false := by
  rcases h.attained with rfl | ⟨hpos, -⟩
  · rfl
  · exact (F32.isNaN_of_lt hpos).2

theorem IsPeak.nonneg (h : IsPeak peak ms) : F32.zero.le peak = true := by
  rcases h.attained with rfl | ⟨hpos, -⟩
  · decide
  · exact F32.le_of_lt hpos

theorem raisePeak_of_le (h : m.le peak = true) : raisePeak peak m = peak :=
  if_neg (by rw [F32.gt, F32.not_lt_of_le h]; decide)

theorem IsPeak.raise (h : IsPeak peak ms) (hm : m.isNaN = false) : IsPeak (raisePeak peak m) (ms ++ [m]) := by
  cases hgt : peak.lt m with
  | false =>
    have hle : m.le peak = true := F32.le_of_not_lt hm h.not_nan hgt
    rw [raisePeak_of_le hle]
    refine ⟨h.attained.imp_right fun ⟨hpos, hmem⟩ => ⟨hpos, List.mem_append_left _ hmem⟩, fun x hx => ?_⟩
    rcases List.mem_append.mp hx with hx | hx
    · exact h.upper x hx
    · rwa [List.mem_singleton.mp hx]
  | true =>
    have hraise : raisePeak peak m = m := if_pos hgt
    rw [hraise]
    refine ⟨.inr ⟨F32.lt_of_le_of_lt h.nonneg hgt, by simp⟩, fun x hx => ?_⟩
    rcases List.mem_append.mp hx with hx | hx
    · exact F32.le_of_lt (F32.lt_of_le_of_lt (h.upper x hx) hgt)
    · rw [List.mem_singleton.mp hx]
      exact F32.le_refl hm

theorem IsPeak.foldl (h : IsPeak peak ms) {ns : List F32} (hn : ∀ m ∈ ns, m.isNaN = false) :
    IsPeak (ns.foldl raisePeak peak) (ms ++ ns) := by
  induction ns generalizing peak ms with
  | nil => rwa [List.append_nil]
  | cons n ns ih =>
    rw [List.append_cons]
    exact ih (h.raise (hn n List.mem_cons_self)) fun m hm => hn m (List.mem_cons_of_mem n hm)

/-- A scan of the whole window finds the peak. -/
theorem isPeak_scan (h : ∀ m ∈ ms, m.isNaN = false) : IsPeak (ms.foldl raisePeak F32.zero) ms := isPeak_nil.foldl h

theorem IsPeak.unique (h : IsPeak peak ms) (h' : IsPeak peak' ms) : peak = peak' := by
  have hzero {x y : F32} (hx : IsPeak x ms) (hy : IsPeak y ms) (he : x = F32.zero) : y = F32.zero := by
    refine hy.attained.resolve_right fun ⟨hpos, hmem⟩ => ?_
    have := F32.not_lt_of_le (hx.upper y hmem)
    rw [he, hpos] at this
    cases this
  rcases h.attained with he | ⟨hpos, hmem⟩
  · rw [he, hzero h h' he]
  · rcases h'.attained with he' | ⟨-, hmem'⟩
    · rw [he', hzero h' h he']
    · exact F32.eq_of_le_of_le hpos (h'.upper _ hmem) (h.upper _ hmem')

/-- S4 keeps the peak while the window moves on by one magnitude: it scans where the peak may have left. -/
theorem IsPeak.move {mOut : F32} (h : IsPeak peak (mOut :: ms)) (hnum : ∀ x ∈ mOut :: (ms ++ [m]), x.isNaN = false) :
    IsPeak (raisePeak (if mOut.ge peak then (ms ++ [m]).foldl raisePeak F32.zero else peak) m) (ms ++ [m]) := by
  obtain ⟨hout, hnew⟩ := List.forall_mem_cons.mp hnum
  have hm : m ∈ ms ++ [m] := by simp
  split
  · have hscan := isPeak_scan hnew
    rwa [raisePeak_of_le (hscan.upper m hm)]
  · rename_i hge
    have hne : peak ≠ mOut := fun he => hge (he.symm ▸ F32.le_refl hout)
    have hkept : IsPeak peak ms :=
      ⟨h.attained.imp_right fun ⟨hpos, hmem⟩ => ⟨hpos, (List.mem_cons.mp hmem).resolve_left hne⟩,
        fun x hx => h.upper x (List.mem_cons_of_mem mOut hx)⟩
    exact hkept.raise (hnew m hm)

/-- The running peak is the peak of a window of numbers. -/
structure AgcState.Peaked (a : AgcState) : Prop where
  peak : IsPeak a.ringMax (a.attackWindow.map RingSlot.m)
  numbers : ∀ m ∈ a.attackWindow.map RingSlot.m, m.isNaN = false

theorem agcSample_ringMax (par : Par) (a : AgcState) (z : Sample) :
    (agcSample par a z).1.ringMax = (agcMeasured a z).ringMax := by
  rw [agcSample_fst]
  exact agcTransition_ringMax _

theorem agcReset_peaked (hmode : mode ≠ 0) (p : AgcParams) : (agcReset mode p).Peaked := by
  have hnum : ∀ m ∈ (agcReset mode p).attackWindow.map RingSlot.m, m.isNaN = false := by
    rw [attackWindow_agcReset hmode, List.map_replicate]
    intro m hm
    rw [List.eq_of_mem_replicate hm]
    rfl
  refine ⟨⟨.inl rfl, ?_⟩, hnum⟩
  rw [attackWindow_agcReset hmode, List.map_replicate]
  intro m hm
  rw [List.eq_of_mem_replicate hm]
  exact F32.le_refl rfl

theorem agcSample_peaked (par : Par) (h : a.Legal fs) (hp : a.Peaked) (hz : (magnitude a.p z).isNaN = false) :
    (agcSample par a z).1.Peaked := by
  obtain ⟨rest, hold, hnew⟩ := attackWindow_cons h z
  obtain ⟨hpeak, hnum⟩ := hp
  rw [hold, List.map_cons] at hpeak hnum
  have hmags : (agcArrived a z).attackWindow.map RingSlot.m = rest.map RingSlot.m ++ [magnitude a.p z] := by
    rw [hnew, List.map_append]
    rfl
  have hnum' : ∀ x ∈ a.leaving.m :: (rest.map RingSlot.m ++ [magnitude a.p z]), x.isNaN = false := by
    intro x hx
    rw [← List.cons_append] at hx
    rcases List.mem_append.mp hx with hx | hx
    · exact hnum x hx
    · rwa [List.mem_singleton.mp hx]
  have hmoved := hpeak.move hnum'
  rw [← hmags] at hmoved hnum'
  refine ⟨?peak, ?numbers⟩
  case peak =>
    rw [agcSample_ringMax, attackWindow_agcSample]
    exact hmoved
  case numbers =>
    rw [attackWindow_agcSample]
    exact fun x hx => hnum' x (List.mem_cons_of_mem _ hx)

theorem agcLoop_peaked (par : Par) (h : a.Legal fs) (hp : a.Peaked) (hz : ∀ z ∈ zs, (magnitude a.p z).isNaN = false) :
    (agcLoop par a zs).1.Peaked := by
  induction zs generalizing a with
  | nil => exact hp
  | cons z zs ih =>
    obtain ⟨hfirst, hrest⟩ := List.forall_mem_cons.mp hz
    exact ih (agcSample_legal par a z h) (agcSample_peaked par h hp hfirst) (by rwa [agcSample_p])

/-- Settles O49: the peak of the window, which holds the most recent magnitudes. -/
theorem agcPeakIsWindowMax : Obligations.AgcPeakIsWindowMax := by
  intro s mode fs p hmode hwf hcfg hagc hnum
  refine ⟨_, exec_agc_active (hcfg ▸ hmode), ?_⟩
  show (agcLoop s.par s.agc s.blk.x).1.ringMax = List.foldl raisePeak F32.zero _
  rw [hagc]
  have hlegal := agcReset_legal hmode hwf
  obtain ⟨hpeak, hnumbers⟩ := agcLoop_peaked s.par hlegal (agcReset_peaked hmode p) hnum
  rw [hpeak.unique (isPeak_scan hnumbers), attackWindow_agcLoop s.par hlegal, attackWindow_agcReset hmode, List.map_drop,
    List.map_append, List.map_replicate, List.map_map]
  rfl

/-! ### Silence (R222) -/

/-- The all-zero sample. -/
def Sample.silence : Sample := { i := F32.zero, q := F32.zero }

theorem arrivingSlot_silence (p : AgcParams) : arrivingSlot p Sample.silence = RingSlot.zero := by
  have hmag : magnitude p Sample.silence = F32.zero := by
    unfold magnitude
    split
    · decide
    · decide
  rw [arrivingSlot, hmag]
  rfl

/-- A back-average of zeros is a zero. -/
theorem backAverage_zero {mult : F32} (h : mult.inUnit = true) :
    (backAverage mult F32.zero F32.zero).isFinite = true ∧ (backAverage mult F32.zero F32.zero).val = 0 := by
  have hmult : mult.isFinite = true := by
    simp only [F32.inUnit, Bool.and_eq_true] at h
    exact h.1.1
  obtain ⟨hfin, hval⟩ := F32.mul_val_zero hmult zero_finite val_zero
  obtain ⟨hfin', hval'⟩ := F32.mul_val_zero (F32.one_sub_finite h) zero_finite val_zero
  obtain ⟨hsum, hle, hge⟩ := F32.add_val_zero hfin hfin' hval'
  refine ⟨hsum, Int.le_antisymm ?_ ?_⟩
  · exact hval ▸ (F32.le_iff_val hsum hfin).mp hle
  · exact hval ▸ (F32.le_iff_val hfin hsum).mp hge

/-- The floor is above the pop threshold of a silent back-average. -/
theorem pop_of_silence (h : p.wf fs = true) :
    p.minVolts.gt (p.popRatio.mul (backAverage p.fastBackmult F32.zero F32.zero)) = true := by
  obtain ⟨hmin, hpos⟩ := AgcParams.wf_minVolts h
  obtain ⟨hfin, hval⟩ := backAverage_zero (AgcParams.wf_fastBackmult h)
  obtain ⟨hprod, hzero⟩ := F32.mul_val_zero (AgcParams.wf_popRatio h) hfin hval
  have := (F32.lt_iff_val zero_finite hmin).mp hpos
  rw [val_zero] at this
  exact (F32.lt_iff_val hprod hmin).mpr (by rwa [hzero])

/-- AgcState on silence: zeros in the window, the envelope at its floor, and a controller that takes the fast-decay step next. -/
structure AgcState.Silent (a : AgcState) : Prop where
  window : a.attackWindow = List.replicate a.p.attackLen RingSlot.zero
  peaked : a.Peaked
  envelope : a.volts = a.p.minVolts
  saved : a.saveVolts = F32.zero
  control : a.state = .fastDecay ∨ (a.state = .attack ∧ a.fastBack = F32.zero)

theorem agcReset_silent (hmode : mode ≠ 0) (p : AgcParams) : (agcReset mode p).Silent :=
  ⟨attackWindow_agcReset hmode p, agcReset_peaked hmode p, rfl, rfl, .inr ⟨rfl, rfl⟩⟩

/-- The peak of a window of zeros is `+0`. -/
theorem AgcState.Peaked.ringMax_of_zeros {n : Nat} (h : a.Peaked) (hw : a.attackWindow = List.replicate n RingSlot.zero) :
    a.ringMax = F32.zero := by
  rcases h.peak.attained with he | ⟨-, hmem⟩
  · exact he
  · rw [hw, List.map_replicate] at hmem
    exact List.eq_of_mem_replicate hmem

/-- A silent sample leaves zeros in the window, and a zero leaves it. -/
theorem AgcState.Silent.arrived (h : a.Silent) (hl : a.Legal fs) :
    a.leaving = RingSlot.zero ∧
      (agcArrived a Sample.silence).attackWindow = List.replicate a.p.attackLen RingSlot.zero := by
  have hcons := attackWindow_agcArrived hl Sample.silence
  rwa [h.window, arrivingSlot_silence, ← List.replicate_succ', List.replicate_succ, List.cons.injEq] at hcons

/-- Without regrowth the fast-decay step is taken from state 1 above the saved envelope and from state 0 above the pop threshold
(rows 0 to 1 and 1 to 1 of R219). -/
theorem agcTransition_fastDecayStep (hgrow : ¬ a.ringMax.ge a.volts = true)
    (h : (a.state = .fastDecay ∧ a.volts.gt a.saveVolts = true) ∨
      (a.state = .attack ∧ a.volts.gt (a.p.popRatio.mul a.fastBack) = true)) :
    agcTransition a = { a.moved a.p.fastDecayMult with state := .fastDecay } := by
  rcases h with ⟨hs, habove⟩ | ⟨hs, hpop⟩
  · rw [agcTransition_fastDecay hs, if_neg hgrow, if_pos habove, ← hs]
    rfl
  · rw [agcTransition_attack hs, if_neg hgrow, if_pos hpop]

/-- On silence the step is taken from the floor. -/
theorem AgcState.Silent.transition (h : a.Silent) (hl : a.Legal fs) (hmax : (agcMeasured a Sample.silence).ringMax = F32.zero) :
    let t := agcTransition (agcMeasured a Sample.silence)
    t.state = .fastDecay ∧ t.saveVolts = F32.zero ∧ t.volts = toward a.p.minVolts F32.zero a.p.fastDecayMult := by
  have hvolts : (agcMeasured a Sample.silence).volts = a.p.minVolts := h.envelope
  have hsaved : (agcMeasured a Sample.silence).saveVolts = F32.zero := h.saved
  have hback : (agcMeasured a Sample.silence).fastBack = backAverage a.p.fastBackmult a.leaving.m a.fastBack := rfl
  have hpos := (AgcParams.wf_minVolts hl.profile).2
  have hgrow : ¬ (agcMeasured a Sample.silence).ringMax.ge (agcMeasured a Sample.silence).volts = true := fun hge => by
    rw [hmax, hvolts] at hge
    rw [F32.not_lt_of_le hge] at hpos
    cases hpos
  have hstep := agcTransition_fastDecayStep hgrow <| h.control.imp
    (fun hs => ⟨hs, by rwa [hvolts, hsaved]⟩)
    (fun ⟨hs, hfast⟩ => ⟨hs, by
      rw [hvolts, hback, (h.arrived hl).1, hfast]
      exact pop_of_silence hl.profile⟩)
  rw [hstep]
  refine ⟨rfl, hsaved, ?_⟩
  rw [AgcState.moved, hmax, hvolts]
  rfl

/-- A silent sample keeps silence: the step below the floor is clamped. -/
theorem AgcState.Silent.sample (par : Par) (h : a.Silent) (hl : a.Legal fs)
    (hdrop : (toward a.p.minVolts F32.zero a.p.fastDecayMult).lt a.p.minVolts = true) :
    (agcSample par a Sample.silence).1.Silent ∧ (agcSample par a Sample.silence).1.state = .fastDecay ∧
      (agcSample par a Sample.silence).1.agcAction = false := by
  have hwindow := (attackWindow_agcSample par a Sample.silence).trans (h.arrived hl).2
  have hpeaked : (agcSample par a Sample.silence).1.Peaked := by
    refine agcSample_peaked par hl h.peaked ?_
    rw [show magnitude a.p Sample.silence = F32.zero from congrArg RingSlot.m (arrivingSlot_silence a.p)]
    rfl
  obtain ⟨hstate, hsaved, hvolts⟩ :=
    h.transition hl ((agcSample_ringMax par a _).symm.trans (hpeaked.ringMax_of_zeros hwindow))
  have hp : (agcTransition (agcMeasured a Sample.silence)).p = a.p := agcTransition_p _
  have hbelow : (agcTransition (agcMeasured a Sample.silence)).volts.lt
      (agcTransition (agcMeasured a Sample.silence)).p.minVolts = true := by rwa [hvolts, hp]
  have hclamp := (agcSample_fst par a Sample.silence).trans (agcClamp_of_lt hbelow)
  have hfast : (agcSample par a Sample.silence).1.state = .fastDecay := by rw [hclamp]; exact hstate
  refine ⟨⟨by rw [hwindow, agcSample_p], hpeaked, ?envelope, ?saved, .inl hfast⟩, hfast, ?flag⟩
  case envelope => rw [hclamp]
  case saved => rw [hclamp]; exact hsaved
  case flag => rw [hclamp]

theorem agcLoop_silent (par : Par) (h : a.Silent) (hl : a.Legal fs)
    (hdrop : (toward a.p.minVolts F32.zero a.p.fastDecayMult).lt a.p.minVolts = true) (n : Nat) :
    (agcLoop par a (List.replicate n Sample.silence)).1.Silent := by
  induction n generalizing a with
  | zero => exact h
  | succ n ih => exact ih (h.sample par hl hdrop).1 (agcSample_legal par a _ hl) (by rwa [agcSample_p])

/-- Settles O50: silence holds after all samples but the last, and the last keeps it and clears the flag. -/
theorem agcSilence : Obligations.AgcSilence := by
  intro s mode fs n p hmode hwf hcfg hagc hdrop hx
  refine ⟨_, exec_agc_active (hcfg ▸ hmode), ?_⟩
  have hlegal := agcReset_legal hmode hwf
  have hsilent := agcLoop_silent s.par (agcReset_silent hmode p) hlegal hdrop n
  have hlast : s.afterAgc.agc =
      (agcSample s.par (agcLoop s.par (agcReset mode p) (List.replicate n Sample.silence)).1 Sample.silence).1 := by
    show (agcLoop s.par s.agc s.blk.x).1 = _
    rw [hagc, hx, List.replicate_succ']
    exact congrArg Prod.fst (agcLoop_append s.par (agcReset mode p) (List.replicate n Sample.silence) [Sample.silence])
  have hp : (agcLoop s.par (agcReset mode p) (List.replicate n Sample.silence)).1.p = p := agcLoop_p ..
  obtain ⟨hkept, hstate, hflag⟩ := hsilent.sample s.par (agcLoop_legal s.par _ hlegal) (by rwa [hp])
  rw [hlast]
  exact ⟨hkept.envelope.trans (by rw [agcSample_p, hp]), hflag, hstate⟩

end Sys2Proof.Machine

/-! PROOFS. 44_sam_demodulator.md, the arithmetic the loop rests on: symmetric bounds under rounding, and the numeric functions it calls
(R239, R240; 00_scope.md R11; 10_state.md R52). -/

namespace Sys2Proof

variable {a b c d g x y : F32} {s t : Bool} {m n den : Nat} {par : Par} {p : SamParams}

/-! ### Rounding keeps the order -/

theorem F32.round_mono (hd : 0 < den)
    (h : (if s then -(m : Int) else (m : Int)) ≤ (if t then -(n : Int) else (n : Int))) :
    (F32.round s m den).le (F32.round t n den) = true := by
  have hzero : F32.roundCode 0 den = 0 := Nat.le_zero.mp (F32.roundCode_le hd (by simp))
  refine F32.le_iff.mpr ⟨_, _, F32.rank_pack s _, F32.rank_pack t _, ?_⟩
  have hmin {i j : Nat} (hij : i ≤ j) : Nat.min i 2139095040 ≤ Nat.min j 2139095040 := min_le_min_right _ hij
  unfold F32.place
  cases s <;> cases t <;> simp only [Bool.false_eq_true, if_false, if_true] at h ⊢
  · have := hmin (F32.roundCode_mono (den := den) (show m ≤ n by omega))
    omega
  · obtain ⟨rfl, rfl⟩ : m = 0 ∧ n = 0 := by omega
    rw [hzero]
    decide
  · omega
  · have := hmin (F32.roundCode_mono (den := den) (show n ≤ m by omega))
    omega

theorem F32.mul_mono (ha : a.isFinite = true) (hb : b.isFinite = true) (hc : c.isFinite = true) (hd : d.isFinite = true)
    (h : a.val * b.val ≤ c.val * d.val) : (a.mul b).le (c.mul d) = true := by
  obtain ⟨s, m, he, hv⟩ := F32.mul_finite ha hb
  obtain ⟨t, n, he', hv'⟩ := F32.mul_finite hc hd
  rw [he, he']
  exact F32.round_mono (by positivity) (by rwa [hv, hv'])

theorem F32.neg_round (s : Bool) (m den : Nat) : (F32.round s m den).neg = F32.round (!s) m den := by
  unfold F32.round F32.pack
  split <;> rfl

theorem F32.mul_neg (ha : a.isFinite = true) (hb : b.isFinite = true) : a.mul b.neg = (a.mul b).neg := by
  obtain ⟨s, m, rfl⟩ := F32.finite_cases ha
  obtain ⟨t, n, rfl⟩ := F32.finite_cases hb
  rw [F32.neg, F32.mul_fin, F32.mul_fin, F32.neg_round, Bool.xor_not]

/-! ### Where no NaN comes from -/

theorem F32.isNaN_of_isFinite (h : x.isFinite = true) : x.isNaN = false := by
  obtain ⟨s, m, rfl⟩ := F32.finite_cases h
  rfl

theorem F32.mul_not_nan (ha : a.isFinite = true) (hb : b.isFinite = true) : (a.mul b).isNaN = false := by
  obtain ⟨s, m, h, -⟩ := F32.mul_finite ha hb
  rw [h]
  exact F32.round_isNaN ..

/-- A finite number plus a number, an infinity among them, is a number. -/
theorem F32.finite_add_not_nan (hx : x.isFinite = true) (hy : y.isNaN = false) : (x.add y).isNaN = false := by
  cases hf : y.isFinite with
  | true => exact F32.add_not_nan (F32.isNaN_of_isFinite hx) hf
  | false =>
    obtain ⟨s, rfl⟩ := F32.eq_inf hf hy
    rw [F32.add_inf hx]
    rfl

/-! ### Symmetric bounds -/

/-- `x` lies in `[-b, b]`. -/
def F32.Bounded (b x : F32) : Prop := b.neg.le x = true ∧ x.le b = true

theorem F32.rank_neg (x : F32) : x.neg.rank = x.rank.map (fun r => -r) := by
  cases x with
  | fin s m => cases s <;> simp [F32.neg, F32.rank]
  | inf s => cases s <;> rfl
  | nan s k => rfl

theorem F32.rank_abs (x : F32) : x.abs.rank = x.rank.map (fun r => |r|) := by
  cases x with
  | fin s m => cases s <;> simp [F32.abs, F32.rank]
  | inf s => cases s <;> rfl
  | nan s k => rfl

/-- A bound of the magnitude, as the statements write it. -/
theorem F32.abs_le_iff : x.abs.le b = true ↔ F32.Bounded b x := by
  unfold F32.Bounded F32.le
  rw [F32.rank_neg, F32.rank_abs]
  cases x.rank <;> cases b.rank <;> simp [abs_le]

theorem F32.Bounded.finite (h : F32.Bounded b x) (hb : b.isFinite = true) : x.isFinite = true :=
  F32.isFinite_of_between (by rwa [F32.isFinite_neg]) hb h.1 h.2

theorem F32.bounded_iff_val (hb : b.isFinite = true) (hx : x.isFinite = true) :
    F32.Bounded b x ↔ -b.val ≤ x.val ∧ x.val ≤ b.val := by
  rw [F32.Bounded, F32.le_iff_val (by rwa [F32.isFinite_neg]) hx, F32.le_iff_val hx hb, F32.val_neg]

theorem F32.Bounded.neg (h : F32.Bounded b x) (hb : b.isFinite = true) : F32.Bounded b x.neg := by
  have hx := h.finite hb
  have hneg : x.neg.isFinite = true := by rwa [F32.isFinite_neg]
  rw [F32.bounded_iff_val hb hx] at h
  rw [F32.bounded_iff_val hb hneg, F32.val_neg]
  omega

/-- The sum of two bounded numbers is within any bound the sum of the two bounds does not pass. -/
theorem F32.Bounded.add (hx : F32.Bounded b x) (hy : F32.Bounded c y) (hb : b.isFinite = true) (hc : c.isFinite = true)
    (hd : d.isFinite = true) (h : b.val + c.val ≤ d.val) : F32.Bounded d (x.add y) := by
  have hxf := hx.finite hb
  have hyf := hy.finite hc
  obtain ⟨hx1, hx2⟩ := (F32.bounded_iff_val hb hxf).mp hx
  obtain ⟨hy1, hy2⟩ := (F32.bounded_iff_val hc hyf).mp hy
  exact ⟨F32.le_add hxf hyf (by rwa [F32.isFinite_neg]) (by rw [F32.val_neg]; omega), F32.add_le hxf hyf hd (by omega)⟩

theorem F32.Bounded.sub (hx : F32.Bounded b x) (hy : F32.Bounded c y) (hb : b.isFinite = true) (hc : c.isFinite = true)
    (hd : d.isFinite = true) (h : b.val + c.val ≤ d.val) : F32.Bounded d (x.sub y) := by
  rw [F32.sub_eq_add_neg (hx.finite hb) (hy.finite hc)]
  exact hx.add (hy.neg hc) hb hc hd h

/-- A factor not below zero scales a bound as it scales a number. -/
theorem F32.Bounded.mul_left (hx : F32.Bounded b x) (hb : b.isFinite = true) (hg : g.isFinite = true)
    (h0 : F32.zero.le g = true) : F32.Bounded (g.mul b) (g.mul x) := by
  have hxf := hx.finite hb
  have hneg : b.neg.isFinite = true := by rwa [F32.isFinite_neg]
  have hg0 : 0 ≤ g.val := (F32.le_iff_val Machine.zero_finite hg).mp h0
  obtain ⟨hx1, hx2⟩ := (F32.bounded_iff_val hb hxf).mp hx
  refine ⟨?_, F32.mul_mono hg hxf hg hb (mul_le_mul_of_nonneg_left hx2 hg0)⟩
  rw [← F32.mul_neg hg hb]
  exact F32.mul_mono hg hneg hg hxf (mul_le_mul_of_nonneg_left (by rwa [F32.val_neg]) hg0)

theorem F32.one_finite : F32.one.isFinite = true := by decide

theorem F32.val_one : F32.one.val = 2 ^ 149 := by decide

/-- A factor in `[-1, 1]` keeps a bound. -/
theorem F32.Bounded.unit_mul (hc : F32.Bounded F32.one c) (hx : F32.Bounded b x) (hb : b.isFinite = true) :
    F32.Bounded b (c.mul x) := by
  have hcf := hc.finite F32.one_finite
  have hxf := hx.finite hb
  have hcv := (F32.bounded_iff_val F32.one_finite hcf).mp hc
  have hxv := (F32.bounded_iff_val hb hxf).mp hx
  have hprod : |c.val * x.val| ≤ F32.one.val * b.val := by
    rw [abs_mul]
    exact mul_le_mul (abs_le.mpr hcv) (abs_le.mpr hxv) (abs_nonneg _) (by rw [F32.val_one]; positivity)
  rw [F32.val_one, abs_le] at hprod
  refine ⟨F32.le_mul hcf hxf (by rwa [F32.isFinite_neg]) ?_, F32.mul_le hcf hxf hb ?_⟩
  · rw [F32.val_neg]; linarith
  · linarith

/-! ### Bounded samples -/

/-- 2^64, the bound of the samples. -/
def sampleBound : F32 := F32.ofBits 0x5F800000#32

/-- 2^65, the bound of a sum of two of them. -/
def pairBound : F32 := F32.ofBits 0x60000000#32

theorem sampleBound_finite : sampleBound.isFinite = true := by decide

theorem pairBound_finite : pairBound.isFinite = true := by decide

theorem sampleBound_add : sampleBound.val + sampleBound.val ≤ pairBound.val := by decide

/-- Both channels of the sample are at most 2^64 in magnitude. -/
def Sample.Bounded (z : Sample) : Prop := F32.Bounded sampleBound z.i ∧ F32.Bounded sampleBound z.q

/-! ### The functions of PAR.NUM -/

/-- The stand-in keeps the interval it stands in. -/
theorem F32.within_between {lo hi : F32} (hlo : lo.le d = true) (hhi : d.le hi = true) (r : F32) :
    lo.le (F32.within lo hi d r) = true ∧ (F32.within lo hi d r).le hi = true := by
  unfold F32.within
  split
  · rwa [← Bool.and_eq_true]
  · exact ⟨hlo, hhi⟩

theorem Par.cos_bounded (hx : x.isFinite = true) : F32.Bounded F32.one (par.cos x) := by
  simp only [Par.cos, hx, if_true]
  split
  · exact ⟨by decide, by decide⟩
  · exact F32.within_between (by decide) (by decide) _

theorem Par.sin_bounded (hx : x.isFinite = true) : F32.Bounded F32.one (par.sin x) := by
  simp only [Par.sin, hx, if_true]
  split
  · exact ⟨by decide, by decide⟩
  · exact F32.within_between (by decide) (by decide) _

theorem F32.piF_finite : F32.piF.isFinite = true := by decide

theorem F32.zeroOf_bounded (s : Bool) : F32.Bounded F32.piF (F32.zeroOf s) := by
  cases s <;> exact ⟨by decide, by decide⟩

/-- The angle of two finite coordinates is within half a turn either way (44_sam_demodulator.md R239). -/
theorem Par.atan2a_bounded (hy : y.isFinite = true) (hx : x.isFinite = true) : F32.Bounded F32.piF (par.atan2a y x) := by
  unfold Par.atan2a
  dsimp only
  rw [if_pos (by rw [hy, hx]; rfl)]
  split
  case isTrue => -- on the vertical axis
    split
    · exact F32.zeroOf_bounded false
    · split <;> exact ⟨by decide, by decide⟩
  case isFalse =>
    split
    case isTrue => -- on the horizontal axis
      split
      · split
        · rename_i hr
          obtain ⟨s, hs⟩ := F32.eq_zeroOf hr
          rw [hs]
          exact F32.zeroOf_bounded s
        · exact F32.zeroOf_bounded false
      · exact F32.within_between (by decide) (by decide) _
    case isFalse => -- above the horizontal axis, then below it
      split
      · obtain ⟨hlo, hhi⟩ := F32.within_between (lo := F32.zero) (hi := F32.piF) (d := F32.zero) (by decide) (by decide) _
        exact ⟨F32.le_trans (b := F32.zero) (by decide) hlo, hhi⟩
      · obtain ⟨hlo, hhi⟩ := F32.within_between (lo := F32.piF.neg) (hi := F32.zero) (d := F32.zero) (by decide) (by decide) _
        exact ⟨hlo, F32.le_trans (b := F32.zero) hhi (by decide)⟩

/-! ### What R52 says of the loop constants -/

/-- The largest proportional part is finite, and with the largest accumulator it stays below one turn, in exact arithmetic. -/
theorem SamParams.wf_turn (h : p.wf = true) :
    (p.g1.mul F32.piF).isFinite = true ∧ (p.g1.mul F32.piF).val + p.omegaLim.val < F32.twoPiF.val := by
  obtain ⟨⟨hg1, -, hlim, -, -⟩, -, hg0, -, -, -, hturn⟩ := (SamParams.wf_iff p).mp h
  have hg0' : 0 ≤ p.g1.val := (F32.le_iff_val Machine.zero_finite hg1).mp hg0
  have hpi : 0 ≤ F32.piF.val := by decide
  have hnonneg : F32.zero.le (p.g1.mul F32.piF) = true :=
    F32.le_mul hg1 F32.piF_finite Machine.zero_finite (by rw [Machine.val_zero, Int.zero_mul]; positivity)
  have hfin : (p.g1.mul F32.piF).isFinite = true := by
    by_contra hc
    obtain ⟨s, hs⟩ := F32.eq_inf (Bool.eq_false_of_not_eq_true hc) (F32.mul_not_nan hg1 F32.piF_finite)
    rw [hs] at hnonneg hturn
    obtain ⟨t, n, hn⟩ := F32.finite_cases hlim
    rw [hn] at hturn
    cases s
    · exact absurd (show (F32.inf false).lt F32.twoPiF = true from hturn) (by decide)
    · exact absurd hnonneg (by decide)
  refine ⟨hfin, ?_⟩
  by_contra hc
  have hge := F32.le_add hfin hlim Machine.twoPi_finite (Int.not_lt.mp hc)
  rw [F32.not_lt_of_le hge] at hturn
  cases hturn

end Sys2Proof

/-! PROOFS. 44_sam_demodulator.md: the wrap, one sample of the loop, the loop over a block, and where it stays in range (R231 to R248;
10_state.md R52, R53; 70_reset_and_hazards.md R347). -/

namespace Sys2Proof.Machine

variable {s t : State} {par : Par} {m m1 m2 : SamState} {x x1 x2 xs ys zs : List Sample} {z : Sample} {lim phase : F32}

/-! ### WRAP2PI (R243) -/

/-- Settles O35: the three kinds of argument, the range of every result, and the vectors evaluated. -/
theorem wrapLaw : Obligations.WrapLaw := by
  refine ⟨fun x => wrap2pi_nan, wrap2pi_inf, fun x y => wrap2pi_some, fun x hlo hhi => ?ends,
    wrap2pi_inside (by decide) (by decide), by decide, by decide⟩
  case ends =>
    have hneg : F32.twoPiF.neg.isFinite = true := by decide
    have htwo : (F32.twoPiF.add F32.twoPiF).isFinite = true := by decide
    have hval : (F32.twoPiF.add F32.twoPiF).val = 2 * F32.twoPiF.val := by decide
    have hx := F32.isFinite_of_between hneg htwo hlo hhi
    rw [F32.le_iff_val hneg hx, F32.val_neg] at hlo
    rw [F32.le_iff_val hx htwo, hval] at hhi
    exact wrap2pi_ends hx hlo hhi

/-! ### One sample (R232 to R242) -/

/-- The detector output, P6 (R238, R239). -/
def samDet (par : Par) (m : SamState) (z : Sample) : F32 :=
  par.atan2a (samRotate par m.phase z).corr1 (samRotate par m.phase z).corr0

/-- The accumulator after its clamps, P7 (R240). -/
def samOmega (par : Par) (m : SamState) (z : Sample) : F32 :=
  clampOmega par.sam.omegaLim (m.omega.add (par.sam.g2.mul (samDet par m z)))

/-- The loop-filter output, P8 (R241). -/
def samFil (par : Par) (m : SamState) (z : Sample) : F32 := (par.sam.g1.mul (samDet par m z)).add (samOmega par m z)

/-- What the phase moves by, P9 (R242). -/
def samInc (par : Par) (m : SamState) (z : Sample) : F32 := if par.samPhaseDelay then m.filPrev else samFil par m z

/-- The trackers after the sample, P4 (R236). -/
def samTracked (par : Par) (m : SamState) (z : Sample) : SamState :=
  samFade par.sam m (samRotate par m.phase z).audio (samRotate par m.phase z).corr0

/-- The audio of the sample, P4 (R236). -/
def samAudio (par : Par) (m : SamState) (z : Sample) : F32 :=
  samLevelled par.sam (samTracked par m z) (samRotate par m.phase z).audio

/-- The loop state after the sample, once the phase has wrapped to `phase`. -/
def samNext (par : Par) (m : SamState) (z : Sample) (phase : F32) : SamState :=
  { samTracked par m z with omega := samOmega par m z, filPrev := samFil par m z, phase := phase }

/-- One sample ends exactly where the wrap of its phase does. -/
theorem samSample_eq (par : Par) (m : SamState) (z : Sample) :
    samSample par m z =
      (wrap2pi (m.phase.add (samInc par m z))).map fun phase => (samNext par m z phase, samAudio par m z) := by
  show (match wrap2pi (m.phase.add (samInc par m z)) with
    | none => none
    | some phase => some (samNext par m z phase, samAudio par m z)) = _
  cases wrap2pi (m.phase.add (samInc par m z)) <;> rfl

theorem samLoop_single (h : wrap2pi (m.phase.add (samInc par m z)) = some phase) :
    samLoop par m [z] = some (samNext par m z phase, [{ i := samAudio par m z, q := samAudio par m z }]) := by
  simp only [samLoop, samSample_eq, h, Option.map_some]

/-! ### The loop over a block in two parts (R231, R244, R245) -/

theorem samLoop_append_of_none (h : samLoop par m xs = none) : samLoop par m (xs ++ ys) = none := by
  rw [samLoop_append, h]

theorem samLoop_append_of_some (h : samLoop par m xs = some (m1, x1)) :
    samLoop par m (xs ++ ys) = (samLoop par m1 ys).map fun r => (r.1, x1 ++ r.2) := by
  rw [samLoop_append, h]
  dsimp only
  cases samLoop par m1 ys <;> rfl

/-- The loop leaves the smoothed offset as it was. -/
theorem samLoop_smooth (h : samLoop par m xs = some (m1, x1)) : m1.carrierSmooth = m.carrierSmooth := by
  have hkeep := samLoop_carrier par m m.carrierHz m.carrierSmooth xs
  rw [h] at hkeep
  exact congrArg (fun r => r.1.carrierSmooth) (Option.some.inj hkeep)

/-! ### The stage (R231, R244 to R247) -/

/-- The log after the check: one entry where the block has the wrong size or rate (R247). -/
def State.samLog (s : State) : List DiagEntry :=
  if s.blk.n ≠ s.par.samNReq ∨ s.blk.fs ≠ s.par.samFsReq then s.diag ++ [{ code := 1, n := s.blk.n, fs := s.blk.fs }]
  else s.diag

theorem samPrecond_diag (s : State) : samPrecond s = { s with diag := s.samLog } := by
  unfold samPrecond State.samLog
  split <;> rfl

/-- The state `DEMOD.SAM` leaves when its loop ends with the loop state `m` and the audio `x`. -/
def State.afterSam (s : State) (m : SamState) (x : List Sample) : State :=
  { s with
    blk := { s.blk with x := x }
    sam := samCarrier s.blk.fs m
    diag := s.samLog
    seq := { s.seq with sp := s.seq.sp + 1 } }

theorem exec_demod_sam (hmode : s.lat.demodMode = 2#3) :
    exec .demod s =
      match samLoop s.par s.sam s.blk.x with
      | none => .fault .wrapDoesNotEnd
      | some (m, x) => .next (s.afterSam m x) := by
  have hsam : exec .demod s = demodSam s := by
    show execDemod s = _
    rw [execDemod, if_neg (by rw [hmode]; decide), if_neg (by rw [hmode]; decide), if_pos hmode]
  rw [hsam, demodSam, samPrecond_diag]
  cases samLoop s.par s.sam s.blk.x <;> rfl

theorem exec_demod_sam_of_some (hmode : s.lat.demodMode = 2#3) (h : samLoop s.par s.sam s.blk.x = some (m, x)) :
    exec .demod s = .next (s.afterSam m x) := by
  rw [exec_demod_sam hmode, h]

theorem exec_demod_sam_fault_iff (hmode : s.lat.demodMode = 2#3) :
    exec .demod s = .fault .wrapDoesNotEnd ↔ samLoop s.par s.sam s.blk.x = none := by
  rw [exec_demod_sam hmode]
  cases samLoop s.par s.sam s.blk.x <;> simp

theorem exec_demod_sam_next (hmode : s.lat.demodMode = 2#3) (h : exec .demod s = .next t) :
    ∃ m x, samLoop s.par s.sam s.blk.x = some (m, x) ∧ t = s.afterSam m x := by
  rw [exec_demod_sam hmode] at h
  cases hloop : samLoop s.par s.sam s.blk.x with
  | none => rw [hloop] at h; cases h
  | some r => rw [hloop] at h; cases h; exact ⟨r.1, r.2, rfl, rfl⟩

/-- Settles O54: the loop over the one sample, with the trackers on and off. -/
theorem samOneSample : Obligations.SamOneSample := by
  intro s z phase hmode hx p c sn ai bi aq bq corr0 corr1 raw dc dcInsert audio det w0 w1 omega fil inc hz hwrap
  have hloop := samLoop_single (par := s.par) (m := s.sam) (z := z) hwrap
  rw [← hx] at hloop
  have hnext : samNext s.par s.sam z phase =
      { s.sam with phase := phase, omega := omega, filPrev := fil, dc := dc, dcInsert := dcInsert } := by
    simp only [samNext, samTracked, samFade, dc, dcInsert, p]
    cases s.par.sam.fadeEn <;> rfl
  have haudio : samAudio s.par s.sam z = audio := by
    simp only [samAudio, samTracked, samLevelled, samFade, audio, dc, dcInsert, p]
    cases s.par.sam.fadeEn <;> rfl
  rw [exec_demod_sam_of_some hmode hloop, hnext, haudio]
  rfl

/-- Settles O55: the loop over the appended samples; the carrier fields the front wrote take no part in the back. -/
theorem samCarriesAcrossSamples : Obligations.SamCarriesAcrossSamples := by
  intro s xs ys hmode hx front
  refine ⟨fun hfault => ?front, fun t1 hfront => ?rest⟩
  case front =>
    have hloop := (exec_demod_sam_fault_iff (s := front) hmode).mp hfault
    rw [exec_demod_sam_fault_iff hmode, hx]
    exact samLoop_append_of_none hloop
  case rest =>
    intro back
    obtain ⟨m1, x1, hloop1, rfl⟩ := exec_demod_sam_next (s := front) hmode hfront
    have hwhole : samLoop s.par s.sam s.blk.x = (samLoop s.par m1 ys).map fun r => (r.1, x1 ++ r.2) := by
      rw [hx]
      exact samLoop_append_of_some hloop1
    have hback : samLoop back.par back.sam back.blk.x = (samLoop s.par m1 ys).map fun r =>
        ({ r.1 with carrierHz := back.sam.carrierHz, carrierSmooth := back.sam.carrierSmooth }, r.2) :=
      samLoop_carrier s.par m1 back.sam.carrierHz back.sam.carrierSmooth ys
    refine ⟨fun hfault => ?hangs, fun t2 hnext => ?ends⟩
    case hangs =>
      rw [exec_demod_sam_fault_iff (s := back) hmode, hback, Option.map_eq_none_iff] at hfault
      rw [exec_demod_sam_fault_iff hmode, hwhole, hfault]
      rfl
    case ends =>
      obtain ⟨m, x, hloop, rfl⟩ := exec_demod_sam_next (s := back) hmode hnext
      obtain ⟨⟨m2, x2⟩, hloop2, hr⟩ := Option.map_eq_some_iff.mp (hback.symm.trans hloop)
      obtain ⟨rfl, rfl⟩ := Prod.mk.inj hr
      rw [hloop2] at hwhole
      rw [exec_demod_sam_of_some hmode hwhole, ← samLoop_smooth hwhole]
      rfl

/-! ### Bounded samples (R239 to R243, R248) -/

/-- The loop state in range: the phase in `[0, TWO_PI_F]`, the accumulator in `[-lim, lim]`, the last loop-filter output at most one turn. -/
structure SamState.InRange (lim : F32) (m : SamState) : Prop where
  phase_nonneg : F32.zero.le m.phase = true
  phase_le : m.phase.le F32.twoPiF = true
  omega : F32.Bounded lim m.omega
  fil : F32.Bounded F32.twoPiF m.filPrev

/-- The range as the statement writes it. -/
theorem SamState.inRange_iff :
    m.InRange lim ↔ F32.zero.le m.phase = true ∧ m.phase.le F32.twoPiF = true ∧ lim.neg.le m.omega = true ∧
      m.omega.le lim = true ∧ m.filPrev.abs.le F32.twoPiF = true := by
  rw [F32.abs_le_iff]
  exact ⟨fun ⟨h0, h1, ⟨hlo, hhi⟩, hf⟩ => ⟨h0, h1, hlo, hhi, hf⟩, fun ⟨h0, h1, hlo, hhi, hf⟩ => ⟨h0, h1, ⟨hlo, hhi⟩, hf⟩⟩

theorem SamState.InRange.phase_finite (h : m.InRange lim) : m.phase.isFinite = true :=
  F32.isFinite_of_between zero_finite twoPi_finite h.phase_nonneg h.phase_le

theorem SamState.InRange.phaseLegal (h : m.InRange lim) : PhaseLegal m.phase :=
  ⟨F32.not_lt_of_le h.phase_nonneg, F32.not_lt_of_le h.phase_le⟩

/-- The carrier update writes none of the three fields (R244, R245). -/
theorem SamState.InRange.carrier (h : m.InRange lim) (fs : Nat) : (samCarrier fs m).InRange lim :=
  ⟨h.phase_nonneg, h.phase_le, h.omega, h.fil⟩

/-- The correlations of a bounded sample are finite, so the detector output is an angle (R234, R239). -/
theorem samDet_bounded (hphase : m.phase.isFinite = true) (hz : z.Bounded) : F32.Bounded F32.piF (samDet par m z) := by
  have hcos := Par.cos_bounded (par := par) hphase
  have hsin := Par.sin_bounded (par := par) hphase
  have hb := sampleBound_finite
  have hcorr0 : F32.Bounded pairBound (samRotate par m.phase z).corr0 :=
    (hcos.unit_mul hz.1 hb).add (hsin.unit_mul hz.2 hb) hb hb pairBound_finite sampleBound_add
  have hcorr1 : F32.Bounded pairBound (samRotate par m.phase z).corr1 :=
    (hcos.unit_mul hz.2 hb).sub (hsin.unit_mul hz.1 hb) hb hb pairBound_finite sampleBound_add
  exact Par.atan2a_bounded (hcorr1.finite pairBound_finite) (hcorr0.finite pairBound_finite)

/-- The two clamps bring every number into the bounds, an infinity included (R240). -/
theorem clampOmega_bounded {w : F32} (hlim : lim.isNonneg = true) (hw : w.isNaN = false) : F32.Bounded lim (clampOmega lim w) := by
  have hnan : lim.isNaN = false := F32.isNaN_of_isFinite ((F32.isNonneg_iff lim).mp hlim).1
  have hneg : lim.neg.isNaN = false := by rwa [F32.isNaN_neg]
  have hclamp : (clampOmega lim w).isNaN = false := by
    unfold clampOmega
    dsimp only
    split <;> split <;> assumption
  obtain ⟨hlo, hhi⟩ := clampOmega_bounds w hlim
  exact ⟨F32.le_of_not_lt hneg hclamp hlo, F32.le_of_not_lt hclamp hnan hhi⟩

theorem samOmega_bounded (hwf : par.sam.wf = true) (hm : m.InRange par.sam.omegaLim) (hz : z.Bounded) :
    F32.Bounded par.sam.omegaLim (samOmega par m z) := by
  obtain ⟨⟨-, hg2, hlim, -, -⟩, hlim0, -⟩ := (SamParams.wf_iff par.sam).mp hwf
  have hdet := (samDet_bounded (par := par) hm.phase_finite hz).finite F32.piF_finite
  exact clampOmega_bounded ((F32.isNonneg_iff _).mpr ⟨hlim, hlim0⟩)
    (F32.finite_add_not_nan (hm.omega.finite hlim) (F32.mul_not_nan hg2 hdet))

/-- The loop filter turns the phase by at most one turn a sample (R241; 10_state.md R52). -/
theorem samFil_bounded (hwf : par.sam.wf = true) (hm : m.InRange par.sam.omegaLim) (hz : z.Bounded) :
    F32.Bounded F32.twoPiF (samFil par m z) := by
  obtain ⟨⟨hg1, -, hlim, -, -⟩, -, hg0, -⟩ := (SamParams.wf_iff par.sam).mp hwf
  obtain ⟨hfin, hturn⟩ := SamParams.wf_turn hwf
  have hprop := (samDet_bounded (par := par) hm.phase_finite hz).mul_left F32.piF_finite hg1 hg0
  exact hprop.add (samOmega_bounded hwf hm hz) hfin hlim twoPi_finite hturn.le

/-- A bounded sample ends and keeps the loop state in range. -/
theorem samSample_inRange (hwf : par.sam.wf = true) (hm : m.InRange par.sam.omegaLim) (hz : z.Bounded) :
    ∃ m' audio, samSample par m z = some (m', audio) ∧ m'.InRange par.sam.omegaLim := by
  have hfil := samFil_bounded hwf hm hz
  have hinc : F32.Bounded F32.twoPiF (samInc par m z) := by
    unfold samInc
    split
    · exact hm.fil
    · exact hfil
  obtain ⟨phase, hwrap⟩ := wrap2pi_turn hm.phaseLegal (F32.abs_le_iff.mpr hinc)
  have hnan : phase.isNaN = false :=
    wrap2pi_not_nan (F32.add_not_nan (F32.isNaN_of_isFinite hm.phase_finite) (hinc.finite twoPi_finite)) hwrap
  obtain ⟨hlo, hhi⟩ := wrap2pi_some hwrap
  refine ⟨samNext par m z phase, samAudio par m z, by rw [samSample_eq, hwrap]; rfl, ?_⟩
  exact ⟨F32.le_of_not_lt rfl hnan hlo, F32.le_of_not_lt hnan rfl hhi, samOmega_bounded hwf hm hz, hfil⟩

theorem samLoop_inRange (hwf : par.sam.wf = true) (hm : m.InRange par.sam.omegaLim) (hzs : ∀ z ∈ zs, z.Bounded) :
    ∃ m' x, samLoop par m zs = some (m', x) ∧ m'.InRange par.sam.omegaLim := by
  induction zs generalizing m with
  | nil => exact ⟨m, [], rfl, hm⟩
  | cons z zs ih =>
    obtain ⟨hz, hrest⟩ := List.forall_mem_cons.mp hzs
    obtain ⟨m1, audio, hsample, hm1⟩ := samSample_inRange hwf hm hz
    obtain ⟨m2, x, hloop, hm2⟩ := ih hm1 hrest
    exact ⟨m2, { i := audio, q := audio } :: x, by simp only [samLoop, hsample, hloop], hm2⟩

/-- Settles O56: the loop keeps its state in range sample by sample, and the carrier update does not touch it. -/
theorem samCompletesOnBoundedInput : Obligations.SamCompletesOnBoundedInput := by
  intro s hmode hwf hm hsamples
  have hbounded : ∀ z ∈ s.blk.x, z.Bounded := fun z hz => (hsamples z hz).imp F32.abs_le_iff.mp F32.abs_le_iff.mp
  obtain ⟨m, x, hloop, hrange⟩ := samLoop_inRange hwf (SamState.inRange_iff.mpr hm) hbounded
  exact ⟨_, exec_demod_sam_of_some hmode hloop, SamState.inRange_iff.mp (hrange.carrier _), (samLoop_some hloop).1⟩

end Sys2Proof.Machine

/-! PROOFS. 45_demod_dispatch_external.md: the stages an external collaborator answers (R270 to R277; 40_orchestrator_framing.md R134, R153 to
R155; 70_reset_and_hazards.md R332, R333) and the dispatch of `DEMOD` with the modes USB and AM (R260 to R266; 44_sam_demodulator.md R247;
60_exceptions.md R302 to R305). -/

namespace Sys2Proof

/-! ### When the root of a sum of squares is a NaN -/

variable {x y : F32}

theorem F32.isNaN_add_left (hx : x.isNaN = true) (y : F32) : (x.add y).isNaN = true := by
  cases x with
  | nan s k => exact Machine.nan_add s k y
  | fin s m => cases hx
  | inf s => cases hx

theorem F32.isNaN_sqrt (hx : x.isNaN = true) : x.sqrt.isNaN = true := by
  cases x with
  | nan s k => exact F32.isNaN_nanResult ..
  | fin s m => cases hx
  | inf s => cases hx

/-- The values not below zero: the finite ones, `-0` among them, and the positive infinity. -/
theorem F32.zero_le_cases (hx : F32.zero.le x = true) : (x.isFinite = true ∧ 0 ≤ x.val) ∨ x = .inf false := by
  cases x with
  | fin s m => exact .inl ⟨rfl, by simpa only [Machine.val_zero] using (F32.le_iff_val Machine.zero_finite rfl).mp hx⟩
  | inf s =>
    cases s with
    | false => exact .inr rfl
    | true => exact absurd hx (by decide)
  | nan s k => cases (F32.isNaN_of_le hx).2

theorem F32.zero_le_mul_self (hx : x.isNaN = false) : F32.zero.le (x.mul x) = true := by
  cases x with
  | nan s k => cases hx
  | inf s => cases s <;> decide
  | fin s m =>
    refine F32.le_mul rfl rfl Machine.zero_finite ?_
    rw [Machine.val_zero, Int.zero_mul]
    exact mul_self_nonneg _

/-- A sum of values not below zero: no infinities of opposite sign meet. -/
theorem F32.zero_le_add (hx : F32.zero.le x = true) (hy : F32.zero.le y = true) : F32.zero.le (x.add y) = true := by
  obtain ⟨hfx, hvx⟩ | rfl := F32.zero_le_cases hx <;> obtain ⟨hfy, hvy⟩ | rfl := F32.zero_le_cases hy
  · exact F32.le_add hfx hfy Machine.zero_finite (by rw [Machine.val_zero]; exact Int.add_nonneg hvx hvy)
  · rwa [F32.add_inf hfx]
  · obtain ⟨t, n, rfl⟩ := F32.finite_cases hfy
    exact hx
  · decide

theorem F32.sqrt_not_nan (hx : F32.zero.le x = true) : x.sqrt.isNaN = false := by
  obtain ⟨hfx, hvx⟩ | rfl := F32.zero_le_cases hx
  · obtain ⟨s, m, rfl⟩ := F32.finite_cases hfx
    rw [F32.sqrt, F32.sqrtCore]
    split
    · rfl
    · rename_i hm
      cases s with
      | false => exact F32.round_isNaN ..
      | true =>
        have hpos := F32.units_pos (Nat.pos_of_ne_zero hm)
        have hneg : (F32.fin true m).val = -(F32.units m.val : Int) := rfl
        omega
  · rfl

/-- The envelope of two channels is a NaN exactly where a channel is (45_demod_dispatch_external.md R263). -/
theorem F32.isNaN_sqrt_squares :
    (F32.sqrt ((x.mul x).add (y.mul y))).isNaN = true ↔ x.isNaN = true ∨ y.isNaN = true := by
  constructor
  · intro h
    by_contra hnot
    obtain ⟨hx, hy⟩ := not_or.mp hnot
    have hsquares := F32.zero_le_add (F32.zero_le_mul_self (Bool.eq_false_of_not_eq_true hx))
      (F32.zero_le_mul_self (Bool.eq_false_of_not_eq_true hy))
    rw [F32.sqrt_not_nan hsquares] at h
    cases h
  · rintro (hx | hy)
    · exact F32.isNaN_sqrt (F32.isNaN_add_left (F32.isNaN_mul_right x hx) _)
    · exact F32.isNaN_sqrt (F32.isNaN_add_right _ (F32.isNaN_mul_right y hy))

end Sys2Proof

namespace Sys2Proof.Machine

variable {s t : State} {i : Instr} {c : ExtCall} {g : F32}

/-! ### A stage that asks for an answer (R277; log entry 3) -/

/-- What a stage does that leaves `after ans e` where a collaborator answers `ans` and the answer port is left at `e`: for the answer the
port gives, and for the answer of a feed that holds it. -/
def AnsweredByPort (s : State) (i : Instr) (after : List Sample → ExtPort → State) : Prop :=
  ((ExtPort.drawSamples s.blk.n s.ext).1.length = s.blk.n ∧
    exec i s = .next (after (ExtPort.drawSamples s.blk.n s.ext).1 (ExtPort.drawSamples s.blk.n s.ext).2)) ∧
  ∀ (ans : List Sample) (rest : List F32), ans.length = s.blk.n → s.ext.feed = ans.flatMap (fun z => [z.i, z.q]) ++ rest →
    exec i s = .next (after ans { s.ext with feed := rest })

/-- A feed that holds an answer is the port that gives it. -/
theorem drawSamples_of_feed {n : Nat} {e : ExtPort} {ans : List Sample} {rest : List F32} (hlen : ans.length = n)
    (hfeed : e.feed = ans.flatMap (fun z => [z.i, z.q]) ++ rest) :
    ExtPort.drawSamples n e = (ans, { e with feed := rest }) := by
  obtain ⟨feed, count, calls⟩ := e
  subst hlen hfeed
  exact drawSamples_feed ans rest count calls

theorem answeredByPort_of_exec {after : List Sample → ExtPort → State}
    (h : exec i s = .next (after (ExtPort.drawSamples s.blk.n s.ext).1 (ExtPort.drawSamples s.blk.n s.ext).2)) :
    AnsweredByPort s i after := by
  refine ⟨⟨drawSamples_length .., h⟩, fun ans rest hlen hfeed => ?_⟩
  rw [h, drawSamples_of_feed hlen hfeed]

/-- The state a stage leaves that made the collaborators' calls `calls` and whose block is `ans`. -/
def State.answered (s : State) (calls : List ExtCall) (ans : List Sample) (e : ExtPort) : State :=
  { s with
    blk := { s.blk with x := ans }
    ext := { e with calls := s.ext.calls ++ calls }
    seq := { s.seq with sp := s.seq.sp + 1 } }

theorem filter_advance (s : State) (c : ExtCall) :
    (s.filter c).advance =
      s.answered [c] (ExtPort.drawSamples s.blk.n s.ext).1 (ExtPort.drawSamples s.blk.n s.ext).2 :=
  congrArg State.advance (s.ask_eq c s.blk.n)

theorem answeredByPort_of_filter (h : exec i s = .next (s.filter c).advance) : AnsweredByPort s i (s.answered [c]) :=
  answeredByPort_of_exec (by rw [h, filter_advance])

/-! ### The filters without an enable (R270, R271) -/

theorem exec_convfilt_of_lt (hb : s.lat.activeBand < s.par.numBands) :
    exec .convfilt s = .next (s.filter (.convolve s.lat.filtCfg s.lat.activeEntry.filter s.blk)).advance :=
  whenBand_of_lt _ hb

/-- The block's contents become an answer as long as `BLK.N`, and the one call `c` is recorded. -/
def ReplacesBlock (s : State) (i : Instr) (c : ExtCall) : Prop :=
  (∃ (x : List Sample) (e : ExtPort), x.length = s.blk.n ∧ e.calls = s.ext.calls ++ [c] ∧
    exec i s = .next { s with blk := { s.blk with x := x }, ext := e, seq := { s.seq with sp := s.seq.sp + 1 } }) ∧
  ∀ (ans : List Sample) (rest : List F32), ans.length = s.blk.n → s.ext.feed = ans.flatMap (fun z => [z.i, z.q]) ++ rest →
    exec i s = .next (s.answered [c] ans { s.ext with feed := rest })

theorem replacesBlock_of_filter (h : exec i s = .next (s.filter c).advance) : ReplacesBlock s i c := by
  obtain ⟨⟨hlen, hexec⟩, hfeed⟩ := answeredByPort_of_filter h
  exact ⟨⟨_, _, hlen, rfl, hexec⟩, hfeed⟩

/-- Settles O39: each stage is one call of a collaborator, `CONVFILT` after the test of the active band. -/
theorem filtersReplaceTheBlock : Obligations.FiltersReplaceTheBlock := by
  intro s
  exact ⟨fun hb => replacesBlock_of_filter (exec_convfilt_of_lt hb), whenBand_of_le _, replacesBlock_of_filter rfl,
    replacesBlock_of_filter rfl, replacesBlock_of_filter rfl, replacesBlock_of_filter rfl⟩

/-! ### The conditional stages (R274, R275) -/

theorem exec_notch (s : State) : exec .notch s = .next (if s.lat.notchEn then s.filter (.notch s.blk) else s).advance := rfl

theorem exec_cwproc (s : State) : exec .cwproc s = .next (if s.lat.cwActive then cwChain s else s).advance := rfl

/-- The decoder's call comes second and has the filter's answer in it. -/
theorem cwChain_advance (s : State) :
    (cwChain s).advance =
      s.answered [.cwFilter s.blk, .cwDecode { s.blk with x := (ExtPort.drawSamples s.blk.n s.ext).1 }]
        (ExtPort.drawSamples s.blk.n s.ext).1 (ExtPort.drawSamples s.blk.n s.ext).2 := by
  rw [cwChain, State.filter, State.ask_eq, State.answered, State.calls]
  simp only [List.append_assoc]
  rfl

/-- Settles O40: the two sides of each enable. -/
theorem conditionalStages : Obligations.ConditionalStages := by
  intro s
  refine ⟨fun h => ?notchOff, fun h => ?cwOff, fun h => ?notchOn, fun h => ?cwOn⟩
  case notchOff => rw [exec_notch, h]; rfl
  case cwOff => rw [exec_cwproc, h]; rfl
  case notchOn => exact answeredByPort_of_filter (by rw [exec_notch, if_pos h])
  case cwOn =>
    exact answeredByPort_of_exec
      (after := fun ans => s.answered [.cwFilter s.blk, .cwDecode { s.blk with x := ans }] ans)
      (by rw [exec_cwproc, if_pos h, cwChain_advance])

/-! ### Noise reduction (R272, R273) -/

/-- `CFG.NR_OPTION` selects the implementation that the call `c` names, and its scale is `g`. -/
def NrSelects (s : State) (c : ExtCall) (g : F32) : Prop :=
  (s.cfg.nrOption = 1#2 ∧ c = .nrSpectral s.blk ∧ g = s.par.nrScale.spectral) ∨
    (s.cfg.nrOption = 2#2 ∧ c = .nrLms s.blk ∧ g = s.par.nrScale.lms) ∨
    (s.cfg.nrOption = 3#2 ∧ c = .nrKim s.blk ∧ g = s.par.nrScale.kim)

theorem nrRoute_of_none (h : s.cfg.nrOption = 0#2) : nrRoute s = s := if_pos h

theorem nrRoute_of_selects (h : NrSelects s c g) : nrRoute s = (s.filter c).mapSamples (Sample.scale g) := by
  rcases h with ⟨ho, rfl, rfl⟩ | ⟨ho, rfl, rfl⟩ | ⟨ho, rfl, rfl⟩ <;> rw [nrRoute, ho] <;> rfl

/-- `NR` marks the use of an unwritten option and then takes the route (log entry 8). -/
theorem exec_nr (s : State) :
    exec .nr s =
      .next (nrRoute { s with marks := if s.cfg.nrWritten then s.marks else s.marks ++ [.nrUnwritten] }).advance := by
  rw [← markIf_unwritten]
  rfl

/-- Settles O41: the route of the option from the marked state, the answer scaled. -/
theorem noiseReductionRoutes : Obligations.NoiseReductionRoutes := by
  intro s marks
  refine ⟨fun h => ?none, fun c g h => ?selected⟩
  case none =>
    rw [exec_nr, nrRoute_of_none]
    · rfl
    · exact h
  case selected =>
    intro after
    refine answeredByPort_of_exec (after := after) ?_
    rw [exec_nr, nrRoute_of_selects (c := c) (g := g), State.filter, State.ask_eq]
    · rfl
    · exact h

/-! ### The demodulator dispatch: USB and AM (R261, R263, R264) -/

theorem exec_demod_usb (hmode : s.lat.demodMode = 0#3) : exec .demod s = .next (s.mapSamples usbSample).advance := if_pos hmode

theorem exec_demod_am (hmode : s.lat.demodMode = 1#3) : exec .demod s = .next (s.mapSamples amSample).advance :=
  (if_neg (by rw [hmode]; decide)).trans (if_pos hmode)

theorem exec_demod_unassigned (hmode : 3 ≤ s.lat.demodMode.toNat) : exec .demod s = .refused .demodModeUnassigned := by
  have hne (m : BitVec 3) (hm : m.toNat < 3) : s.lat.demodMode ≠ m := fun he => by rw [he] at hmode; omega
  exact (if_neg (hne 0#3 (by decide))).trans ((if_neg (hne 1#3 (by decide))).trans (if_neg (hne 2#3 (by decide))))

/-- Settles O51: the first and the last arm of the dispatch. -/
theorem usbCopiesUnassignedRefused : Obligations.UsbCopiesUnassignedRefused :=
  fun _ => ⟨exec_demod_usb, exec_demod_unassigned⟩

theorem amEnvelope_not_nan (z : Sample) : (amEnvelope z).isNaN = false := by
  unfold amEnvelope
  dsimp only
  split
  · decide
  · exact Bool.eq_false_of_not_eq_true ‹_›

theorem amSample_eq {z : Sample} {e : F32} (he : F32.sqrt ((z.i.mul z.i).add (z.q.mul z.q)) = e) :
    amSample z = if e.isNaN then { i := F32.zero, q := F32.zero } else { i := e, q := e } := by
  subst he
  unfold amSample amEnvelope
  dsimp only
  split <;> rfl

/-- Settles O52: the map over the samples, and where the envelope of one sample is a NaN. -/
theorem amEnvelopeScrubsNaN : Obligations.AmEnvelopeScrubsNaN := by
  intro s hmode
  refine ⟨s.blk.x.map amSample, exec_demod_am hmode, List.length_map .., List.forall_mem_map.mpr fun z _ => ?scrubbed,
    fun k z hz => ?sample⟩
  case scrubbed => exact ⟨amEnvelope_not_nan z, rfl⟩
  case sample => exact ⟨F32.isNaN_sqrt_squares, by rw [List.getElem?_map, hz, Option.map_some, amSample_eq rfl]⟩

/-! ### What every mode keeps (R266; 44_sam_demodulator.md R247) -/

/-- Settles O53: the three modes that answer a next state; the check of mode SAM alone writes the log. -/
theorem demodChannelsEqualAndLog : Obligations.DemodChannelsEqualAndLog := by
  intro s t h
  rcases execDemod_next h with ⟨hmode, rfl⟩ | ⟨hmode, rfl⟩ | ⟨hmode, -⟩
  case inl | inr.inl =>
    refine ⟨List.length_map .., List.forall_mem_map.mpr fun z _ => rfl, ?_⟩
    rw [hmode]
    rfl
  case inr.inr =>
    obtain ⟨m, x, hloop, rfl⟩ := exec_demod_sam_next hmode h
    obtain ⟨hlen, hequal, -⟩ := samLoop_some hloop
    refine ⟨hlen, fun z hz => congrArg F32.toBits (hequal z hz), ?_⟩
    simp [State.afterSam, State.samLog, hmode]

end Sys2Proof.Machine

/-! PROOFS. 46_host_operations.md: between passes only (R280), the setters (R283 to R285; 10_state.md R33, R34, R42, R47), the read accessors
(R286 to R288; 20_memory.md R75) and `BULK_CLEAR` (R289; 30_encoding.md R115). -/

namespace Sys2Proof.Machine

variable {s t : State} {i : Instr} {mode fs option band b mask : Nat} {amp phase : F32}

/-! ### Between passes only (R280) -/

theorem exec_host_of_busy (hi : stagePosition i = none) (hp : s.seq.pass ≠ .idle) :
    exec i s = .refused .hostOpDuringPass := by
  cases i with
  | tick | rxPass | txPass | cfgAgc | cfgNr | setIqc | rdAgcact | rdSamofs | rdIqc | bulkClear => exact whenIdle_busy hp
  | _ => cases hi

/-- The end of a pass is answered in the result, not in the words issued. -/
theorem passEnd_cmd (s : State) : s.passEnd.host.cmd = s.host.cmd := by
  rw [State.passEnd_host]
  split <;> rfl

/-- A stage of a pass takes no command word. -/
theorem seqStep_cmd (h : seqStep s = .next t) : t.host.cmd = s.host.cmd := by
  obtain ⟨i, u, -, he, rfl⟩ := seqStep_next h
  obtain ⟨-, -, -, hcmd⟩ := (exec_effect he).constant
  exact (passEnd_cmd u).trans hcmd

/-- Settles O12: the check of every host operation; the block's own step during a pass is a stage. -/
theorem hostOperationsWaitForIdle : Obligations.HostOperationsWaitForIdle := by
  refine ⟨fun i s => exec_host_of_busy, fun s t hs hp h => ?_⟩
  obtain ⟨-, ⟨m, rest, hmove, hm, -⟩ | ⟨rest, -, hcore⟩⟩ := step_next h
  · rw [hmove] at hs
    obtain hnil | ⟨_, hrun⟩ := hs
    · cases hnil
    · exact absurd (List.cons.inj hrun).1 hm
  · have hseq : seqStep (s.setSched rest) = .next t := (if_neg hp).symm.trans hcore
    exact seqStep_cmd (s := s.setSched rest) hseq

/-! ### The correction pairs (10_state.md R34) -/

theorem iqPair_setIqPair_same (c : Cfg) (band : Nat) (amp phase : F32) :
    (c.setIqPair band amp phase).iqPair band = { amp := amp, phase := phase, written := true } :=
  bankRead_bankWrite_same ..

theorem iqPair_setIqPair_other (c : Cfg) (amp phase : F32) (h : b ≠ band) :
    (c.setIqPair band amp phase).iqPair b = c.iqPair b :=
  bankRead_bankWrite_other _ _ h

/-! ### The read accessors (R286 to R288) -/

theorem exec_rdAgcact (hp : s.seq.pass = .idle) :
    exec .rdAgcact s = .next
      { s with
        host := { s.host with result := .bit s.agc.agcAction }
        marks := if s.cfg.agcWritten then s.marks else s.marks ++ [.agcUnwritten] } := by
  refine (whenIdle_idle hp).trans ?_
  rw [State.markAgc, markIf_unwritten]
  rfl

theorem exec_rdIqc_of_lt (hp : s.seq.pass = .idle) (hb : band < s.par.numBands) :
    exec (.rdIqc band) s = .next
      { s with
        host := { s.host with result := .pair (s.cfg.iqPair band).amp (s.cfg.iqPair band).phase }
        marks := if (s.cfg.iqPair band).written then s.marks else s.marks ++ [.iqcUnwritten band] } := by
  refine (whenIdle_idle hp).trans ((if_neg hb.not_ge).trans ?_)
  rw [State.markIqc, markIf_unwritten]
  rfl

/-- Settles O59: the marks of the two registers that can be unwritten; `CARRIER_SMOOTH` has its value from reset. -/
theorem accessorsReturn : Obligations.AccessorsReturn :=
  fun _ hp => ⟨exec_rdAgcact hp, whenIdle_idle hp, fun _ => exec_rdIqc_of_lt hp⟩

/-! ### The setters (R283 to R285) -/

theorem exec_cfgNr_of_le (hp : s.seq.pass = .idle) (h : option ≤ 3) :
    exec (.cfgNr option) s = .next (s.setCfg { s.cfg with nrOption := BitVec.ofNat 2 option, nrWritten := true }) :=
  (whenIdle_idle hp).trans (if_neg h.not_gt)

theorem exec_setIqc_of_lt (hp : s.seq.pass = .idle) (hb : band < s.par.numBands) :
    exec (.setIqc band amp phase) s = .next (s.setCfg (s.cfg.setIqPair band amp phase)) :=
  (whenIdle_idle hp).trans (if_neg hb.not_ge)

/-- The accessor returns the pair a setter has stored, and does not mark the run. -/
theorem exec_rdIqc_setIqPair (hp : s.seq.pass = .idle) (hb : band < s.par.numBands) :
    exec (.rdIqc band) (s.setCfg (s.cfg.setIqPair band amp phase)) =
      .next ((s.setCfg (s.cfg.setIqPair band amp phase)).returns (.pair amp phase)) := by
  refine (exec_rdIqc_of_lt (s := s.setCfg (s.cfg.setIqPair band amp phase)) hp hb).trans ?_
  rw [State.setCfg_cfg, iqPair_setIqPair_same]
  rfl

/-- Settles O58: the bank of pairs after the write is the witness, read at the band and at every other band. -/
theorem settersStore : Obligations.SettersStore :=
  fun s hp => ⟨fun _ => exec_cfgNr_of_le hp, fun band amp phase hb =>
    ⟨(s.cfg.setIqPair band amp phase).iq, exec_setIqc_of_lt hp hb, iqPair_setIqPair_same .., fun _ => iqPair_setIqPair_other _ _ _,
      exec_rdIqc_setIqPair hp hb⟩⟩

/-- `CFG_AGC` with operands in range goes on to its checks of the band and of the profile. -/
theorem exec_cfgAgc_of_legal (hp : s.seq.pass = .idle) (hmode : mode ≤ s.par.agcModeMax) (hfs : fs ≠ 0) :
    exec (.cfgAgc mode fs) s =
      whenBand (s.inp.ports.bandInRange s.par)
        (if mode = 0 ∨ (loadedProfile s mode fs).wf fs = true then .next (acceptAgc s mode fs)
         else .refused .agcProfileIllFormed) :=
  (whenIdle_idle hp).trans (if_neg fun h => h.elim hmode.not_gt hfs)

/-- Settles O57: the check of the band, then the check of the profile. -/
theorem cfgAgcLoadsAndResets : Obligations.CfgAgcLoadsAndResets := by
  intro s mode fs hp hmode hfs entry p
  have hload : loadedProfile s mode fs = p := rfl
  rw [exec_cfgAgc_of_legal hp hmode hfs]
  refine ⟨fun hb hwf => ?accepted, fun hb hactive hwf => ?illFormed, whenBand_of_le _⟩
  case accepted =>
    rw [whenBand_of_lt _ hb, hload, if_pos hwf]
    rfl
  case illFormed =>
    have hrefused : ¬ (mode = 0 ∨ p.wf fs = true) := by simp [hactive, hwf]
    rw [whenBand_of_lt _ hb, hload, if_neg hrefused]

/-! ### The bulk clear (R289) -/

/-- Bit 1 of a mask of two bits. -/
theorem testBit_one_iff (h : mask ≤ 3) : mask.testBit 1 = true ↔ 2 ≤ mask := by
  rw [Nat.testBit_eq_decide_div_mod_eq, decide_eq_true_iff]
  omega

theorem exec_bulkClear_of_le (hp : s.seq.pass = .idle) (h : mask ≤ 3) :
    exec (.bulkClear mask) s = .next (s.setQueues
      { s.queues with
        capq := if mask.testBit 0 then [] else s.queues.capq
        playq := if mask.testBit 1 then [] else s.queues.playq }) :=
  (whenIdle_idle hp).trans (if_neg h.not_gt)

/-- Settles O60: the two bits of the mask as conditions on the number; a mask above 3 is a no-op. -/
theorem bulkClearEmpties : Obligations.BulkClearEmpties := by
  refine fun s mask hp => ⟨fun h => ?cleared, fun h => (whenIdle_idle hp).trans (if_pos h)⟩
  have hcapture : mask.testBit 0 = true ↔ mask % 2 = 1 := by rw [Nat.testBit_zero, decide_eq_true_iff]
  simp only [exec_bulkClear_of_le hp h, hcapture, testBit_one_iff h]
  rfl

end Sys2Proof.Machine
